-- ==== Sys2Proof/Word.lean ====
section
/-! DEFINITION. The bit vectors of the PIPU: bytes of the buffer spaces, 32-bit register words and
24-bit color keys (00_scope.md section 5, R22, R50). -/

namespace Sys2Proof

/-- A byte of SRC, DST or PAL (R50). -/
abbrev Byte := BitVec 8

/-- A 32-bit register or command word (R10, R80). -/
abbrev Word := BitVec 32

/-- A color key: the 24-bit number with R, G, B from its most to its least significant byte (R100). -/
abbrev Key := BitVec 24

end Sys2Proof
end

