-- ==== Sys2Proof/Config.lean ====
section
/-! DEFINITION. What an instance of the PIPU fixes (R4, R5: ALIGN, SRC_CAP, DST_CAP) and the free values:
constants with no body, which stand for every value the spec leaves unspecified. -/

namespace Sys2Proof

/-- The scanline alignment unit; its two legal values (R4). -/
inductive Align where
  | one
  | four
  deriving DecidableEq, Repr

/-- `ALIGN` as a number of bytes (R4). -/
def Align.bytes : Align → Nat
  | .one => 1
  | .four => 4

/-- The parameters of one instance (R4, R5). They never change over the life of the instance (R213). -/
structure Config where
  align : Align
  srcCap : Nat
  dstCap : Nat
  deriving DecidableEq, Repr

/-- This hardware: `ALIGN = 4` (R4) and the capacities at their architectural maxima (R5, D3). -/
def Config.hardware : Config := ⟨.four, 2 ^ 34, 2 ^ 32⟩

/-- The byte-aligned variant (R4, program P5). -/
def Config.byteAligned : Config := ⟨.one, 2 ^ 34, 2 ^ 32⟩

/-- The capacities are within the architectural maxima (R5). -/
def Config.wellFormed (c : Config) : Bool := decide (c.srcCap ≤ 2 ^ 34) && decide (c.dstCap ≤ 2 ^ 32)

/-- FREE VALUE. What SRC holds at an offset the host has not written since the reset that began the given
epoch (R45, U1 "any value per absent byte"; log 2). -/
opaque Config.unwrittenSrcByte : Nat → Nat → Byte

/-- FREE VALUE. The byte the n-th unspecified host read returns (R35, U2, U3, R218; logs 3 and 7). -/
opaque Config.unspecifiedByte : Nat → Byte

/-- FREE VALUE. The word an unspecified register read returns while BUSY (R218; log 7). -/
opaque Config.unspecifiedWord : Nat → Word

/-- FREE VALUE. The rank of a key that is not in the lookup store: `rank` is "defined only when `k` is in
`LUT`" (00_scope.md section 5). No state a run reaches asks for it (R33 iii; log 11). -/
opaque Config.rankOfAbsentKey : List Key → Key → Nat

/-- FREE VALUE. The key of what `pixelAt(image, row, col)` gives on an Image that is not 24-bit or at coordinates
outside it: the document does not say (N11). DESIGN CHOICE: a free value for each alignment, each Image by all its
fields (width, height, depth, pixel buffer, color table), each row and each column (log 20). No command asks for it. -/
opaque Config.pixelNotInImage (a : Align) (width height bitsPerPixel : Nat) (pixelBuffer colorTable : List Byte)
    (row col : Nat) : Key

/-- FREE VALUE. Whether a file that ends inside its headers fails with IoError (true) or with TruncatedFile
(false): the sources do not say (N15; log 16). Host software only. -/
opaque Config.shortHeaderIsIoError : List Byte → Bool

end Sys2Proof
end

