-- ==== Sys2Proof/Machine/Script.lean ====
section
/-! DEFINITION. What the host does to the PIPU, as data: the access tuples of R89 and the statements of the
host-script notation of R92. -/

namespace Sys2Proof.Machine

/-- The byte-addressed buffer spaces (R50). -/
inductive BufferSpace where
  | src
  | dst
  | pal
  deriving DecidableEq, Repr

/-- The nineteen registers of the register map (10_state.md section 2). -/
inductive RegName where
  | cap
  | ctrl
  | status
  | error
  | cmd
  | srcWidth
  | srcHeight
  | srcBpp
  | row
  | col
  | color
  | index
  | ncolors
  | bpp
  | dstWidth
  | dstHeight
  | dstBpp
  | dstSize
  | palSize
  deriving DecidableEq, Repr

/-- One host access, the tuple (space, offset, direction, data) of R89: one 32-bit word in REG; one byte in a
buffer space, or `n` consecutive bytes as one number, where the platform lets the host do so (R52; log 22). -/
inductive Access where
  | regRead (off : Nat)
  | regWrite (off : Nat) (w : Word)
  | byteRead (sp : BufferSpace) (off : Nat)
  | byteWrite (sp : BufferSpace) (off : Nat) (b : Byte)
  | wideRead (sp : BufferSpace) (off n : Nat)
  | wideWrite (sp : BufferSpace) (off n v : Nat)
  deriving DecidableEq, Repr

/-- One statement of a host script (R92): an access; `IF reg[hi:lo] == v GOTO target`, the label given by the
position of the statement it stands at; `SRCRD`, `DSTRD` or `PALRD off, reg`, the read of as many bytes as the script
last read from a register (R174 `PALRD 0, PAL_SIZE`; log 24); or the reset input (R210), which may come between any two
statements. -/
inductive Stmt where
  | access (a : Access)
  | branch (reg : RegName) (hi lo v target : Nat)
  | sizedRead (sp : BufferSpace) (off : Nat) (size : RegName)
  | hardwareReset
  deriving DecidableEq, Repr

/-- What one host read returned (R92: "the value read is written after `->`"): a register word, a byte, or the
number of a wider read (R52). -/
inductive Observation where
  | reg (off : Nat) (w : Word)
  | byte (sp : BufferSpace) (off : Nat) (b : Byte)
  | number (sp : BufferSpace) (off n v : Nat)
  deriving DecidableEq, Repr

end Sys2Proof.Machine
end

