-- ==== Sys2Proof/Syntax.lean ====
section
/-! DEFINITION. The six commands of the PIPU, its instructions (R81). A command word has no operand fields
(R82): operands are read from fixed registers. -/

namespace Sys2Proof

/-- One constructor per row of spec/opcode_table.json. -/
inductive Instr where
  | build
  | lookup
  | pixat
  | pack
  | seldepth
  | compress
  deriving DecidableEq, Repr

end Sys2Proof
end

