-- ==== Sys2Proof/WellFormed.lean ====
section
/-! DEFINITION. Which terms are well formed: every command (R82: a command word has no operand field that
could be wrong), and which host statements are statements the spec admits (R11, R89, R92). -/

namespace Sys2Proof

/-- No command has an operand field (R82, R83), so each constructor is well formed as it stands. -/
def Instr.wellFormed : Instr → Bool
  | .build => true
  | .lookup => true
  | .pixat => true
  | .pack => true
  | .seldepth => true
  | .compress => true

namespace Machine

/-- The size in bytes of a buffer space (R50). -/
def BufferSpace.size (cfg : Config) : BufferSpace → Nat
  | .src => cfg.srcCap
  | .dst => cfg.dstCap
  | .pal => 768

/-- A REG offset is a multiple of 4 below 0x100, the bytes of a buffer access lie in its space (R89, U6, U7); a
wider access has at least one byte, and a written number fits its bytes (R52). -/
def Access.wellFormed (cfg : Config) : Access → Bool
  | .regRead off => decide (off % 4 = 0) && decide (off < 0x100)
  | .regWrite off _ => decide (off % 4 = 0) && decide (off < 0x100)
  | .byteRead sp off => decide (off < sp.size cfg)
  | .byteWrite sp off _ => decide (off < sp.size cfg)
  | .wideRead sp off n => decide (0 < n) && decide (off + n ≤ sp.size cfg)
  | .wideWrite sp off n v => decide (0 < n) && decide (off + n ≤ sp.size cfg) && decide (v < 256 ^ n)

/-- A branch tests a bit field of a register against a value that fits it and names a place of the script or
its end (R92); a sized read begins inside its space or at its end, its size being known only when it is performed;
`len` is the number of statements of the script. -/
def Stmt.wellFormed (cfg : Config) (len : Nat) : Stmt → Bool
  | .access a => a.wellFormed cfg
  | .branch _ hi lo v target =>
      decide (lo ≤ hi) && decide (hi < 32) && decide (v < 2 ^ (hi - lo + 1)) && decide (target ≤ len)
  | .sizedRead sp off _ => decide (off ≤ sp.size cfg)
  | .hardwareReset => true

end Machine

end Sys2Proof
end

