-- ==== Sys2Proof/Decode.lean ====
section
/-! DEFINITION. The decoder of command words (R80, R81, R84), total on words and on bytes, and the encoder
written from the same table. -/

namespace Sys2Proof

/-- Why bytes are no command: the word is illegal (R84), or there are fewer than the four bytes of a word. -/
inductive DecodeError where
  | illegal (w : Word)
  | short (n : Nat)
  deriving DecidableEq, Repr

/-- The opcode byte of a command word, `w[7:0]` (R80). -/
def opcodeField (w : Word) : Byte := w.extractLsb' 0 8

/-- The reserved field of a command word, `w[31:8]` (R80). -/
def reservedField (w : Word) : BitVec 24 := w.extractLsb' 8 24

/-- The total decode function of R84. -/
def decodeWord (w : Word) : Except DecodeError Instr :=
  if reservedField w ≠ 0 then .error (.illegal w)
  else match opcodeField w with
    | 0x01#8 => .ok .build
    | 0x02#8 => .ok .lookup
    | 0x03#8 => .ok .pixat
    | 0x04#8 => .ok .pack
    | 0x05#8 => .ok .seldepth
    | 0x06#8 => .ok .compress
    | _ => .error (.illegal w)

/-- The word of four bytes, the first the least significant (R52). -/
def wordOfBytes (b0 b1 b2 b3 : Byte) : Word :=
  BitVec.ofNat 32 (b0.toNat + 256 * b1.toNat + 65536 * b2.toNat + 16777216 * b3.toNat)

/-- The bytes of a word in little-endian order (R52). -/
def bytesOfWord (w : Word) : List Byte :=
  [w.extractLsb' 0 8, w.extractLsb' 8 8, w.extractLsb' 16 8, w.extractLsb' 24 8]

/-- Decoding from bytes: a command is exactly one word (R80); the rest of the bytes is returned. -/
def decode : List Byte → Except DecodeError (Instr × List Byte)
  | b0 :: b1 :: b2 :: b3 :: rest =>
    match decodeWord (wordOfBytes b0 b1 b2 b3) with
    | .ok i => .ok (i, rest)
    | .error e => .error e
  | bs => .error (.short bs.length)

/-- The opcode of each command (R81). -/
def Instr.opcode : Instr → Byte
  | .build => 0x01#8
  | .lookup => 0x02#8
  | .pixat => 0x03#8
  | .pack => 0x04#8
  | .seldepth => 0x05#8
  | .compress => 0x06#8

/-- The command word: the opcode in bits 7:0, zeros in bits 31:8 (R80, R81). -/
def encode (i : Instr) : Word := i.opcode.setWidth 32

/-- The command word as bytes in memory order (R52). -/
def encodeBytes (i : Instr) : List Byte := bytesOfWord (encode i)

/-- The command read from a table word of `nbits` bits; bits above `nbits` are 0. The word is laid out as four
bytes, lowest first, and given to the decoder. -/
def decodeTableWord (nbits w : Nat) : Option Instr :=
  match decode (bytesOfWord (BitVec.ofNat 32 (w % 2 ^ nbits))) with
  | .ok (i, _) => some i
  | .error _ => none

end Sys2Proof
end

