-- ==== Sys2Proof/Machine/State.lean ====
section
/-! DEFINITION. The state of the PIPU as plain data (R10), the reset state (R45), the error kinds (R181), and
the reasons a step of the model can stop. -/

namespace Sys2Proof.Machine

/-- Memory of one buffer space: (offset, byte) pairs, offsets strictly rising; an offset that is not listed
holds no byte the spec specifies (R45, U1 to U3). -/
abbrev Memory := List Host.Cell

/-- The five flags of STATUS (R14); bits 31:5 are reserved and read 0. -/
structure Status where
  busy : Bool
  done : Bool
  err : Bool
  lutValid : Bool
  dstValid : Bool
  deriving DecidableEq, Repr

/-- ERROR: the opcode byte of the failed command and the error code (R15, R186). -/
structure ErrorReg where
  op : Byte
  code : Byte
  deriving DecidableEq, Repr

/-- INDEX: HIT and ID (R23). -/
structure IndexReg where
  hit : Bool
  id : Byte
  deriving DecidableEq, Repr

/-- The fourteen error kinds, in the order of their codes (R181). -/
inductive ErrorKind where
  | invalidSignature
  | unsupportedHeaderSize
  | unsupportedCompression
  | dimensionOutOfRange
  | unsupportedBitDepth
  | truncatedFile
  | fileSizeOverflow
  | alreadyIndexed
  | tooManyColors
  | ioError
  | illegalCommand
  | sequenceError
  | operandRange
  | capacityExceeded
  deriving DecidableEq, Repr

/-- The whole state: the instance's configuration, the registers that hold bits (R12 to R27), the lookup
store (R28), the buffer spaces (R29), and below them the model's own fields. -/
structure State where
  /-- The instance's parameters (R4, R5), which no step changes; CAP reads from here (R12; log 1). -/
  cfg : Config
  status : Status
  error : ErrorReg
  srcWidth : Word
  srcHeight : Word
  srcBpp : Word
  row : Word
  col : Word
  /-- COLOR[23:0]; bits 31:24 read 0 and ignore writes (R22). -/
  color : Key
  index : IndexReg
  /-- NCOLORS[8:0] (R24). -/
  ncolors : BitVec 9
  bpp : Word
  dstWidth : Word
  dstHeight : Word
  dstBpp : Word
  dstSize : Word
  palSize : Word
  lut : List Key
  src : Memory
  dst : Memory
  pal : Memory
  /-- The model's own: which free bytes the absent bytes of SRC hold; every reset advances it (logs 2, 4). -/
  srcEpoch : Nat
  /-- The model's own: how many free values host reads have taken so far (logs 3, 4, 7). -/
  draws : Nat
  /-- The host's script (R92; log 5). -/
  script : List Stmt
  /-- The position in `script` of the statement the host performs next (log 5). -/
  pos : Nat
  /-- What the host's reads have returned, newest first (R92; log 5). -/
  observed : List Observation
  deriving DecidableEq, Repr

/-- The reset state of an instance (R45): registers 0, flags 0, LUT empty, no buffer byte specified, and no
script loaded. -/
def State.resetOf (cfg : Config) : State where
  cfg := cfg
  status := ⟨false, false, false, false, false⟩
  error := ⟨0, 0⟩
  srcWidth := 0
  srcHeight := 0
  srcBpp := 0
  row := 0
  col := 0
  color := 0
  index := ⟨false, 0⟩
  ncolors := 0
  bpp := 0
  dstWidth := 0
  dstHeight := 0
  dstBpp := 0
  dstSize := 0
  palSize := 0
  lut := []
  src := []
  dst := []
  pal := []
  srcEpoch := 0
  draws := 0
  script := []
  pos := 0
  observed := []

/-- The machine right after reset, for this hardware's parameters (R45, R4, R5). -/
def State.reset : State := State.resetOf Config.hardware

/-- How a stage of a command ends: it ran, or it raised an error in the state its changes so far have made
(R189, R190). -/
inductive StageResult where
  | ok (s : State)
  | raised (kind : ErrorKind) (s : State)
  deriving DecidableEq, Repr

/-- Why the model stops on a host access that is no access of the PIPU. No command raises one. -/
inductive Fault where
  /-- Raised by a host access to a REG offset at or above 0x100 or to a byte, alone, in a wider access or in a sized read, at or
  above the size of its space: "they are not addresses of the PIPU" (U7). Safe: the model stops (log 8). -/
  | offsetOutsideSpace
  deriving DecidableEq, Repr

/-- Why the model refuses a host statement. -/
inductive Refusal where
  /-- Raised by an arm of `exec` whose command has no meaning yet; no arm is left so. Safe. -/
  | notModelled (mnemonic : String)
  /-- Raised by a REG access at an offset that is not a multiple of 4, whose effect is unspecified (R11, U6).
  Safe: the model stops (log 9). -/
  | unalignedRegister
  /-- Raised by a host write to SRC, of a byte or wider, while BUSY = 1, whose effect is unspecified (R218, U5). Safe, and reached
  in no run from reset, because a command is atomic (R7; log 7). -/
  | sourceWriteWhileBusy
  /-- Raised by a branch of the host's script on a register the script has not read: R92 branches "on a value
  just read". Safe (log 10). -/
  | branchOnUnreadRegister
  /-- Raised by a sized read of the host's script whose size the script has not read: R174 reads PAL_SIZE and DST_SIZE
  before it reads as many bytes. Safe (log 24). -/
  | sizeOfUnreadRegister
  deriving DecidableEq, Repr

end Sys2Proof.Machine
end

