-- ==== Sys2Proof/Machine/Flags.lean ====
section
/-! DEFINITION. The flags of STATUS and the words of STATUS, ERROR and INDEX (R14, R15, R23), the error codes
(R181), and what starting and ending a command do to the flags (R193). -/

namespace Sys2Proof.Machine

/-- The code of each error kind (R181). -/
def ErrorKind.code : ErrorKind → Byte
  | .invalidSignature => 0x01#8
  | .unsupportedHeaderSize => 0x02#8
  | .unsupportedCompression => 0x03#8
  | .dimensionOutOfRange => 0x04#8
  | .unsupportedBitDepth => 0x05#8
  | .truncatedFile => 0x06#8
  | .fileSizeOverflow => 0x07#8
  | .alreadyIndexed => 0x08#8
  | .tooManyColors => 0x09#8
  | .ioError => 0x0A#8
  | .illegalCommand => 0x10#8
  | .sequenceError => 0x11#8
  | .operandRange => 0x12#8
  | .capacityExceeded => 0x13#8

/-- The kinds the engine itself can raise (R181, R182). -/
def ErrorKind.raisedByEngine : ErrorKind → Bool
  | .dimensionOutOfRange => true
  | .unsupportedBitDepth => true
  | .alreadyIndexed => true
  | .tooManyColors => true
  | .illegalCommand => true
  | .sequenceError => true
  | .operandRange => true
  | .capacityExceeded => true
  | .invalidSignature => false
  | .unsupportedHeaderSize => false
  | .unsupportedCompression => false
  | .truncatedFile => false
  | .fileSizeOverflow => false
  | .ioError => false

/-- STATUS as a word: BUSY 0, DONE 1, ERR 2, LUT_VALID 3, DST_VALID 4, the rest 0 (R14). -/
def Status.toWord (f : Status) : Word :=
  BitVec.ofNat 32
    (f.busy.toNat + 2 * f.done.toNat + 4 * f.err.toNat + 8 * f.lutValid.toNat + 16 * f.dstValid.toNat)

/-- ERROR as a word: OP in bits 15:8, CODE in bits 7:0 (R15). -/
def ErrorReg.toWord (e : ErrorReg) : Word := BitVec.ofNat 32 (e.op.toNat * 256 + e.code.toNat)

/-- INDEX as a word: HIT in bit 8, ID in bits 7:0 (R23). -/
def IndexReg.toWord (x : IndexReg) : Word := BitVec.ofNat 32 (x.hit.toNat * 256 + x.id.toNat)

/-- Accepting a command: DONE <- 0, BUSY <- 1 (R193). -/
def beginCommand (s : State) : State := { s with status := { s.status with done := false, busy := true } }

/-- The end of a command: BUSY <- 0 (R193). -/
def endCommand (s : State) : State := { s with status := { s.status with busy := false } }

/-- A command's success: DONE <- 1 (R8). -/
def complete (s : State) : State := { s with status := { s.status with done := true } }

/-- The error clear: a write of `w` to STATUS clears ERR and ERROR if bit 2 of `w` is 1 (R192, R14). -/
def clearError (w : Word) (s : State) : State :=
  if w.getLsbD 2 then { s with status := { s.status with err := false }, error := ⟨0, 0⟩ } else s

end Sys2Proof.Machine
end

