-- ==== Sys2Proof/Machine/Ops.lean ====
section
/-! DEFINITION. The named operations over memory and registers: reading and writing a buffer space, the two
invalidations (R34), taking an error (R190), reset (R45, R212), command acceptance (R193). -/

namespace Sys2Proof.Machine

/-- The byte a buffer space lists at an offset, or none. -/
def Memory.read : Memory → Nat → Option Byte
  | [], _ => none
  | (k, b) :: m, a => if k = a then some b else Memory.read m a

/-- The cells of consecutive bytes from an offset on. -/
def Memory.cellsFrom : Nat → List Byte → Memory
  | _, [] => []
  | off, b :: bs => (off, b) :: Memory.cellsFrom (off + 1) bs

/-- `MemWrite(S, off, n, bytes)` (00_scope.md section 5): the bytes replace what stood at their offsets. -/
def Memory.write (m : Memory) (off : Nat) (bytes : List Byte) : Memory :=
  m.filter (fun c => decide (c.1 < off)) ++ Memory.cellsFrom off bytes ++
    m.filter (fun c => decide (off + bytes.length ≤ c.1))

/-- The canonical form: offsets strictly rising. An unlisted offset reads as no value, so no entry can equal
what an unlisted offset reads as. -/
abbrev Memory.wf (m : Memory) : Prop := m.Pairwise (fun x y => x.1 < y.1)

/-- `invalidate_lut` (R34). -/
def invalidateLut (s : State) : State :=
  { s with
    lut := []
    ncolors := 0
    index := ⟨false, 0⟩
    status := { s.status with lutValid := false } }

/-- `invalidate_dst` (R34): the contents of DST become unspecified, so no byte of it stays listed (U2). -/
def invalidateDst (s : State) : State :=
  { s with
    status := { s.status with dstValid := false }
    dstWidth := 0
    dstHeight := 0
    dstBpp := 0
    dstSize := 0
    palSize := 0
    dst := [] }

/-- Taking an error, `raise Kind(op)` (R190): the one error entry every command uses. -/
def raise (kind : ErrorKind) (op : Byte) (s : State) : State :=
  { s with
    status := { s.status with err := true, done := false, busy := false }
    error := ⟨op, kind.code⟩ }

/-- Hardware reset and soft reset (R45, R210, R212): the whole engine at its reset values, every buffer byte
unspecified anew (U4). The parameters are kept (R213), and so is what is the host's: its script, its place in
it and what it has read. -/
def resetEngine (s : State) : State :=
  { State.resetOf s.cfg with
    srcEpoch := s.srcEpoch + 1
    draws := s.draws
    script := s.script
    pos := s.pos
    observed := s.observed }

/-- Stages in sequence: the next one runs only if this one has raised nothing (R189). -/
def StageResult.andThen (r : StageResult) (f : State → StageResult) : StageResult :=
  match r with
  | .ok s => f s
  | .raised kind s => .raised kind s

/-- The end of a command body with opcode `op`: DONE, or the error it raised (R8). -/
def finish (op : Byte) (r : StageResult) : State :=
  match r with
  | .ok s => complete s
  | .raised kind s => raise kind op s

/-- Command acceptance (R193): while BUSY or ERR is set the CMD write changes nothing at all; otherwise the
body runs between BUSY <- 1 and BUSY <- 0. -/
def issue (op : Byte) (body : State → StageResult) (s : State) : Host.Outcome State Fault Refusal :=
  if s.status.busy then .next s
  else if s.status.err then .next s
  else .next (endCommand (finish op (body (beginCommand s))))

/-- A CMD write of an illegal word ends at once with `IllegalCommand(w[7:0])` (R84). -/
def execIllegal (w : Word) (s : State) : Host.Outcome State Fault Refusal :=
  issue (w.extractLsb' 0 8) (fun s => .raised .illegalCommand s) s

end Sys2Proof.Machine
end

