-- ==== Sys2Proof/Machine/Operands.lean ====
section
/-! DEFINITION. Every operand form: the register map (R11 to R27), the scanline width (R56), colors and keys
(R100), the source pixels (R120), the ordered color set (R101, R102), the palette bytes (R104), the packed
fields (R55, R124), and the source pre-check (R185). -/

namespace Sys2Proof.Machine

/-- The offset of each register (10_state.md section 2). -/
def RegName.offset : RegName → Nat
  | .cap => 0x00
  | .ctrl => 0x04
  | .status => 0x08
  | .error => 0x0C
  | .cmd => 0x10
  | .srcWidth => 0x14
  | .srcHeight => 0x18
  | .srcBpp => 0x1C
  | .row => 0x20
  | .col => 0x24
  | .color => 0x28
  | .index => 0x2C
  | .ncolors => 0x30
  | .bpp => 0x34
  | .dstWidth => 0x38
  | .dstHeight => 0x3C
  | .dstBpp => 0x40
  | .dstSize => 0x44
  | .palSize => 0x48

/-- A number as `n` little-endian bytes (R52, R155). -/
def leBytes : Nat → Nat → List Byte
  | 0, _ => []
  | n + 1, v => BitVec.ofNat 8 v :: leBytes n (v / 256)

/-- The number of little-endian bytes (R52, R155). -/
def ofLeBytes : List Byte → Nat
  | [] => 0
  | b :: bs => b.toNat + 256 * ofLeBytes bs

/-- The register at an offset; 0x4C to 0xFF hold none (R11). -/
def regAt (off : Nat) : Option RegName :=
  match off with
  | 0x00 => some .cap
  | 0x04 => some .ctrl
  | 0x08 => some .status
  | 0x0C => some .error
  | 0x10 => some .cmd
  | 0x14 => some .srcWidth
  | 0x18 => some .srcHeight
  | 0x1C => some .srcBpp
  | 0x20 => some .row
  | 0x24 => some .col
  | 0x28 => some .color
  | 0x2C => some .index
  | 0x30 => some .ncolors
  | 0x34 => some .bpp
  | 0x38 => some .dstWidth
  | 0x3C => some .dstHeight
  | 0x40 => some .dstBpp
  | 0x44 => some .dstSize
  | 0x48 => some .palSize
  | _ => none

/-- The word a read of a register returns (R12 to R27): WO registers and reserved bits read 0. -/
def readReg (s : State) : RegName → Word
  | .cap => BitVec.ofNat 32 s.cfg.align.bytes
  | .ctrl => 0
  | .status => s.status.toWord
  | .error => s.error.toWord
  | .cmd => 0
  | .srcWidth => s.srcWidth
  | .srcHeight => s.srcHeight
  | .srcBpp => s.srcBpp
  | .row => s.row
  | .col => s.col
  | .color => s.color.setWidth 32
  | .index => s.index.toWord
  | .ncolors => s.ncolors.setWidth 32
  | .bpp => s.bpp
  | .dstWidth => s.dstWidth
  | .dstHeight => s.dstHeight
  | .dstBpp => s.dstBpp
  | .dstSize => s.dstSize
  | .palSize => s.palSize

/-- The effect of a host write of `w` to a register other than CMD while not BUSY (R11 to R27): RO registers
ignore it, the three source registers also invalidate the LUT (R34). CMD is issued elsewhere (R16). -/
def writeReg (s : State) (r : RegName) (w : Word) : State :=
  match r with
  | .cap => s
  | .ctrl => if w.getLsbD 0 then resetEngine s else s
  | .status => clearError w s
  | .error => s
  | .cmd => s
  | .srcWidth => invalidateLut { s with srcWidth := w }
  | .srcHeight => invalidateLut { s with srcHeight := w }
  | .srcBpp => invalidateLut { s with srcBpp := w }
  | .row => { s with row := w }
  | .col => { s with col := w }
  | .color => { s with color := w.extractLsb' 0 24 }
  | .index => s
  | .ncolors => s
  | .bpp => { s with bpp := w }
  | .dstWidth => s
  | .dstHeight => s
  | .dstBpp => s
  | .dstSize => s
  | .palSize => s

/-- The scanline width `slw(w, b)` in bytes (R56): `w*b` bits rounded up to the alignment unit. -/
def slw (a : Align) (w b : Nat) : Nat := (w * b + 8 * a.bytes - 1) / (8 * a.bytes) * a.bytes

/-- A Color (R100). -/
structure Color where
  r : Byte
  g : Byte
  b : Byte
  deriving DecidableEq, Repr

/-- `key(R,G,B) = {R, G, B} = R*65536 + G*256 + B` (R100). -/
def Color.key (c : Color) : Key := BitVec.ofNat 24 (c.r.toNat * 65536 + c.g.toNat * 256 + c.b.toNat)

/-- `unkey(k) = (k[23:16], k[15:8], k[7:0])` (00_scope.md section 5). -/
def unkey (k : Key) : Color := ⟨k.extractLsb' 16 8, k.extractLsb' 8 8, k.extractLsb' 0 8⟩

/-- The document's order on Colors: lexicographic by R, then G, then B (R100). -/
def Color.lt (x y : Color) : Bool :=
  decide (x.r < y.r) || (x.r == y.r && (decide (x.g < y.g) || (x.g == y.g && decide (x.b < y.b))))

/-- The byte of SRC at an offset: the one written there, or the free byte an unwritten offset holds (R45, U1;
log 2). -/
def srcByte (s : State) (off : Nat) : Byte :=
  (s.src.read off).getD (Config.unwrittenSrcByte s.srcEpoch off)

/-- The offset of a pixel in a 24-bit buffer, `row*slw(W,24) + col*3` (R53, R120). -/
def pixelOffset (a : Align) (w row col : Nat) : Nat := row * slw a w 24 + col * 3

/-- `pixelAt(row, col)` (R120): blue, green and red at ascending offsets. -/
def pixelAt (s : State) (row col : Nat) : Color :=
  let o := pixelOffset s.cfg.align s.srcWidth.toNat row col
  ⟨srcByte s (o + 2), srcByte s (o + 1), srcByte s o⟩

/-- All pixel coordinates of an image, in row-major order (R101). -/
def pixelCoords (h w : Nat) : List (Nat × Nat) :=
  (List.range h).flatMap (fun row => (List.range w).map (fun col => (row, col)))

/-- The keys of all pixels of the source image in row-major order (R101). -/
def pixelKeys (s : State) : List Key :=
  (pixelCoords s.srcHeight.toNat s.srcWidth.toNat).map (fun p => (pixelAt s p.1 p.2).key)

/-- Insertion into the "duplicate-eliminating ordered collection keyed by (R,G,B)" (R101). -/
def insertKey (k : Key) : List Key → List Key
  | [] => [k]
  | x :: xs => if k < x then k :: x :: xs else if k = x then x :: xs else x :: insertKey k xs

/-- The ascending list of the distinct keys of a list (R102 `sorted(img)`). -/
def sortedKeys (ks : List Key) : List Key := ks.foldl (fun acc k => insertKey k acc) []

/-- `rank(LUT, k)`: the 0-based place of a key in the lookup store (R102, R110, R148 b), none where it is not there. -/
def rank : List Key → Key → Option Nat
  | [], _ => none
  | x :: xs, k => if x = k then some 0 else (rank xs k).map (· + 1)

/-- The bytes of one palette entry, blue, green, red (R54). -/
def entryBytes (k : Key) : List Byte := [(unkey k).b, (unkey k).g, (unkey k).r]

/-- The palette bytes of a color table: entry `id` at offset `id*3`, then 0x00 up to 768 bytes (R104). -/
def paletteBytes (lut : List Key) : List Byte :=
  lut.flatMap entryBytes ++ List.replicate (768 - 3 * lut.length) 0x00#8

/-- The byte of a packed index, `row*slw(W,bpp) + (col*bpp) div 8` (R55, R124). -/
def packByteOffset (a : Align) (w b row col : Nat) : Nat := row * slw a w b + col * b / 8

/-- The least significant bit of a packed index in its byte, `8 - ((col*bpp) mod 8) - bpp` (R55, R124). -/
def packBitOffset (b col : Nat) : Nat := 8 - (col * b) % 8 - b

/-- The packed index of a pixel, `extract(buf, row, col, bpp)`, of the document's packing property (R131): a
checking function, no command computes it. -/
def extractIndex (a : Align) (w b : Nat) (buf : List Byte) (row col : Nat) : Option Nat :=
  (buf[packByteOffset a w b row col]?).map
    (fun x => (x.toNat >>> packBitOffset b col) &&& (2 ^ b - 1))

/-- The size in bytes of the source image's pixel buffer (R58). -/
def sourceSize (s : State) : Nat := s.srcHeight.toNat * slw s.cfg.align s.srcWidth.toNat 24

/-- The size in bytes of the output image's pixel buffer at depth `b` (R58, R126). -/
def outputSize (s : State) (b : Nat) : Nat := s.srcHeight.toNat * slw s.cfg.align s.srcWidth.toNat b

/-- The error the source pre-check finds first, if any (R185): dimension, depth, indexed, capacity. -/
def sourceError (s : State) : Option ErrorKind :=
  if 65535 < s.srcWidth.toNat ∨ 65535 < s.srcHeight.toNat then some .dimensionOutOfRange
  else if s.srcBpp.toNat ∉ [1, 4, 8, 24] then some .unsupportedBitDepth
  else if s.srcBpp.toNat ≠ 24 then some .alreadyIndexed
  else if s.cfg.srcCap < sourceSize s then some .capacityExceeded
  else none

/-- `check_src24(op)` (R185), shared by BUILD, PIXAT, PACK and COMPRESS: a check that passes changes nothing. -/
def checkSrc24 (s : State) : StageResult :=
  match sourceError s with
  | some kind => .raised kind s
  | none => .ok s

end Sys2Proof.Machine
end

