-- ==== Sys2Proof/Machine/ColorTable.lean ====
section
/-! DEFINITION. The Color Table Builder: BUILD (R106, R107) and LOOKUP (R108). -/

namespace Sys2Proof.Machine

/-- The distinct keys of the source image in ascending order, `sorted(img)` (R102). -/
def sourceColors (s : State) : List Key := sortedKeys (pixelKeys s)

/-- The end of a build that found at most 256 colors: LUT, NCOLORS, all 768 PAL bytes, LUT_VALID (R106). -/
def installTable (table : List Key) (s : State) : State :=
  { s with
    lut := table
    ncolors := BitVec.ofNat 9 table.length
    pal := Memory.write s.pal 0 (paletteBytes table)
    status := { s.status with lutValid := true } }

/-- The body of BUILD from `invalidate_dst` to `LUT_VALID <- 1` (R106), COMPRESS's first stage too (R146). A
257th color ends it with TooManyColors and leaves every PAL byte unspecified (R107, U3). -/
def buildStage (s : State) : StageResult :=
  let s' := invalidateLut (invalidateDst s)
  if 256 < (sourceColors s').length then .raised .tooManyColors { s' with pal := [] }
  else .ok (installTable (sourceColors s') s')

/-- BUILD: build the color table and lookup of the source image (R106). -/
def execBuild (s : State) : Host.Outcome State Fault Refusal :=
  issue 0x01#8 (fun s => (checkSrc24 s).andThen buildStage) s

/-- INDEX for a key: HIT and its rank, or 0 on a miss (R108). -/
def lookupResult (lut : List Key) (k : Key) : IndexReg :=
  match rank lut k with
  | some i => ⟨true, BitVec.ofNat 8 i⟩
  | none => ⟨false, 0⟩

/-- The body of LOOKUP (R108). -/
def lookupBody (s : State) : StageResult :=
  if s.status.lutValid = false then .raised .sequenceError s
  else .ok { s with index := lookupResult s.lut s.color }

/-- LOOKUP: give the palette id of the color in COLOR (R108). -/
def execLookup (s : State) : Host.Outcome State Fault Refusal := issue 0x02#8 lookupBody s

end Sys2Proof.Machine
end

