-- ==== Sys2Proof/Machine/Pixels.lean ====
section
/-! DEFINITION. The Pixel Unpacker PIXAT (R122) and the Pixel Packer PACK (R124, R126). -/

namespace Sys2Proof.Machine

/-- The body of PIXAT after the source pre-check (R122). -/
def pixatBody (s : State) : StageResult :=
  if s.srcHeight.toNat ≤ s.row.toNat ∨ s.srcWidth.toNat ≤ s.col.toNat then .raised .operandRange s
  else .ok { s with color := (pixelAt s s.row.toNat s.col.toNat).key }

/-- PIXAT: read one pixel of the source image into COLOR (R122). -/
def execPixat (s : State) : Host.Outcome State Fault Refusal :=
  issue 0x03#8 (fun s => (checkSrc24 s).andThen pixatBody) s

/-- The id the packer packs for a key: its rank (R124). A key outside the LUT, which no reachable state has
in its source image (R33 iii, R125), has a free one (log 11). -/
def packedId (lut : List Key) (k : Key) : Nat := (rank lut k).getD (Config.rankOfAbsentKey lut k)

/-- `pack_pixel(row, col, bpp)` (R124) on the output buffer: the shifted id is or-ed into its byte. -/
def packPixel (s : State) (b : Nat) (buf : List Byte) (p : Nat × Nat) : List Byte :=
  buf.modify (packByteOffset s.cfg.align s.srcWidth.toNat b p.1 p.2)
    (fun old => old ||| BitVec.ofNat 8 (packedId s.lut (pixelAt s p.1 p.2).key <<< packBitOffset b p.2))

/-- The output buffer (R123, R126): zero filled, then every pixel packed in row-major order. -/
def packedBuffer (s : State) (b : Nat) : List Byte :=
  (pixelCoords s.srcHeight.toNat s.srcWidth.toNat).foldl (packPixel s b)
    (List.replicate (outputSize s b) 0x00#8)

/-- The body of PACK from the zero fill to `DST_VALID <- 1` (R126), COMPRESS's third stage too (R146, R148 c). Bytes
at or beyond the size are unspecified afterwards (R126 e, U2). -/
def packStage (b : Nat) (s : State) : State :=
  { s with
    dst := Memory.write [] 0 (packedBuffer s b)
    dstWidth := s.srcWidth
    dstHeight := s.srcHeight
    dstBpp := BitVec.ofNat 32 b
    dstSize := BitVec.ofNat 32 (outputSize s b)
    palSize := BitVec.ofNat 32 (3 * 2 ^ b)
    status := { s.status with dstValid := true } }

/-- The body of PACK after the source pre-check (R126): its checks in order, then the packing. -/
def packBody (s : State) : StageResult :=
  if s.status.lutValid = false then .raised .sequenceError s
  else if s.bpp.toNat ∉ [1, 4, 8] then .raised .unsupportedBitDepth s
  else if 2 ^ s.bpp.toNat < s.ncolors.toNat then .raised .operandRange s
  else if s.cfg.dstCap < outputSize s s.bpp.toNat then .raised .capacityExceeded s
  else .ok (packStage s.bpp.toNat s)

/-- PACK: pack the whole source image into DST at depth BPP (R126). -/
def execPack (s : State) : Host.Outcome State Fault Refusal :=
  issue 0x04#8 (fun s => (checkSrc24 s).andThen packBody) s

end Sys2Proof.Machine
end

