-- ==== Sys2Proof/Machine/Orchestrator.lean ====
section
/-! DEFINITION. The Compression Orchestrator: SELDEPTH (R140, R142) and COMPRESS (R146). -/

namespace Sys2Proof.Machine

/-- `choose_bpp(n)` (R140, R148 a); none stands for TooManyColors. -/
def chooseBpp (n : Nat) : Option Nat :=
  if n ≤ 2 then some 1 else if n ≤ 16 then some 4 else if n ≤ 256 then some 8 else none

/-- BPP <- choose_bpp(NCOLORS) (R142), COMPRESS's second stage too (R146). -/
def depthStage (s : State) : StageResult :=
  match chooseBpp s.ncolors.toNat with
  | some b => .ok { s with bpp := BitVec.ofNat 32 b }
  | none => .raised .tooManyColors s

/-- The body of SELDEPTH (R142). -/
def seldepthBody (s : State) : StageResult :=
  if s.status.lutValid = false then .raised .sequenceError s else depthStage s

/-- SELDEPTH: set BPP to the smallest depth that holds the color count (R142). -/
def execSeldepth (s : State) : Host.Outcome State Fault Refusal := issue 0x05#8 seldepthBody s

/-- COMPRESS's third stage (R146): the output capacity, then the packing at the depth in BPP. -/
def compressPackStage (s : State) : StageResult :=
  if s.cfg.dstCap < outputSize s s.bpp.toNat then .raised .capacityExceeded s
  else .ok (packStage s.bpp.toNat s)

/-- The body of COMPRESS (R146; R148 d: its first stage `checkSrc24` gives AlreadyIndexed for a legal SRC_BPP other
than 24): validate and build, choose the depth, pack; stopped at the first error. -/
def compressBody (s : State) : StageResult :=
  (((checkSrc24 s).andThen buildStage).andThen depthStage).andThen compressPackStage

/-- COMPRESS: convert the 24-bit source image into an indexed output image (R146). Its properties (R148) are those of
the definitions it is made of: (a) `chooseBpp`; (b) `rank` of `sourceColors`; (c) `packStage`; (d) `checkSrc24`;
(e) `compressPicture`, the output as a function of ALIGN, the dimensions and the pixel colors; (f) `encodeFile` and
`decodeFile`. -/
def execCompress (s : State) : Host.Outcome State Fault Refusal := issue 0x06#8 compressBody s

end Sys2Proof.Machine
end

