-- ==== Sys2Proof/Machine/Dispatch.lean ====
section
/-! DEFINITION. From a command to its meaning: one arm per command of R81. -/

namespace Sys2Proof.Machine

def exec (i : Instr) (s : State) : Host.Outcome State Fault Refusal :=
  match i with
  | .build => Sys2Proof.Machine.execBuild s
  | .lookup => Sys2Proof.Machine.execLookup s
  | .pixat => Sys2Proof.Machine.execPixat s
  | .pack => Sys2Proof.Machine.execPack s
  | .seldepth => Sys2Proof.Machine.execSeldepth s
  | .compress => Sys2Proof.Machine.execCompress s

end Sys2Proof.Machine
end

