-- ==== Sys2Proof/Machine/HostPort.lean ====
section
/-! DEFINITION. What a host access does to the PIPU (R11, R35, R88, R89, R193, R218) and how the statements of
a host script are performed (R92). -/

namespace Sys2Proof.Machine

/-- A CMD write of the word `w` (R16, R193): the decoded command, or the illegal-command error (R84). -/
def issueWord (w : Word) (s : State) : Host.Outcome State Fault Refusal :=
  match decodeWord w with
  | .ok i => exec i s
  | .error _ => execIllegal w s

/-- The value a register read returned, kept for the host. -/
def observeReg (off : Nat) (w : Word) (s : State) : State := { s with observed := .reg off w :: s.observed }

/-- The value a buffer read returned, kept for the host. -/
def observeByte (sp : BufferSpace) (off : Nat) (b : Byte) (s : State) : State :=
  { s with observed := .byte sp off b :: s.observed }

/-- A register read whose value is unspecified (R218): the host sees a free word (log 7). -/
def drawWord (off : Nat) (s : State) : State :=
  { observeReg off (Config.unspecifiedWord s.draws) s with draws := s.draws + 1 }

/-- A buffer read whose value is unspecified (R35, R217, R218): the host sees a free byte (logs 3 and 7). -/
def drawByte (sp : BufferSpace) (off : Nat) (s : State) : State :=
  { observeByte sp off (Config.unspecifiedByte s.draws) s with draws := s.draws + 1 }

/-- The word at a REG offset: a register's, or 0 where there is none (R11, R85). -/
def readRegAt (s : State) (off : Nat) : Word :=
  match regAt off with
  | some r => readReg s r
  | none => 0

/-- A host read of a register (R11; while BUSY only STATUS has a specified value, R218). -/
def hostRegRead (off : Nat) (s : State) : Host.Outcome State Fault Refusal :=
  if 0x100 ≤ off then .fault .offsetOutsideSpace
  else if off % 4 ≠ 0 then .refused .unalignedRegister
  else if s.status.busy ∧ off ≠ RegName.status.offset then .next (drawWord off s)
  else .next (observeReg off (readRegAt s off) s)

/-- A host write of a register (R11, R85): CMD issues a command, every other write is ignored while BUSY
(R218, R13, R192) and otherwise has the register's effect, whether or not ERR stands (R11, R193). -/
def hostRegWrite (off : Nat) (w : Word) (s : State) : Host.Outcome State Fault Refusal :=
  if 0x100 ≤ off then .fault .offsetOutsideSpace
  else if off % 4 ≠ 0 then .refused .unalignedRegister
  else if off = RegName.cmd.offset then issueWord w s
  else if s.status.busy then .next s
  else match regAt off with
    | some r => .next (writeReg s r w)
    | none => .next s

/-- The byte a buffer space specifies at an offset, if it specifies one: SRC always holds a byte (log 2), DST
and PAL only where a command has left one (R217). -/
def bufferByte (s : State) (sp : BufferSpace) (off : Nat) : Option Byte :=
  match sp with
  | .src => some (srcByte s off)
  | .dst => s.dst.read off
  | .pal => s.pal.read off

/-- A host read of one byte of a buffer space (R35, R217, R218). -/
def hostByteRead (sp : BufferSpace) (off : Nat) (s : State) : Host.Outcome State Fault Refusal :=
  if sp.size s.cfg ≤ off then .fault .offsetOutsideSpace
  else if s.status.busy then .next (drawByte sp off s)
  else match bufferByte s sp off with
    | some b => .next (observeByte sp off b s)
    | none => .next (drawByte sp off s)

/-- The effect of a host write of one byte of SRC: it is stored, and the LUT is invalidated (R34, R61). -/
def storeSrcByte (off : Nat) (b : Byte) (s : State) : State :=
  invalidateLut { s with src := Memory.write s.src off [b] }

/-- A host write of one byte of a buffer space: SRC takes it, DST and PAL ignore it (R35). -/
def hostByteWrite (sp : BufferSpace) (off : Nat) (b : Byte) (s : State) : Host.Outcome State Fault Refusal :=
  if sp.size s.cfg ≤ off then .fault .offsetOutsideSpace
  else match sp with
    | .src => if s.status.busy then .refused .sourceWriteWhileBusy else .next (storeSrcByte off b s)
    | .dst => .next s
    | .pal => .next s

/-- Host reads of `n` consecutive bytes in ascending offset order (R89), stopping where one stops. -/
def hostByteReads (sp : BufferSpace) : Nat → Nat → State → Host.Outcome State Fault Refusal
  | _, 0, s => .next s
  | off, n + 1, s =>
    match hostByteRead sp off s with
    | .next t => hostByteReads sp (off + 1) n t
    | .fault r => .fault r
    | .refused r => .refused r

/-- Host writes of consecutive bytes in ascending offset order (R89), stopping where one stops. -/
def hostByteWrites (sp : BufferSpace) : Nat → List Byte → State → Host.Outcome State Fault Refusal
  | _, [], s => .next s
  | off, b :: bs, s =>
    match hostByteWrite sp off b s with
    | .next t => hostByteWrites sp (off + 1) bs t
    | .fault r => .fault r
    | .refused r => .refused r

/-- The byte of an observation, if it is one of a byte read. -/
def Observation.byte? : Observation → Option Byte
  | .reg _ _ => none
  | .byte _ _ b => some b
  | .number _ _ _ _ => none

/-- The bytes of the last `n` observations, the earliest first. -/
def lastBytes (n : Nat) (observed : List Observation) : List Byte :=
  ((observed.take n).filterMap Observation.byte?).reverse

/-- The number the last `n` byte reads make, the byte at the lowest offset least significant (R52), kept for the
host. -/
def observeNumber (sp : BufferSpace) (off n : Nat) (s : State) : State :=
  { s with observed := .number sp off n (ofLeBytes (lastBytes n s.observed)) :: s.observed }

/-- A host read of `n` bytes in one access: "the same as its bytes in ascending offset order, little-endian"
(R89, R52). -/
def hostWideRead (sp : BufferSpace) (off n : Nat) (s : State) : Host.Outcome State Fault Refusal :=
  match hostByteReads sp off n s with
  | .next t => .next (observeNumber sp off n t)
  | .fault r => .fault r
  | .refused r => .refused r

/-- A host write of the number `v` as `n` bytes in one access (R89, R52). -/
def hostWideWrite (sp : BufferSpace) (off n v : Nat) (s : State) : Host.Outcome State Fault Refusal :=
  hostByteWrites sp off (leBytes n v) s

/-- One host access (R89). -/
def hostAccess (a : Access) (s : State) : Host.Outcome State Fault Refusal :=
  match a with
  | .regRead off => hostRegRead off s
  | .regWrite off w => hostRegWrite off w s
  | .byteRead sp off => hostByteRead sp off s
  | .byteWrite sp off b => hostByteWrite sp off b s
  | .wideRead sp off n => hostWideRead sp off n s
  | .wideWrite sp off n v => hostWideWrite sp off n v s

/-- The value the host last read from a register, if it has read it (R92). -/
def lastRead (off : Nat) : List Observation → Option Word
  | [] => none
  | .reg o w :: rest => if o = off then some w else lastRead off rest
  | .byte _ _ _ :: rest => lastRead off rest
  | .number _ _ _ _ :: rest => lastRead off rest

/-- The bit field `w[hi:lo]` as a number (00_scope.md section 5). -/
def fieldOf (hi lo : Nat) (w : Word) : Nat := (w.toNat >>> lo) % 2 ^ (hi - lo + 1)

/-- One statement of the host's script (R92), `pos` already being that of the statement after it. -/
def perform (st : Stmt) (s : State) : Host.Outcome State Fault Refusal :=
  match st with
  | .access a => hostAccess a s
  | .branch reg hi lo v target =>
    match lastRead reg.offset s.observed with
    | none => .refused .branchOnUnreadRegister
    | some w => if fieldOf hi lo w = v then .next { s with pos := target } else .next s
  | .sizedRead sp off size =>
    match lastRead size.offset s.observed with
    | none => .refused .sizeOfUnreadRegister
    | some w => hostByteReads sp off w.toNat s
  | .hardwareReset => .next (resetEngine s)

/-- The statement the host performs next, if its script has one. -/
def currentStmt (s : State) : Option Stmt := s.script[s.pos]?

/-- The script position moves past the statement about to be performed. -/
def advance (s : State) : State := { s with pos := s.pos + 1 }

/-- A statement placed where the host performs its next one: in the place of the current statement, or at the
end of a script that has run out. -/
def placeStmt (st : Stmt) (s : State) : State :=
  { s with
    script := s.script.take s.pos ++ st :: s.script.drop (s.pos + 1)
    pos := (s.script.take s.pos).length }

/-- The CMD write of a word (R80). -/
def cmdWrite (w : Word) : Stmt := .access (.regWrite RegName.cmd.offset w)

/-- One step: the host's next statement, or, when the script has run out, nothing: "the engine waits for the
next CMD write" (R40, R223; log 6). -/
def stepOnce (s : State) : Host.Outcome State Fault Refusal :=
  match currentStmt s with
  | some st => perform st (advance s)
  | none => .next s

end Sys2Proof.Machine
end

