-- ==== Sys2Proof/Machine/Step.lean ====
section
/-! DEFINITION. One step of the model, and where it fetches its next command. -/

namespace Sys2Proof.Machine

/-- One step: the host performs the next statement of its script; a CMD write runs a whole command (R7). -/
def step (s : State) : Host.Outcome State Fault Refusal := stepOnce s

/-- The command word `w` of `nbits` bits placed where `step` takes its next statement, as a CMD write (log 5). -/
def State.withFetchWord (s : State) (nbits w : Nat) : State :=
  placeStmt (cmdWrite (BitVec.ofNat 32 (w % 2 ^ nbits))) s

end Sys2Proof.Machine
end

