-- ==== Sys2Proof/Machine/HostScript.lean ====
section
/-! DEFINITION. The host-script notation (R92) and its pseudo-statements (R93), as lists of statements. Labels
are positions in the script, so a pseudo-statement that branches is given the position it stands at. -/

namespace Sys2Proof.Machine

/-- `WR <reg>, <value>`. -/
def scriptWr (r : RegName) (v : Word) : Stmt := .access (.regWrite r.offset v)

/-- `RD <reg>`. -/
def scriptRd (r : RegName) : Stmt := .access (.regRead r.offset)

/-- `CMD <mnemonic>`. -/
def scriptCmd (i : Instr) : Stmt := cmdWrite (encode i)

/-- `CMDW <word>`. -/
def scriptCmdw (w : Word) : Stmt := cmdWrite w

/-- The writes of consecutive bytes from an offset, in ascending order (R89). -/
def byteWrites (sp : BufferSpace) : Nat → List Byte → List Stmt
  | _, [] => []
  | off, b :: bs => .access (.byteWrite sp off b) :: byteWrites sp (off + 1) bs

/-- `SRCWR <off>, <b0> <b1> ...`. -/
def scriptSrcwr (off : Nat) (bs : List Byte) : List Stmt := byteWrites .src off bs

/-- The reads of `n` consecutive bytes: `SRCRD`, `DSTRD`, `PALRD`. -/
def scriptBytesRd (sp : BufferSpace) (off n : Nat) : List Stmt :=
  (List.range n).map (fun i => .access (.byteRead sp (off + i)))

/-- `WAIT`, standing at position `pos`: read STATUS and branch back while BUSY (bit 0). -/
def scriptWait (pos : Nat) : List Stmt := [scriptRd .status, .branch .status 0 0 1 pos]

/-- `RESET`. -/
def scriptReset : Stmt := scriptWr .ctrl 0x00000001#32

/-- `CLRERR`. -/
def scriptClrerr : Stmt := scriptWr .status 0x00000004#32

/-- `SETSRC <w>, <h>, <bpp>`. -/
def scriptSetsrc (w h bpp : Word) : List Stmt := [scriptWr .srcWidth w, scriptWr .srcHeight h, scriptWr .srcBpp bpp]

/-- `LOADPIX <row>, <col>, <R>, <G>, <B>` for an image of width `w`: the bytes in the order B, G, R. -/
def scriptLoadpix (a : Align) (w row col : Nat) (c : Color) : List Stmt :=
  scriptSrcwr (pixelOffset a w row col) [c.b, c.g, c.r]

/-- `RUN <mnemonic>`, standing at position `pos`. -/
def scriptRun (i : Instr) (pos : Nat) : List Stmt := scriptCmd i :: scriptWait (pos + 1)

/-- `CONVERT`. -/
def scriptConvert (pos : Nat) : List Stmt := scriptRun .compress pos

/-- `PALRD 0, PAL_SIZE` and its like (R174): the read of as many bytes as the script last read from `size`. -/
def scriptSizedRd (sp : BufferSpace) (off : Nat) (size : RegName) : Stmt := .sizedRead sp off size

/-- A state with a script loaded, the host about to perform its first statement. -/
def loadScript (script : List Stmt) (s : State) : State := { s with script := script, pos := 0 }

/-- `n` steps, up to the first that stops. -/
def runSteps : Nat → State → Host.Outcome State Fault Refusal
  | 0, s => .next s
  | n + 1, s =>
    match stepOnce s with
    | .next t => runSteps n t
    | .fault r => .fault r
    | .refused r => .refused r

/-- A script run to its end: one step for each statement is enough, because commands are atomic (R7) and no `WAIT` of
an idle engine branches back (R93). -/
def runScript (script : List Stmt) (s : State) : Host.Outcome State Fault Refusal :=
  runSteps script.length (loadScript script s)

end Sys2Proof.Machine
end

