-- ==== Sys2Proof/Machine/Picture.lean ====
section
/-! DEFINITION. The data model: the Image record and its invariants (R30), the source and output Images the
state holds (R31, R32), and the document's `compress` as a pure function of a picture (R144, R145, R129). -/

namespace Sys2Proof.Machine

/-- The Image record (R30). -/
structure Image where
  width : Nat
  height : Nat
  bitsPerPixel : Nat
  pixelBuffer : List Byte
  colorTable : List Byte
  deriving DecidableEq, Repr

/-- The color table length an Image of a depth has (R30 a, R163). -/
def colorTableSize (b : Nat) : Nat := if b = 24 then 0 else 3 * 2 ^ b

/-- The invariants of an Image that bear on its sizes (R30 a, b and the depth's range). -/
def Image.wellFormed (a : Align) (img : Image) : Bool :=
  decide (img.bitsPerPixel ∈ [1, 4, 8, 24]) &&
    decide (img.colorTable.length = colorTableSize img.bitsPerPixel) &&
    decide (img.pixelBuffer.length = img.height * slw a img.width img.bitsPerPixel)

/-- The source Image (R31): the view of SRC through the source registers. -/
def sourceImage (s : State) : Image where
  width := s.srcWidth.toNat
  height := s.srcHeight.toNat
  bitsPerPixel := s.srcBpp.toNat
  pixelBuffer := (List.range (outputSize s s.srcBpp.toNat)).map (srcByte s)
  colorTable := []

/-- The first `n` bytes of a buffer space, if all of them are specified. -/
def Memory.firstBytes (m : Memory) (n : Nat) : Option (List Byte) := (List.range n).mapM (Memory.read m)

/-- The output Image (R32), defined when DST_VALID = 1. -/
def outputImage (s : State) : Option Image :=
  if s.status.dstValid then
    match Memory.firstBytes s.dst s.dstSize.toNat, Memory.firstBytes s.pal s.palSize.toNat with
    | some buf, some table =>
      some ⟨s.dstWidth.toNat, s.dstHeight.toNat, s.dstBpp.toNat, buf, table⟩
    | _, _ => none
  else none

/-- The distinct keys of a picture in ascending order (R101, R102). -/
def pictureColors (h w : Nat) (px : Nat → Nat → Color) : List Key :=
  sortedKeys ((pixelCoords h w).map (fun p => (px p.1 p.2).key))

/-- The contribution of pixel `col` of a row to its byte: its id shifted to its field, nothing beyond the last
pixel (R129). -/
def lane (w b : Nat) (ids : Nat → Nat) (col : Nat) : Nat :=
  if col < w then ids col * 2 ^ packBitOffset b col else 0

/-- Byte `k` of a packed scanline, lane by lane (R129): the `8 div b` pixels that lie in it. -/
def packedByte (w b : Nat) (ids : Nat → Nat) (k : Nat) : Byte :=
  BitVec.ofNat 8 (((List.range (8 / b)).map (fun j => lane w b ids (k * (8 / b) + j))).sum)

/-- A packed scanline with its padding (R57, R129). -/
def packedRow (a : Align) (w b : Nat) (ids : Nat → Nat) : List Byte :=
  (List.range (slw a w b)).map (packedByte w b ids)

/-- The id of a color in a color table (R102, R105); asked only for colors of the table's own picture. -/
def pictureId (table : List Key) (c : Color) : Nat := packedId table c.key

/-- The document's `compress` (R144, R145) on a picture given by its width, height and colors alone: R148 (e), the
output is a function of these and of ALIGN. -/
def compressPicture (a : Align) (w h : Nat) (px : Nat → Nat → Color) : Except ErrorKind Image :=
  match chooseBpp (pictureColors h w px).length with
  | none => .error .tooManyColors
  | some b => .ok
      { width := w
        height := h
        bitsPerPixel := b
        pixelBuffer := (List.range h).flatMap
          (fun row => packedRow a w b (fun col => pictureId (pictureColors h w px) (px row col)))
        colorTable := (paletteBytes (pictureColors h w px)).take (3 * 2 ^ b) }

/-- What `pixelAt` gives where the document says nothing (R121, N11). DESIGN CHOICE: a free Color that may differ with
the alignment, with any field of the Image and with the coordinates (log 20). -/
def Image.noPixel (a : Align) (img : Image) (row col : Nat) : Color :=
  unkey (Config.pixelNotInImage a img.width img.height img.bitsPerPixel img.pixelBuffer img.colorTable row col)

/-- `pixelAt(image, row, col)` on an Image (R120): blue, green, red at ascending offsets. DESIGN CHOICE: on an Image
that is not 24-bit, at coordinates outside it, or past its buffer, where the document says nothing (R121, N11), it is
the free Color `noPixel` (log 20). -/
def Image.pixelAt (a : Align) (img : Image) (row col : Nat) : Color :=
  if img.bitsPerPixel = 24 ∧ row < img.height ∧ col < img.width then
    let o := pixelOffset a img.width row col
    match img.pixelBuffer[o]?, img.pixelBuffer[o + 1]?, img.pixelBuffer[o + 2]? with
    | some b, some g, some r => ⟨r, g, b⟩
    | _, _, _ => img.noPixel a row col
  else img.noPixel a row col

/-- The document's `compress(image)` (R144): "If `image.bits_per_pixel != 24`, fail `AlreadyIndexed`" first (R148 d). -/
def Image.compress (a : Align) (img : Image) : Except ErrorKind Image :=
  if img.bitsPerPixel ≠ 24 then .error .alreadyIndexed
  else compressPicture a img.width img.height (img.pixelAt a)

end Sys2Proof.Machine
end

