-- ==== Sys2Proof/Machine/Codec.lean ====
section
/-! DEFINITION. The host's container codec (45_host_container_codec.md), as pure functions on the bytes of a
file. It is host software, not the PIPU (R3): no step of the machine runs it. It is here so that the rules
about the whole flow (R169, R174, R176) have a meaning. Opening, reading and writing files, and the IoError
of the OS boundary (R168, R171), are not modelled. -/

namespace Sys2Proof.Machine

/-- Reading exactly `n` bytes of a file from an offset; none is a short read, fewer bytes than asked for (R162).
DEDUCED: reading no bytes is never short, wherever the offset lies (no check of the offset, N21; log 21). -/
def readAt (file : List Byte) (off n : Nat) : Option (List Byte) :=
  if n = 0 ∨ off + n ≤ file.length then some ((file.drop off).take n) else none

/-- The info-header schemas (R157). -/
inductive HeaderSchema where
  | core
  | info
  | infoV4
  | infoV5
  deriving DecidableEq, Repr

/-- The schema a `header_size` selects (R157). -/
def schemaOfSize (n : Nat) : Option HeaderSchema :=
  if n = 12 then some .core else if n = 40 then some .info
  else if n = 108 then some .infoV4 else if n = 124 then some .infoV5 else none

/-- The size of each schema's header (R157). -/
def HeaderSchema.size : HeaderSchema → Nat
  | .core => 12
  | .info => 40
  | .infoV4 => 108
  | .infoV5 => 124

/-- The common intermediate record of R157. -/
structure InfoHeader where
  width : Int
  height : Int
  bitCount : Nat
  compression : Option Nat
  deriving DecidableEq, Repr

/-- A little-endian i32 field (R157; two's complement, G5). -/
def i32Field (bs : List Byte) : Int := (BitVec.ofNat 32 (ofLeBytes bs)).toInt

/-- The bytes `[off, off+n)` of a header. -/
def fieldBytes (hdr : List Byte) (off n : Nat) : List Byte := (hdr.drop off).take n

/-- Parsing an info header of a schema, field positions as R158 gives them (log 16). -/
def parseInfo (sch : HeaderSchema) (hdr : List Byte) : InfoHeader :=
  match sch with
  | .core =>
    { width := ofLeBytes (fieldBytes hdr 4 2)
      height := ofLeBytes (fieldBytes hdr 6 2)
      bitCount := ofLeBytes (fieldBytes hdr 10 2)
      compression := none }
  | .info | .infoV4 | .infoV5 =>
    { width := i32Field (fieldBytes hdr 4 4)
      height := i32Field (fieldBytes hdr 8 4)
      bitCount := ofLeBytes (fieldBytes hdr 14 2)
      compression := some (ofLeBytes (fieldBytes hdr 16 4)) }

/-- The error of a file that ends inside its headers, which the sources leave open (N15; log 16). -/
def shortHeaderError (file : List Byte) : ErrorKind :=
  if Config.shortHeaderIsIoError file then .ioError else .truncatedFile

/-- Steps 4, 5 and 6 of decode (R162): compression, dimensions, depth. -/
def infoError (h : InfoHeader) : Option ErrorKind :=
  if h.compression.getD 0 ≠ 0 then some .unsupportedCompression
  else if h.width < 0 ∨ 65535 < h.width ∨ h.height < 0 ∨ 65535 < h.height then some .dimensionOutOfRange
  else if h.bitCount ∉ [1, 4, 8, 24] then some .unsupportedBitDepth
  else none

/-- Steps 7, 8 and 9 of decode (R162): the color table from just after the info header, the pixel data from
`pixel_data_offset`. -/
def readImage (a : Align) (file : List Byte) (tableOff dataOff : Nat) (h : InfoHeader) : Except ErrorKind Image :=
  match readAt file tableOff (colorTableSize h.bitCount) with
  | none => .error .truncatedFile
  | some table =>
    match readAt file dataOff (h.height.toNat * slw a h.width.toNat h.bitCount) with
    | none => .error .truncatedFile
    | some buf => .ok ⟨h.width.toNat, h.height.toNat, h.bitCount, buf, table⟩

/-- Step 3 of decode and what follows it (R162): the info header at file offset 14. -/
def decodeInfo (a : Align) (file : List Byte) (dataOff : Nat) : Except ErrorKind Image :=
  match readAt file 14 4 with
  | none => .error (shortHeaderError file)
  | some sizeBytes =>
    match schemaOfSize (ofLeBytes sizeBytes) with
    | none => .error .unsupportedHeaderSize
    | some sch =>
      match readAt file 14 sch.size with
      | none => .error (shortHeaderError file)
      | some hdr =>
        match infoError (parseInfo sch hdr) with
        | some kind => .error kind
        | none => readImage a file (14 + sch.size) dataOff (parseInfo sch hdr)

/-- `decode(bytes)` (R162), its steps in the document's order. -/
def decodeFile (a : Align) (file : List Byte) : Except ErrorKind Image :=
  match readAt file 0 2 with
  | none => .error (shortHeaderError file)
  | some sig =>
    if sig ≠ [0x42#8, 0x4D#8] then .error .invalidSignature
    else match readAt file 0 14 with
      | none => .error (shortHeaderError file)
      | some hdr => decodeInfo a file (ofLeBytes (fieldBytes hdr 10 4))

/-- The size in bytes of the file an Image is encoded to (R166 step 2). -/
def fileSize (a : Align) (img : Image) : Nat :=
  14 + 12 + colorTableSize img.bitsPerPixel + img.height * slw a img.width img.bitsPerPixel

/-- The file header and the core info header of an encoded Image (R156, R166 step 3). -/
def fileHeaders (a : Align) (img : Image) : List Byte :=
  [0x42#8, 0x4D#8] ++ leBytes 4 (fileSize a img) ++ leBytes 4 0 ++
    leBytes 4 (14 + 12 + colorTableSize img.bitsPerPixel) ++
    leBytes 4 12 ++ leBytes 2 img.width ++ leBytes 2 img.height ++ leBytes 2 1 ++ leBytes 2 img.bitsPerPixel

/-- `encode(Image)` (R166): always the core schema. Its round trip through `decodeFile` is R176 and R148 (f). -/
def encodeFile (a : Align) (img : Image) : Except ErrorKind (List Byte) :=
  if 65535 < img.width ∨ 65535 < img.height then .error .dimensionOutOfRange
  else if 2 ^ 32 - 1 < fileSize a img then .error .fileSizeOverflow
  else .ok (fileHeaders a img ++ img.colorTable ++ img.pixelBuffer)

/-- The caller contract (R169): decode, compress, encode; the first error escapes and there is no output. -/
def convertFile (a : Align) (file : List Byte) : Except ErrorKind (List Byte) :=
  match decodeFile a file with
  | .error kind => .error kind
  | .ok img =>
    match img.compress a with
    | .error kind => .error kind
    | .ok out => encodeFile a out

/-! ### The hand-over to the engine (R174), as a script and what the host makes of its reads -/

/-- The bytes of a decoded Image the host loads into SRC: all of its pixel buffer, or, if it skips loading an
Image whose depth is not 24, which R174 allows it, none. -/
def bytesToLoad (skipIndexed : Bool) (img : Image) : List Byte :=
  if skipIndexed ∧ img.bitsPerPixel ≠ 24 then [] else img.pixelBuffer

/-- The other of the two alignments (R4). -/
def otherAlign : Align → Align
  | .one => .four
  | .four => .one

/-- The host's check that it was built for the engine's ALIGN: "it reads `CAP.ALIGN` to check" (R174, R12). DESIGN
CHOICE: a host built for the other alignment leaves the conversion, going on at `away` (log 23). -/
def checkAlign (a : Align) (away : Nat) : List Stmt :=
  [scriptRd .cap, .branch .cap 2 0 (otherAlign a).bytes away]

/-- The hand-over of a decoded Image to the engine, down to the branch on STATUS.ERR, standing at position `start`
of the script (R174); `failed` is the position of its `failed:` label. -/
def handOver (start : Nat) (skipIndexed : Bool) (img : Image) (failed : Nat) : List Stmt :=
  scriptSetsrc (BitVec.ofNat 32 img.width) (BitVec.ofNat 32 img.height) (BitVec.ofNat 32 img.bitsPerPixel) ++
    scriptSrcwr 0 (bytesToLoad skipIndexed img) ++
    scriptRun .compress (start + 3 + (bytesToLoad skipIndexed img).length) ++
    [scriptRd .status, .branch .status 2 2 1 failed]

/-- The success path of the hand-over (R174): the descriptors and the sizes, then as many bytes of PAL and of DST as
PAL_SIZE and DST_SIZE read. -/
def collect : List Stmt :=
  [scriptRd .dstWidth, scriptRd .dstHeight, scriptRd .dstBpp, scriptRd .dstSize, scriptRd .palSize,
    scriptSizedRd .pal 0 .palSize, scriptSizedRd .dst 0 .dstSize]

/-- The statement at the label `failed:` of R174: read ERROR, whose CODE names the kind. -/
def failedBlock : List Stmt := [scriptRd .error]

/-- How many statements stand before the label `failed:` of a conversion. -/
def conversionLength (skipIndexed : Bool) (img : Image) : Nat := 18 + (bytesToLoad skipIndexed img).length

/-- The whole listing of R174 for a host built for `a`, standing at position `start`: the check of ALIGN, hand over,
collect, and the block at `failed:`, which runs only when the branch on STATUS.ERR is taken. DESIGN CHOICE: "the
success path ends here" is a branch past the block on the same STATUS word, whose ERR is 0 on that path (log 23). -/
def conversion (a : Align) (start : Nat) (skipIndexed : Bool) (img : Image) : List Stmt :=
  checkAlign a (start + conversionLength skipIndexed img + 1) ++
    handOver (start + 2) skipIndexed img (start + conversionLength skipIndexed img) ++ collect ++
    [.branch .status 2 2 0 (start + conversionLength skipIndexed img + 1)] ++ failedBlock

/-- A conversion after one that failed: "CLRERR before the next conversion" (R174). -/
def conversionAfterFailure (a : Align) (start : Nat) (skipIndexed : Bool) (img : Image) : List Stmt :=
  scriptClrerr :: conversion a (start + 1) skipIndexed img

/-- The byte of an observation, if it is one of a byte of this space. -/
def Observation.byteOf? (sp : BufferSpace) : Observation → Option Byte
  | .reg _ _ => none
  | .byte sp' _ b => if sp' = sp then some b else none
  | .number _ _ _ _ => none

/-- The last `n` bytes the host has read from a space, the earliest first. -/
def lastBytesOf (sp : BufferSpace) (n : Nat) (observed : List Observation) : List Byte :=
  ((observed.filterMap (Observation.byteOf? sp)).take n).reverse

/-- `out = { DST_WIDTH, DST_HEIGHT, DST_BPP, pixel_buffer, color_table }` (R174), made of what the host has read. -/
def collectedImage (observed : List Observation) : Option Image :=
  match lastRead RegName.dstWidth.offset observed, lastRead RegName.dstHeight.offset observed,
    lastRead RegName.dstBpp.offset observed, lastRead RegName.dstSize.offset observed,
    lastRead RegName.palSize.offset observed with
  | some w, some h, some b, some n, some p =>
    some ⟨w.toNat, h.toNat, b.toNat, lastBytesOf .dst n.toNat observed, lastBytesOf .pal p.toNat observed⟩
  | _, _, _, _, _ => none

/-- The error kinds, in the order of their codes (R181). -/
def ErrorKind.all : List ErrorKind :=
  [.invalidSignature, .unsupportedHeaderSize, .unsupportedCompression, .dimensionOutOfRange, .unsupportedBitDepth,
    .truncatedFile, .fileSizeOverflow, .alreadyIndexed, .tooManyColors, .ioError, .illegalCommand, .sequenceError,
    .operandRange, .capacityExceeded]

/-- The kind a code names: "ERROR.CODE names the kind; report it" (R174, R181). -/
def kindOfCode (code : Byte) : Option ErrorKind := ErrorKind.all.find? (fun kind => kind.code == code)

/-- What a host built for `a` has at the end of a conversion's script (R174): nothing, if the engine has the other
ALIGN; the kind ERROR.CODE names, if STATUS.ERR read 1; else the file `encode(out)` gives. -/
def conversionResult (a : Align) (observed : List Observation) : Option (Except ErrorKind (List Byte)) :=
  match lastRead RegName.cap.offset observed, lastRead RegName.status.offset observed with
  | some cap, some status =>
    if fieldOf 2 0 cap ≠ a.bytes then none
    else if fieldOf 2 2 status = 1 then
      match lastRead RegName.error.offset observed with
      | some err => (kindOfCode (err.extractLsb' 0 8)).map .error
      | none => none
    else (collectedImage observed).map (encodeFile a)
  | _, _ => none

/-- The caller contract through the PIPU (R169, R174): decode the file, run the conversion on the engine in state `s`,
report its error or encode its output. -/
def convertOnEngine (a : Align) (skipIndexed : Bool) (file : List Byte) (s : State) :
    Option (Except ErrorKind (List Byte)) :=
  match decodeFile a file with
  | .error kind => some (.error kind)
  | .ok img =>
    match runScript (conversion a 0 skipIndexed img) s with
    | .next t => conversionResult a t.observed
    | .fault _ => none
    | .refused _ => none

end Sys2Proof.Machine
end

