-- ==== Sys2Proof/Safety.lean ====
section
/-! DEFINITION. What claims speak of: the invariants of every reachable state (R33), when a command is accepted
and its checks pass (R185, R193), and the verdict of a run (R223). -/

namespace Sys2Proof.Machine

/-- The LUT is strictly ascending and NCOLORS counts it (R33 i). -/
def State.lutOk (s : State) : Prop :=
  s.lut.Pairwise (· < ·) ∧ s.ncolors.toNat = s.lut.length ∧ s.lut.length ≤ 256

/-- Without a valid LUT there is nothing in it (R33 ii). -/
def State.lutInvalidOk (s : State) : Prop :=
  s.status.lutValid = false → s.lut = [] ∧ s.ncolors = 0 ∧ s.index = ⟨false, 0⟩

/-- A valid LUT is that of the source image as SRC now holds it (R33 iii), and PAL holds its bytes (R33 iv). -/
def State.lutValidOk (s : State) : Prop :=
  s.status.lutValid = true →
    s.srcWidth.toNat ≤ 65535 ∧ s.srcHeight.toNat ≤ 65535 ∧ s.srcBpp.toNat = 24 ∧
      s.lut = sourceColors s ∧ s.pal = Memory.cellsFrom 0 (paletteBytes s.lut)

/-- The descriptors of a valid output are those of an Image (R26, R27, R32, R33 v). -/
def State.dstValidOk (s : State) : Prop :=
  s.status.dstValid = true →
    s.dstWidth.toNat ≤ 65535 ∧ s.dstHeight.toNat ≤ 65535 ∧ s.dstBpp.toNat ∈ [1, 4, 8] ∧
      s.dstSize.toNat = s.dstHeight.toNat * slw s.cfg.align s.dstWidth.toNat s.dstBpp.toNat ∧
      s.palSize.toNat = 3 * 2 ^ s.dstBpp.toNat ∧
      s.dst.map Prod.fst = List.range s.dstSize.toNat ∧
      s.pal.map Prod.fst = List.range 768

/-- Without a valid output the five descriptors are 0 (R33 vi) and no byte of DST is specified (U2). -/
def State.dstInvalidOk (s : State) : Prop :=
  s.status.dstValid = false →
    s.dstWidth = 0 ∧ s.dstHeight = 0 ∧ s.dstBpp = 0 ∧ s.dstSize = 0 ∧ s.palSize = 0 ∧ s.dst = []

/-- DONE and ERR are not both 1, ERR is 1 iff an error is recorded (R33 vii, viii), ERROR is 0 when none is
(R15), and between two commands the engine is not BUSY (R7). -/
def State.flagsOk (s : State) : Prop :=
  ¬(s.status.done = true ∧ s.status.err = true) ∧ (s.status.err = true ↔ s.error.code ≠ 0) ∧
    (s.status.err = false → s.error = ⟨0, 0⟩) ∧ s.status.busy = false

/-- The three buffer spaces are in canonical form and list no offset outside their sizes (R50). -/
def State.memoryOk (s : State) : Prop :=
  (Memory.wf s.src ∧ ∀ c ∈ s.src, c.1 < BufferSpace.src.size s.cfg) ∧
    (Memory.wf s.dst ∧ ∀ c ∈ s.dst, c.1 < BufferSpace.dst.size s.cfg) ∧
    (Memory.wf s.pal ∧ ∀ c ∈ s.pal, c.1 < BufferSpace.pal.size s.cfg)

/-- The invariants of R33. That every packed index is below `2^DST_BPP` (R33 v) holds of any buffer, an
index being `DST_BPP` bits (R131). -/
structure State.Inv (s : State) : Prop where
  lut : s.lutOk
  lutInvalid : s.lutInvalidOk
  lutValid : s.lutValidOk
  dstValid : s.dstValidOk
  dstInvalid : s.dstInvalidOk
  flags : s.flagsOk
  memory : s.memoryOk

/-- A CMD write is accepted: neither BUSY nor ERR is set (R193). -/
def State.accepts (s : State) : Prop := s.status.busy = false ∧ s.status.err = false

/-- The source pre-check passes (R185). -/
def State.sourceOk (s : State) : Prop :=
  s.srcWidth.toNat ≤ 65535 ∧ s.srcHeight.toNat ≤ 65535 ∧ s.srcBpp.toNat = 24 ∧
    sourceSize s ≤ s.cfg.srcCap

/-- The state a command that raised an error with this code leaves, if it changed nothing before (R190, R191);
written from R190 itself, for statements. -/
def State.recordError (s : State) (op code : Byte) : State :=
  { s with
    status := { s.status with busy := false, done := false, err := true }
    error := ⟨op, code⟩ }

/-- The flags a successful command leaves: BUSY 0, DONE 1 (R8, R193); for statements. -/
def State.recordSuccess (s : State) : State := { s with status := { s.status with busy := false, done := true } }

/-- What a build that passed its pre-checks leaves when it found too many colors (R106, R191), before the error
is recorded; for statements. -/
def State.destroyedByBuild (s : State) : State :=
  { s with
    status := { s.status with lutValid := false, dstValid := false }
    lut := []
    ncolors := 0
    index := ⟨false, 0⟩
    dstWidth := 0
    dstHeight := 0
    dstBpp := 0
    dstSize := 0
    palSize := 0
    dst := []
    pal := [] }

/-- What a successful build leaves, before DONE is set (R106); for statements. -/
def State.builtWith (s : State) (table : List Key) : State :=
  { s.destroyedByBuild with
    status := { s.status with lutValid := true, dstValid := false }
    lut := table
    ncolors := BitVec.ofNat 9 table.length
    pal := Memory.write s.pal 0 (paletteBytes table) }

/-- What choosing the depth `b` leaves, before DONE is set (R142); for statements. -/
def State.withDepth (s : State) (b : Nat) : State := { s with bpp := BitVec.ofNat 32 b }

/-- What packing at depth `b` leaves, before DONE is set (R126); for statements. -/
def State.packedAt (s : State) (b : Nat) : State :=
  { s with
    status := { s.status with dstValid := true }
    dst := Memory.cellsFrom 0 (packedBuffer s b)
    dstWidth := s.srcWidth
    dstHeight := s.srcHeight
    dstBpp := BitVec.ofNat 32 b
    dstSize := BitVec.ofNat 32 (outputSize s b)
    palSize := BitVec.ofNat 32 (3 * 2 ^ b) }

/-- A host that issues one command after another and stops at the first error (R147). -/
def thenUnlessError (o : Host.Outcome State Fault Refusal) (f : State → Host.Outcome State Fault Refusal) :
    Host.Outcome State Fault Refusal :=
  match o with
  | .next t => if t.status.err then .next t else f t
  | .fault r => .fault r
  | .refused r => .refused r

/-- BUILD, then SELDEPTH, then PACK, stopped at the first error (R147). -/
def stagedCompress (s : State) : Host.Outcome State Fault Refusal :=
  thenUnlessError (thenUnlessError (exec .build s) (exec .seldepth)) (exec .pack)

/-- What a run has come to (R223). -/
inductive Verdict where
  | success
  | failure (code : Byte)
  | incomplete
  deriving DecidableEq, Repr

/-- The outcome of a conversion at the end of a run (R223). -/
def State.verdict (s : State) : Verdict :=
  if s.status.err then .failure s.error.code
  else if s.status.dstValid then .success else .incomplete

/-- The run is over: the script has no further statement and the engine is idle (R223). -/
def State.runEnded (s : State) : Bool := (currentStmt s).isNone && !s.status.busy

end Sys2Proof.Machine
end

