-- ==== Sys2Proof/Certificates/Slice0/Obligations.lean ====
section
/-! DEFINITION. The statements for the provers. Each docstring names the rules of spec/ it formalises. -/

open Sys2Proof Sys2Proof.Machine

/-! ## Encoding and fetch -/

/-- R81: each word of the opcode map decodes to its command and is its encoding. -/
def Obligations.TableWordsDecode : Prop :=
  (decodeWord 0x00000001#32 = .ok .build ∧ encode .build = 0x00000001#32) ∧
  (decodeWord 0x00000002#32 = .ok .lookup ∧ encode .lookup = 0x00000002#32) ∧
  (decodeWord 0x00000003#32 = .ok .pixat ∧ encode .pixat = 0x00000003#32) ∧
  (decodeWord 0x00000004#32 = .ok .pack ∧ encode .pack = 0x00000004#32) ∧
  (decodeWord 0x00000005#32 = .ok .seldepth ∧ encode .seldepth = 0x00000005#32) ∧
  (decodeWord 0x00000006#32 = .ok .compress ∧ encode .compress = 0x00000006#32)

/-- R81: the words are those of the opcode map, and a word selects a command if and only if it equals the command's
word, all 32 bits compared. -/
def Obligations.WordSelectsCommandIffEqual : Prop :=
  [Instr.build, Instr.lookup, Instr.pixat, Instr.pack, Instr.seldepth, Instr.compress].map encode =
      [0x00000001#32, 0x00000002#32, 0x00000003#32, 0x00000004#32, 0x00000005#32, 0x00000006#32] ∧
    ∀ (w : Word) (i : Instr), decodeWord w = .ok i ↔ w = encode i

/-- R52, R80: a command laid out as four bytes, lowest first, decodes to itself and leaves the rest. -/
def Obligations.EncodedBytesDecodeBack : Prop :=
  ∀ (i : Instr) (rest : List Byte), decode (encodeBytes i ++ rest) = .ok (i, rest)

/-- R84: a word with OP 0x00, OP from 0x07 to 0xFF or a reserved bit set, and no other, is illegal; written to
CMD it is accepted and ends in IllegalCommand with its low byte, changing nothing else. -/
def Obligations.IllegalWordRaisesIllegalCommand : Prop :=
  ∀ w : Word,
    ((w.toNat % 256 = 0 ∨ 7 ≤ w.toNat % 256 ∨ w.toNat / 256 ≠ 0) ↔ decodeWord w = .error (.illegal w)) ∧
    (decodeWord w = .error (.illegal w) ∨ ∃ i, decodeWord w = .ok i) ∧
    ∀ s : State, s.accepts → decodeWord w = .error (.illegal w) →
      issueWord w s = .next (s.recordError (BitVec.ofNat 8 (w.toNat % 256)) 0x10#8)

/-- R16, R80: when the host's next statement writes a word to CMD, the step is the decoded command's `exec`, or
the illegal-command error, in the state whose script position has moved past the statement. -/
def Obligations.StepRunsTheWrittenCommand : Prop :=
  ∀ (s : State) (w : Word), currentStmt s = some (.access (.regWrite 0x10 w)) →
    (∀ i, decodeWord w = .ok i → step s = exec i { s with pos := s.pos + 1 }) ∧
    (∀ e, decodeWord w = .error e → step s = execIllegal w { s with pos := s.pos + 1 })

/-- The word placed by `withFetchWord` is the next one run (the model's script, log 5): the step is `exec` of the
command in the same state, its script holding that CMD write at the position and the position past it. -/
def Obligations.FetchedWordRunsNext : Prop :=
  ∀ (s : State) (i : Instr), ∃ script : List Stmt, ∃ pos : Nat,
    script[pos]? = some (.access (.regWrite 0x10 (encode i))) ∧
    step (s.withFetchWord 32 (encode i).toNat) = exec i { s with script := script, pos := pos + 1 }

/-! ## Acceptance and errors -/

/-- R193: a CMD write is ignored while BUSY or ERR is set, whatever the word; otherwise the command runs and
ends with BUSY = 0 and exactly one of DONE and ERR set (R8). -/
def Obligations.CommandAcceptance : Prop :=
  ∀ (s : State) (w : Word),
    (s.status.busy = true ∨ s.status.err = true → hostRegWrite 0x10 w s = .next s) ∧
    (s.accepts → ∃ t, hostRegWrite 0x10 w s = .next t ∧ t.status.busy = false ∧
      ((t.status.done = true ∧ t.status.err = false) ∨ (t.status.done = false ∧ t.status.err = true)))

/-- R185: BUILD, PIXAT, PACK and COMPRESS make the same four source checks in the same order, on the full register
values; the first that fails is recorded with the command's opcode, nothing else changed; a check that passes
changes nothing. -/
def Obligations.SourceChecksInOrder : Prop :=
  ∀ (s : State) (i : Instr), i = .build ∨ i = .pixat ∨ i = .pack ∨ i = .compress → s.accepts →
    (65535 < s.srcWidth.toNat ∨ 65535 < s.srcHeight.toNat →
      exec i s = .next (s.recordError i.opcode 0x04#8)) ∧
    (s.srcWidth.toNat ≤ 65535 → s.srcHeight.toNat ≤ 65535 →
      (s.srcBpp.toNat ≠ 1 ∧ s.srcBpp.toNat ≠ 4 ∧ s.srcBpp.toNat ≠ 8 ∧ s.srcBpp.toNat ≠ 24 →
        exec i s = .next (s.recordError i.opcode 0x05#8)) ∧
      (s.srcBpp.toNat = 1 ∨ s.srcBpp.toNat = 4 ∨ s.srcBpp.toNat = 8 →
        exec i s = .next (s.recordError i.opcode 0x08#8)) ∧
      (s.srcBpp.toNat = 24 → s.cfg.srcCap < s.srcHeight.toNat * slw s.cfg.align s.srcWidth.toNat 24 →
        exec i s = .next (s.recordError i.opcode 0x13#8)) ∧
      (s.srcBpp.toNat = 24 → s.srcHeight.toNat * slw s.cfg.align s.srcWidth.toNat 24 ≤ s.cfg.srcCap →
        checkSrc24 s = .ok s))

/-- R108, R126, R142: without a valid LUT, LOOKUP and SELDEPTH raise SequenceError, and so does PACK on a source
that passes the source check; nothing else changes (R191). -/
def Obligations.CommandsNeedValidTable : Prop :=
  ∀ s : State, s.accepts → s.status.lutValid = false →
    exec .lookup s = .next (s.recordError 0x02#8 0x11#8) ∧
    exec .seldepth s = .next (s.recordError 0x05#8 0x11#8) ∧
    (s.sourceOk → exec .pack s = .next (s.recordError 0x04#8 0x11#8))

/-- R190 "The error is sticky": a standing error and its record change only by an error clear or a reset. -/
def Obligations.ErrorIsSticky : Prop :=
  ∀ s t : State, step s = .next t → s.status.err = true →
    (t.status.err = true ∧ t.error = s.error) ∨
    (∃ w, currentStmt s = some (.access (.regWrite 0x08 w)) ∧ w.getLsbD 2 = true) ∨
    (∃ w, currentStmt s = some (.access (.regWrite 0x04 w)) ∧ w.getLsbD 0 = true) ∨
    currentStmt s = some .hardwareReset

/-! ## BUILD and LOOKUP -/

/-- R100: the lexicographic order of Colors is the numeric order of their keys, and a key gives back its Color. -/
def Obligations.ColorOrderIsKeyOrder : Prop :=
  ∀ x y : Color, (x.lt y = true ↔ x.key.toNat < y.key.toNat) ∧
    (x.lt y = true ↔ x.r.toNat < y.r.toNat ∨ x.r = y.r ∧ (x.g.toNat < y.g.toNat ∨ x.g = y.g ∧ x.b.toNat < y.b.toNat)) ∧
    x.key.toNat = x.r.toNat * 65536 + x.g.toNat * 256 + x.b.toNat ∧ unkey x.key = x

/-- R102: the table of the source image is strictly ascending and holds exactly the keys of its pixels, and the
rank of a key is its 0-based place in it. -/
def Obligations.TableRanksTheDistinctColors : Prop :=
  ∀ s : State, (sourceColors s).Pairwise (fun x y => x.toNat < y.toNat) ∧
    (∀ k : Key, k ∈ sourceColors s ↔
      ∃ row col, row < s.srcHeight.toNat ∧ col < s.srcWidth.toNat ∧ (pixelAt s row col).key = k) ∧
    (∀ (k : Key) (i : Nat), rank (sourceColors s) k = some i ↔ (sourceColors s)[i]? = some k)

/-- R106, its success: BUILD on an accepted state whose source check passes and whose image has at most 256
colors answers a next state with LUT, NCOLORS, PAL and LUT_VALID of the image, INDEX 0, no output image, DONE;
everything else is as before. -/
def Obligations.BuildInstallsTheTable : Prop :=
  ∀ s : State, s.accepts → s.sourceOk → (sourceColors s).length ≤ 256 →
    exec .build s = .next
      { s with
        status := ⟨false, true, false, true, false⟩
        lut := sourceColors s
        ncolors := BitVec.ofNat 9 (sourceColors s).length
        index := ⟨false, 0⟩
        pal := Memory.write s.pal 0 (paletteBytes (sourceColors s))
        dstWidth := 0
        dstHeight := 0
        dstBpp := 0
        dstSize := 0
        palSize := 0
        dst := [] }

/-- R106, R191: more than 256 colors end BUILD in TooManyColors, with no table, no output image and PAL and DST
unspecified. -/
def Obligations.BuildTooManyColors : Prop :=
  ∀ s : State, s.accepts → s.sourceOk → 256 < (sourceColors s).length →
    exec .build s = .next (s.destroyedByBuild.recordError 0x01#8 0x09#8)

/-- R104, R54: after a BUILD that succeeds, entry `i` of PAL is the color LUT[i] as the bytes blue, green, red
at `3i`, `3i+1`, `3i+2`, every byte from `3n` to 767 is 0x00, and LUT and NCOLORS agree. -/
def Obligations.PaletteAfterBuild : Prop :=
  ∀ s t : State, s.accepts → exec .build s = .next t → t.status.done = true →
    t.ncolors.toNat = t.lut.length ∧
    (∀ (i : Nat) (k : Key), t.lut[i]? = some k →
      t.pal.read (3 * i) = some (unkey k).b ∧ t.pal.read (3 * i + 1) = some (unkey k).g ∧
      t.pal.read (3 * i + 2) = some (unkey k).r) ∧
    (∀ off : Nat, 3 * t.lut.length ≤ off → off < 768 → t.pal.read off = some 0x00#8)

/-- R103: the table depends on the set of pixel colors alone: two images with the same colors, whatever their
size, order and repetitions, get the same LUT, count and palette. -/
def Obligations.BuildIgnoresOrderAndFrequency : Prop :=
  ∀ s s' t t' : State, s.accepts → s'.accepts → s.sourceOk → s'.sourceOk →
    (∀ k : Key,
      (∃ row col, row < s.srcHeight.toNat ∧ col < s.srcWidth.toNat ∧ (pixelAt s row col).key = k) ↔
      (∃ row col, row < s'.srcHeight.toNat ∧ col < s'.srcWidth.toNat ∧ (pixelAt s' row col).key = k)) →
    exec .build s = .next t → exec .build s' = .next t' →
    t.lut = t'.lut ∧ t.ncolors = t'.ncolors ∧ t.status = t'.status ∧
      ∀ off, off < 768 → t.pal.read off = t'.pal.read off

/-- R108: with a valid LUT, LOOKUP completes; INDEX is 0x100 plus the place of COLOR in the LUT, or 0 if it is
not there; nothing else changes but DONE. -/
def Obligations.LookupGivesTheRank : Prop :=
  ∀ s : State, s.accepts → s.status.lutValid = true → s.lutOk →
    ∃ x : IndexReg,
      exec .lookup s = .next { s.recordSuccess with index := x } ∧
      (∀ i : Nat, s.lut[i]? = some s.color → x.toWord.toNat = 0x100 + i) ∧
      (s.color ∉ s.lut → x.toWord = 0)

/-! ## PIXAT -/

/-- R122, R120: on a source that passes the check and coordinates inside the image, PIXAT completes: COLOR is
the key of the bytes at `row*slw(W,24) + col*3`, blue, green, red; nothing else changes but DONE. -/
def Obligations.PixatReadsThePixel : Prop :=
  ∀ s : State, s.accepts → s.sourceOk → s.row.toNat < s.srcHeight.toNat → s.col.toNat < s.srcWidth.toNat →
    ∃ k : Key, exec .pixat s = .next { s.recordSuccess with color := k } ∧
      ∀ b g r : Byte, ∀ o : Nat, o = s.row.toNat * slw s.cfg.align s.srcWidth.toNat 24 + s.col.toNat * 3 →
        srcByte s o = b → srcByte s (o + 1) = g → srcByte s (o + 2) = r →
        k.toNat = r.toNat * 65536 + g.toNat * 256 + b.toNat

/-- R122: coordinates outside the image raise OperandRange and change nothing else. -/
def Obligations.PixatOutsideTheImage : Prop :=
  ∀ s : State, s.accepts → s.sourceOk →
    s.srcHeight.toNat ≤ s.row.toNat ∨ s.srcWidth.toNat ≤ s.col.toNat →
    exec .pixat s = .next (s.recordError 0x03#8 0x12#8)

/-- R108 (e): with a valid LUT, PIXAT of any pixel followed by LOOKUP hits, and the id is the color's rank. -/
def Obligations.PixatThenLookupHits : Prop :=
  ∀ s : State, s.Inv → s.accepts → s.sourceOk → s.status.lutValid = true →
    s.row.toNat < s.srcHeight.toNat → s.col.toNat < s.srcWidth.toNat →
    ∃ t u : State, exec .pixat s = .next t ∧ exec .lookup t = .next u ∧ u.index.hit = true ∧
      s.lut[u.index.id.toNat]? = some (pixelAt s s.row.toNat s.col.toNat).key

/-! ## PACK -/

/-- R126, its success: on an accepted state that meets every check PACK completes: the descriptors are the
source's, DST_SIZE is `H*slw(W,b)`, PAL_SIZE is `3*2^b`, exactly the DST bytes below DST_SIZE are specified,
DST_VALID and DONE are set, and nothing else changes, PAL and LUT among it. -/
def Obligations.PackWritesTheImage : Prop :=
  ∀ s : State, s.accepts → s.sourceOk → s.status.lutValid = true →
    s.bpp.toNat = 1 ∨ s.bpp.toNat = 4 ∨ s.bpp.toNat = 8 → s.ncolors.toNat ≤ 2 ^ s.bpp.toNat →
    s.srcHeight.toNat * slw s.cfg.align s.srcWidth.toNat s.bpp.toNat ≤ s.cfg.dstCap →
    ∃ (buf : List Byte) (size psize : Word),
      exec .pack s = .next
        { s with
          status := ⟨false, true, false, true, true⟩
          dst := Memory.cellsFrom 0 buf
          dstWidth := s.srcWidth
          dstHeight := s.srcHeight
          dstBpp := s.bpp
          dstSize := size
          palSize := psize } ∧
      size.toNat = s.srcHeight.toNat * slw s.cfg.align s.srcWidth.toNat s.bpp.toNat ∧
      psize.toNat = 3 * 2 ^ s.bpp.toNat ∧ buf.length = size.toNat

/-- R126, R188: with a valid LUT, PACK checks BPP, then the color count, then the output capacity, and records
the first that fails, changing nothing else. -/
def Obligations.PackChecksInOrder : Prop :=
  ∀ s : State, s.accepts → s.sourceOk → s.status.lutValid = true →
    (s.bpp.toNat ≠ 1 ∧ s.bpp.toNat ≠ 4 ∧ s.bpp.toNat ≠ 8 →
      exec .pack s = .next (s.recordError 0x04#8 0x05#8)) ∧
    (s.bpp.toNat = 1 ∨ s.bpp.toNat = 4 ∨ s.bpp.toNat = 8 →
      (2 ^ s.bpp.toNat < s.ncolors.toNat → exec .pack s = .next (s.recordError 0x04#8 0x12#8)) ∧
      (s.ncolors.toNat ≤ 2 ^ s.bpp.toNat →
        s.cfg.dstCap < s.srcHeight.toNat * slw s.cfg.align s.srcWidth.toNat s.bpp.toNat →
        exec .pack s = .next (s.recordError 0x04#8 0x13#8)))

/-- R128, R131: after a successful PACK from a reachable state, DST has exactly DST_SIZE bytes; the field of
every pixel is the rank of its color, below NCOLORS and 2^bpp; every bit of no field is 0; and the palette entry
it indexes is the pixel's own color, blue, green, red: the output shows the same picture. -/
def Obligations.PackedImageShowsThePicture : Prop :=
  ∀ s t : State, s.Inv → s.accepts → exec .pack s = .next t → t.status.done = true →
    t.dstSize.toNat = s.srcHeight.toNat * slw s.cfg.align s.srcWidth.toNat s.bpp.toNat ∧
    t.dst.map Prod.fst = List.range t.dstSize.toNat ∧
    (∀ row col, row < s.srcHeight.toNat → col < s.srcWidth.toNat →
      ∃ (x : Byte) (id : Nat),
        t.dst.read (row * slw s.cfg.align s.srcWidth.toNat s.bpp.toNat + col * s.bpp.toNat / 8) = some x ∧
        (x.toNat >>> (8 - (col * s.bpp.toNat) % 8 - s.bpp.toNat)) &&& (2 ^ s.bpp.toNat - 1) = id ∧
        rank s.lut (pixelAt s row col).key = some id ∧ id < s.ncolors.toNat ∧
        s.ncolors.toNat ≤ 2 ^ s.bpp.toNat ∧
        t.pal.read (3 * id) = some (pixelAt s row col).b ∧
        t.pal.read (3 * id + 1) = some (pixelAt s row col).g ∧
        t.pal.read (3 * id + 2) = some (pixelAt s row col).r) ∧
    (∀ row k j, row < s.srcHeight.toNat → k < slw s.cfg.align s.srcWidth.toNat s.bpp.toNat → j < 8 →
      (∀ col, col < s.srcWidth.toNat → col * s.bpp.toNat / 8 = k →
        j < 8 - (col * s.bpp.toNat) % 8 - s.bpp.toNat ∨
          8 - (col * s.bpp.toNat) % 8 - s.bpp.toNat + s.bpp.toNat ≤ j) →
      ∃ x : Byte, t.dst.read (row * slw s.cfg.align s.srcWidth.toNat s.bpp.toNat + k) = some x ∧
        x.getLsbD j = false)

/-- R131: for every pixel, extracting `bpp` bits at the computed bit offset from the packed scanlines gives the
palette id of the pixel's color. -/
def Obligations.ExtractionGivesThePaletteId : Prop :=
  ∀ s t : State, s.Inv → s.accepts → exec .pack s = .next t → t.status.done = true →
    ∀ row col, row < s.srcHeight.toNat → col < s.srcWidth.toNat → ∃ id,
      rank s.lut (pixelAt s row col).key = some id ∧
      extractIndex s.cfg.align s.srcWidth.toNat s.bpp.toNat (t.dst.map Prod.snd) row col = some id

/-- R129: after a successful PACK from a reachable state, each byte of each scanline is its pixels' ids lane by
lane: one per byte at depth 8; the even column in the high nibble at depth 4; column `8k` in bit 7 down to
`8k+7` in bit 0 at depth 1; columns beyond the width contribute 0. -/
def Obligations.PackedLaneByLane : Prop :=
  ∀ s t : State, s.Inv → s.accepts → exec .pack s = .next t → t.status.done = true →
    ∀ ids : Nat → Nat → Nat,
      (∀ row col, row < s.srcHeight.toNat → col < s.srcWidth.toNat →
        rank s.lut (pixelAt s row col).key = some (ids row col)) →
      (∀ row col, s.srcWidth.toNat ≤ col → ids row col = 0) →
      ∀ row k, row < s.srcHeight.toNat → k < slw s.cfg.align s.srcWidth.toNat s.bpp.toNat →
        ∃ x : Byte, t.dst.read (row * slw s.cfg.align s.srcWidth.toNat s.bpp.toNat + k) = some x ∧
          (s.bpp.toNat = 8 → x.toNat = ids row k) ∧
          (s.bpp.toNat = 4 → x.toNat = 16 * ids row (2 * k) + ids row (2 * k + 1)) ∧
          (s.bpp.toNat = 1 → x.toNat =
            128 * ids row (8 * k) + 64 * ids row (8 * k + 1) + 32 * ids row (8 * k + 2) +
            16 * ids row (8 * k + 3) + 8 * ids row (8 * k + 4) + 4 * ids row (8 * k + 5) +
            2 * ids row (8 * k + 6) + ids row (8 * k + 7))

/-- R125 (c), R33 (iii): in a reachable state with a valid LUT every pixel's color is in it, so packing never
asks for a rank the spec does not define. -/
def Obligations.PackNeverMisses : Prop :=
  ∀ s : State, s.Inv → s.status.lutValid = true →
    ∀ row col, row < s.srcHeight.toNat → col < s.srcWidth.toNat →
      ∃ id, rank s.lut (pixelAt s row col).key = some id ∧ id < 256

/-! ## SELDEPTH and COMPRESS -/

/-- R140: `choose_bpp` by its thresholds. -/
def Obligations.ChooseBppThresholds : Prop :=
  ∀ n : Nat,
    (n ≤ 2 → chooseBpp n = some 1) ∧ (2 < n → n ≤ 16 → chooseBpp n = some 4) ∧
    (16 < n → n ≤ 256 → chooseBpp n = some 8) ∧ (256 < n → chooseBpp n = none)

/-- R141: the answer of `choose_bpp` is the least of 1, 4, 8 whose power of two holds the count. -/
def Obligations.ChooseBppIsLeast : Prop :=
  ∀ n b : Nat, chooseBpp n = some b → n ≤ 2 ^ b ∧ (b = 1 ∨ b = 4 ∨ b = 8) ∧
    ∀ b', b' = 1 ∨ b' = 4 ∨ b' = 8 → n ≤ 2 ^ b' → b ≤ b'

/-- R142: with a valid LUT, SELDEPTH completes: BPP becomes 1, 4 or 8 by the thresholds 2, 16 and 256 of NCOLORS;
nothing else changes but DONE. -/
def Obligations.SeldepthChoosesTheDepth : Prop :=
  ∀ s : State, s.accepts → s.status.lutValid = true → s.ncolors.toNat ≤ 256 →
    exec .seldepth s = .next
      { s.recordSuccess with
        bpp := if s.ncolors.toNat ≤ 2 then 1 else if s.ncolors.toNat ≤ 16 then 4 else 8 }

/-- R146, its success: COMPRESS on an accepted state whose source check passes, with at most 256 colors and an
output that fits, completes in the state of a build, the chosen depth and a packing at it. -/
def Obligations.CompressConverts : Prop :=
  ∀ (s : State) (b : Nat), s.accepts → s.sourceOk → chooseBpp (sourceColors s).length = some b →
    s.srcHeight.toNat * slw s.cfg.align s.srcWidth.toNat b ≤ s.cfg.dstCap →
    ∃ t : State, exec .compress s = .next t ∧
      t.status = ⟨false, true, false, true, true⟩ ∧ t.lut = sourceColors s ∧
      t.ncolors.toNat = (sourceColors s).length ∧ t.index = ⟨false, 0⟩ ∧ t.bpp.toNat = b ∧
      t.pal = Memory.write s.pal 0 (paletteBytes (sourceColors s)) ∧
      t.dstWidth = s.srcWidth ∧ t.dstHeight = s.srcHeight ∧ t.dstBpp.toNat = b ∧
      t.dstSize.toNat = s.srcHeight.toNat * slw s.cfg.align s.srcWidth.toNat b ∧
      t.palSize.toNat = 3 * 2 ^ b ∧ t.dst.map Prod.fst = List.range t.dstSize.toNat ∧ t.error = s.error

/-- R146, R191: COMPRESS with more than 256 colors records TooManyColors and leaves what a failing BUILD leaves,
BPP unchanged; with an output too large it records CapacityExceeded over the state of the build and the depth. -/
def Obligations.CompressErrors : Prop :=
  ∀ s : State, s.accepts → s.sourceOk →
    (256 < (sourceColors s).length →
      exec .compress s = .next (s.destroyedByBuild.recordError 0x06#8 0x09#8)) ∧
    (∀ b : Nat, chooseBpp (sourceColors s).length = some b →
      s.cfg.dstCap < s.srcHeight.toNat * slw s.cfg.align s.srcWidth.toNat b →
      exec .compress s = .next
        (((s.builtWith (sourceColors s)).withDepth b).recordError 0x06#8 0x13#8))

/-- R147: from any state with ERR = 0, COMPRESS leaves exactly what BUILD, SELDEPTH and PACK leave, stopped at
the first error, but for ERROR.OP, which is 0x06. -/
def Obligations.CompressEqualsTheStages : Prop :=
  ∀ s : State, s.accepts → ∃ t u : State,
    exec .compress s = .next t ∧ stagedCompress s = .next u ∧
    (u.status.err = false → t = u) ∧
    (u.status.err = true → t = { u with error := ⟨0x06#8, u.error.code⟩ })

/-- R144: COMPRESS on the engine is the document's `compress(image)` of the source Image, for every Image that fits
SRC: it ends in the error the document gives, or leaves exactly the output Image it returns, if that fits DST. -/
def Obligations.CompressRefinesTheDocument : Prop :=
  ∀ s : State, s.accepts → s.srcWidth.toNat ≤ 65535 → s.srcHeight.toNat ≤ 65535 →
    s.srcBpp.toNat = 1 ∨ s.srcBpp.toNat = 4 ∨ s.srcBpp.toNat = 8 ∨
      (s.srcBpp.toNat = 24 ∧ s.srcHeight.toNat * slw s.cfg.align s.srcWidth.toNat 24 ≤ s.cfg.srcCap) →
    ∃ t : State, exec .compress s = .next t ∧
      (s.srcBpp.toNat ≠ 24 ↔ (sourceImage s).compress s.cfg.align = .error .alreadyIndexed) ∧
      match (sourceImage s).compress s.cfg.align with
      | .error kind => t.status.err = true ∧ t.error = ⟨0x06#8, kind.code⟩ ∧
          (kind = .alreadyIndexed ∨ kind = .tooManyColors ∧ outputImage t = none)
      | .ok img => img.pixelBuffer.length ≤ s.cfg.dstCap →
          t.status.err = false ∧ t.status.done = true ∧ outputImage t = some img

/-- R148 (e): what COMPRESS makes is a function of the picture alone: two accepted states of one instance whose
sources pass the check, with equal dimensions and pixel colors, end alike and with the same output Image,
whatever their padding bytes, other registers and earlier commands. -/
def Obligations.CompressDependsOnThePictureAlone : Prop :=
  ∀ s s' t t' : State, s.accepts → s'.accepts → s.sourceOk → s'.sourceOk → s.cfg = s'.cfg →
    s.srcWidth = s'.srcWidth → s.srcHeight = s'.srcHeight →
    (∀ row col, row < s.srcHeight.toNat → col < s.srcWidth.toNat → pixelAt s row col = pixelAt s' row col) →
    exec .compress s = .next t → exec .compress s' = .next t' →
    t.status = t'.status ∧ outputImage t = outputImage t' ∧
      (t.status.err = true → t.error = t'.error)

/-! ## Frames and whole-machine rules -/

/-- R82, R189: what each command can write, in every outcome that answers a next state: SRC, the source
registers, ROW, COL, the parameters and the script never; COLOR only by PIXAT; BPP only by SELDEPTH and COMPRESS;
INDEX only by LOOKUP, BUILD and COMPRESS; LUT, NCOLORS, LUT_VALID and every byte of PAL only by BUILD and
COMPRESS; DST, its descriptors and DST_VALID only by BUILD, PACK and COMPRESS; ERROR only together with ERR. -/
def Obligations.CommandFrames : Prop :=
  ∀ (i : Instr) (s t : State), exec i s = .next t →
    (t.cfg = s.cfg ∧ t.srcWidth = s.srcWidth ∧ t.srcHeight = s.srcHeight ∧ t.srcBpp = s.srcBpp ∧
      t.row = s.row ∧ t.col = s.col ∧ t.script = s.script ∧ t.pos = s.pos ∧ t.observed = s.observed ∧
      t.srcEpoch = s.srcEpoch ∧ t.draws = s.draws ∧ t.src = s.src ∧ (∀ a, t.src.read a = s.src.read a)) ∧
    (i ≠ .pixat → t.color = s.color) ∧
    (i ≠ .seldepth → i ≠ .compress → t.bpp = s.bpp) ∧
    (i ≠ .lookup → i ≠ .build → i ≠ .compress → t.index = s.index) ∧
    (i ≠ .build → i ≠ .compress → t.lut = s.lut ∧ t.ncolors = s.ncolors ∧
      t.status.lutValid = s.status.lutValid ∧ ∀ a, t.pal.read a = s.pal.read a) ∧
    (i ≠ .build → i ≠ .pack → i ≠ .compress → t.dstWidth = s.dstWidth ∧ t.dstHeight = s.dstHeight ∧
      t.dstBpp = s.dstBpp ∧ t.dstSize = s.dstSize ∧ t.palSize = s.palSize ∧
      t.status.dstValid = s.status.dstValid ∧ ∀ a, t.dst.read a = s.dst.read a) ∧
    (t.status.err = s.status.err → t.error = s.error)

/-- R222: every command terminates: from every state each answers a next state. -/
def Obligations.EveryCommandAnswers : Prop :=
  ∀ (i : Instr) (s : State), ∃ t, exec i s = .next t

/-- R33 at reset (R45), for every instance. -/
def Obligations.ResetMeetsTheInvariants : Prop :=
  (∀ cfg : Config, (State.resetOf cfg).Inv) ∧ State.reset.Inv

/-- R33: every step from a state that meets the invariants gives one that meets them: LUT ascending and counted,
empty when invalid, that of the source image when valid with PAL its bytes; the output descriptors those of an
Image when valid, 0 when not; DONE and ERR exclusive, ERR iff an error is recorded, ERROR 0 when none is; not BUSY;
buffers canonical. -/
def Obligations.StepKeepsTheInvariants : Prop :=
  ∀ s t : State, s.Inv → step s = .next t → t.Inv

/-- R213, R12: no step changes the parameters, so CAP reads the same for ever: ALIGN, 4 or 1. -/
def Obligations.StepKeepsTheParameters : Prop :=
  ∀ s t : State, step s = .next t → t.cfg = s.cfg ∧ readReg t .cap = readReg s .cap ∧
    (readReg t .cap = 4 ∨ readReg t .cap = 1)

/-- R32: the output Image changes only when BUILD, PACK or COMPRESS is written to CMD, or at a reset. -/
def Obligations.OutputImageIsImmutable : Prop :=
  ∀ s t : State, step s = .next t →
    outputImage t = outputImage s ∨
    (∃ w, currentStmt s = some (.access (.regWrite 0x10 w)) ∧ (w = 1 ∨ w = 4 ∨ w = 6)) ∨
    (∃ w, currentStmt s = some (.access (.regWrite 0x04 w)) ∧ w.getLsbD 0 = true) ∨
    currentStmt s = some .hardwareReset

/-- R32, R30: in a reachable state with DST_VALID = 1 there is an output Image and it meets the invariants of an
Image, with dimensions at most 65535 and a depth of 1, 4 or 8. -/
def Obligations.OutputImageIsAnImage : Prop :=
  ∀ s : State, s.Inv → s.status.dstValid = true → ∃ img : Image, outputImage s = some img ∧
    img.wellFormed s.cfg.align = true ∧ img.width ≤ 65535 ∧ img.height ≤ 65535 ∧
    (img.bitsPerPixel = 1 ∨ img.bitsPerPixel = 4 ∨ img.bitsPerPixel = 8)

/-- R223, its verdicts: at the end of a run (the script has run out, BUSY = 0) the outcome is a success with an output
Image when ERR = 0 and DST_VALID = 1, a failure with ERROR.CODE when ERR = 1, else neither. That a step then changes
nothing is the model's reading of R40 "the engine waits for the next CMD write" (log 6, DEDUCED, on log 5's script). -/
def Obligations.EndOfARun : Prop :=
  ∀ s : State, s.runEnded = true →
    step s = .next s ∧
    (s.status.err = true → s.verdict = .failure s.error.code) ∧
    (s.status.err = false → s.status.dstValid = false → s.verdict = .incomplete) ∧
    (s.status.err = false → s.status.dstValid = true → s.verdict = .success ∧
      (s.Inv → ∃ img, outputImage s = some img))

/-! ## Reset, registers and host accesses -/

/-- R45, R210, R213: the reset input leaves every register reading 0 except CAP, which reads ALIGN, the LUT empty
and no byte of SRC, DST or PAL specified, whatever the state was, a running command included (R211). -/
def Obligations.ResetLeaves : Prop :=
  ∀ s t : State, currentStmt s = some .hardwareReset → step s = .next t →
    (∀ r : RegName, r ≠ .cap → readReg t r = 0) ∧ readReg t .cap = BitVec.ofNat 32 s.cfg.align.bytes ∧
    t.status = ⟨false, false, false, false, false⟩ ∧ t.lut = [] ∧
    (∀ a, t.src.read a = none ∧ t.dst.read a = none ∧ t.pal.read a = none)

/-- R212, R13: a write to CTRL with bit 0 = 1 while not BUSY is the reset of R45; with bit 0 = 0, or while BUSY,
it changes nothing. -/
def Obligations.SoftReset : Prop :=
  ∀ (s : State) (w : Word),
    (s.status.busy = false → w.getLsbD 0 = true →
      hostRegWrite 0x04 w s = perform .hardwareReset s) ∧
    (w.getLsbD 0 = false → hostRegWrite 0x04 w s = .next s) ∧
    (s.status.busy = true → hostRegWrite 0x04 w s = .next s)

/-- R192: a write to STATUS with bit 2 = 1 while not BUSY clears ERR and ERROR and nothing else, so that commands
are accepted again; with bit 2 = 0, or in a reachable state with ERR = 0, it changes nothing. -/
def Obligations.ErrorClear : Prop :=
  ∀ (s : State) (w : Word), s.status.busy = false →
    (w.getLsbD 2 = true → ∃ t, hostRegWrite 0x08 w s = .next t ∧ t.accepts ∧
      t = { s with status := { s.status with err := false }, error := ⟨0, 0⟩ }) ∧
    (w.getLsbD 2 = false → hostRegWrite 0x08 w s = .next s) ∧
    (s.Inv → s.status.err = false → hostRegWrite 0x08 w s = .next s)

/-- R34, R17, R18, R19, R74: a host write of a source register, or of a byte of SRC, stores the value, empties
the LUT and clears NCOLORS, INDEX and LUT_VALID, and leaves everything else. -/
def Obligations.SourceWritesInvalidate : Prop :=
  ∀ (s : State) (w : Word) (off : Nat) (b : Byte), s.status.busy = false →
    hostRegWrite 0x14 w s = .next
      { s with srcWidth := w, lut := [], ncolors := 0, index := ⟨false, 0⟩,
               status := { s.status with lutValid := false } } ∧
    hostRegWrite 0x18 w s = .next
      { s with srcHeight := w, lut := [], ncolors := 0, index := ⟨false, 0⟩,
               status := { s.status with lutValid := false } } ∧
    hostRegWrite 0x1C w s = .next
      { s with srcBpp := w, lut := [], ncolors := 0, index := ⟨false, 0⟩,
               status := { s.status with lutValid := false } } ∧
    (off < s.cfg.srcCap → hostByteWrite .src off b s = .next
      { s with src := Memory.write s.src off [b], lut := [], ncolors := 0, index := ⟨false, 0⟩,
               status := { s.status with lutValid := false } })

/-- R35, R50: a byte the host writes to SRC is read back, every other byte of SRC reads as before, and the
canonical form is kept. R52, R89: a wider write stores the number's bytes in ascending offset order, least
significant first, invalidates the LUT, and leaves everything else (its widths: log 22). -/
def Obligations.SrcWriteReadsBack : Prop :=
  (∀ (s t : State) (off : Nat) (b : Byte), s.status.busy = false →
    hostByteWrite .src off b s = .next t →
    t.src.read off = some b ∧ (∀ a, a ≠ off → t.src.read a = s.src.read a) ∧
    (Memory.wf s.src → Memory.wf t.src) ∧
    ∃ u, hostByteRead .src off t = .next u ∧ u.observed = .byte .src off b :: s.observed) ∧
  (∀ (s : State) (off n v : Nat), s.status.busy = false → 0 < n → off + n ≤ s.cfg.srcCap → ∃ src : Memory,
    hostAccess (.wideWrite .src off n v) s = .next
      { s with src := src, lut := [], ncolors := 0, index := ⟨false, 0⟩,
               status := { s.status with lutValid := false } } ∧
    (∀ i, i < n → ∃ b : Byte, src.read (off + i) = some b ∧ b.toNat = v / 256 ^ i % 256) ∧
    (∀ a, a < off ∨ off + n ≤ a → src.read a = s.src.read a) ∧ (Memory.wf s.src → Memory.wf src))

/-- R35, R217: a host read of a byte a buffer space specifies gives the host that byte and changes nothing else. A
byte of DST or PAL that is not specified reads as some byte (a free value, log 3); a byte of SRC that is not written
reads as the byte the engine reads there (a free value, log 2) and changes nothing else. R52, R89: a wider read of
bytes that all have a value gives their number, the byte at the lowest offset least significant (its widths: log 22). -/
def Obligations.BufferReadsGiveTheBytes : Prop :=
  (∀ (s : State) (off : Nat) (b : Byte), s.status.busy = false →
    (off < s.cfg.srcCap → s.src.read off = some b →
      hostByteRead .src off s = .next { s with observed := .byte .src off b :: s.observed }) ∧
    (off < s.cfg.dstCap → s.dst.read off = some b →
      hostByteRead .dst off s = .next { s with observed := .byte .dst off b :: s.observed }) ∧
    (off < 768 → s.pal.read off = some b →
      hostByteRead .pal off s = .next { s with observed := .byte .pal off b :: s.observed }) ∧
    (off < s.cfg.srcCap → s.src.read off = none →
      hostByteRead .src off s = .next { s with observed := .byte .src off (srcByte s off) :: s.observed }) ∧
    (off < s.cfg.dstCap → s.dst.read off = none → ∃ (x : Byte) (n : Nat),
      hostByteRead .dst off s = .next { s with observed := .byte .dst off x :: s.observed, draws := n }) ∧
    (off < 768 → s.pal.read off = none → ∃ (x : Byte) (n : Nat),
      hostByteRead .pal off s = .next { s with observed := .byte .pal off x :: s.observed, draws := n })) ∧
  (∀ (s : State) (sp : BufferSpace) (off : Nat) (bs : List Byte), s.status.busy = false →
    off + bs.length ≤ sp.size s.cfg →
    (∀ i b, bs[i]? = some b →
      (sp = .src ∧ srcByte s (off + i) = b) ∨ (sp = .dst ∧ s.dst.read (off + i) = some b) ∨
        (sp = .pal ∧ s.pal.read (off + i) = some b)) →
    ∃ (v : Nat) (o : List Observation),
      hostAccess (.wideRead sp off bs.length) s = .next { s with observed := .number sp off bs.length v :: o } ∧
      v < 256 ^ bs.length ∧ ∀ i b, bs[i]? = some b → v / 256 ^ i % 256 = b.toNat)

/-- R11, R85, R35, R50: writes to read-only registers, to the reserved offsets 0x4C to 0xFF, and to DST and PAL, of a
byte or wider, are ignored; while not BUSY a host read of a reserved offset, of CTRL or of CMD gives the host 0 and
changes nothing else. That accesses of every width are served is log 22's. -/
def Obligations.IgnoredAccesses : Prop :=
  ∀ (s : State) (w : Word) (off n v : Nat) (b : Byte),
    (off ∈ [0x00, 0x0C, 0x2C, 0x30, 0x38, 0x3C, 0x40, 0x44, 0x48] → hostRegWrite off w s = .next s) ∧
    (0x4C ≤ off → off < 0x100 → off % 4 = 0 → hostRegWrite off w s = .next s) ∧
    (off < s.cfg.dstCap → hostByteWrite .dst off b s = .next s) ∧
    (off < 768 → hostByteWrite .pal off b s = .next s) ∧
    (off + n ≤ s.cfg.dstCap → hostAccess (.wideWrite .dst off n v) s = .next s) ∧
    (off + n ≤ 768 → hostAccess (.wideWrite .pal off n v) s = .next s) ∧
    (s.status.busy = false →
      (0x4C ≤ off → off < 0x100 → off % 4 = 0 →
        hostRegRead off s = .next { s with observed := .reg off 0 :: s.observed }) ∧
      hostRegRead 0x04 s = .next { s with observed := .reg 0x04 0 :: s.observed } ∧
      hostRegRead 0x10 s = .next { s with observed := .reg 0x10 0 :: s.observed })

/-- R20, R21, R22, R25, R61: writes to ROW, COL, BPP and COLOR only store; COLOR keeps bits 23:0. -/
def Obligations.PlainRegisterWrites : Prop :=
  ∀ (s : State) (w : Word), s.status.busy = false →
    hostRegWrite 0x20 w s = .next { s with row := w } ∧
    hostRegWrite 0x24 w s = .next { s with col := w } ∧
    hostRegWrite 0x34 w s = .next { s with bpp := w } ∧
    ∃ k : Key, k.toNat = w.toNat % 2 ^ 24 ∧ hostRegWrite 0x28 w s = .next { s with color := k }

/-- R61: a read of a register, of a buffer byte or of several, at once or as many as a register said (R174), changes no state of the PIPU: only the host's record of
what it read and the model's draw counter move (logs 3 and 4), and the script position. -/
def Obligations.ReadsChangeNothing : Prop :=
  ∀ (s t : State) (off n : Nat) (sp : BufferSpace) (size : RegName),
    currentStmt s = some (.access (.regRead off)) ∨ currentStmt s = some (.access (.byteRead sp off)) ∨
      currentStmt s = some (.access (.wideRead sp off n)) ∨ currentStmt s = some (.sizedRead sp off size) →
    step s = .next t →
    { t with observed := s.observed, draws := s.draws, pos := s.pos } = s

/-- R14, R15, R22, R23, R24: the bits of the register words: the flags at their places, ERROR and INDEX by their
fields, reserved bits 0. -/
def Obligations.RegisterWordBits : Prop :=
  ∀ s : State,
    ((readReg s .status).getLsbD 0 = s.status.busy ∧ (readReg s .status).getLsbD 1 = s.status.done ∧
      (readReg s .status).getLsbD 2 = s.status.err ∧ (readReg s .status).getLsbD 3 = s.status.lutValid ∧
      (readReg s .status).getLsbD 4 = s.status.dstValid ∧ (readReg s .status).toNat < 2 ^ 5) ∧
    ((readReg s .error).toNat = s.error.op.toNat * 256 + s.error.code.toNat) ∧
    ((readReg s .index).toNat = s.index.hit.toNat * 256 + s.index.id.toNat) ∧
    ((readReg s .color).toNat = s.color.toNat ∧ (readReg s .color).toNat < 2 ^ 24) ∧
    ((readReg s .ncolors).toNat = s.ncolors.toNat ∧ (readReg s .ncolors).toNat < 2 ^ 9)

/-- R11 to R27: while not BUSY a host read at each offset of the register map gives the host that register's word and
changes nothing else; R218: while BUSY a read of STATUS gives its word, and writes at any of these offsets change
nothing. -/
def Obligations.RegisterReadsAndTheBusyWindow : Prop :=
  ∀ (s : State) (w : Word),
    (s.status.busy = false → ∀ (off : Nat) (word : Word), (off, word) ∈
        [(0x00, BitVec.ofNat 32 s.cfg.align.bytes), (0x04, 0), (0x08, s.status.toWord), (0x0C, s.error.toWord),
          (0x10, 0), (0x14, s.srcWidth), (0x18, s.srcHeight), (0x1C, s.srcBpp), (0x20, s.row), (0x24, s.col),
          (0x28, s.color.setWidth 32), (0x2C, s.index.toWord), (0x30, s.ncolors.setWidth 32), (0x34, s.bpp),
          (0x38, s.dstWidth), (0x3C, s.dstHeight), (0x40, s.dstBpp), (0x44, s.dstSize), (0x48, s.palSize)] →
      hostRegRead off s = .next { s with observed := .reg off word :: s.observed }) ∧
    hostRegRead 0x08 s = .next { s with observed := .reg 0x08 s.status.toWord :: s.observed } ∧
    (s.status.busy = true → ∀ off : Nat, off ≤ 0x48 → off % 4 = 0 → hostRegWrite off w s = .next s)

/-- R89, R92, R52: while not BUSY every well-formed statement of a host script is performed: the step answers a next
state. Three clauses are the model's: that an access of a buffer of every width is served (log 22, DESIGN CHOICE), that
a branch is served when the script has read its register before (log 10, DEDUCED), and that a sized read (R174) is when
the script has read its size and the bytes lie in the space (log 24, DESIGN CHOICE). -/
def Obligations.WellFormedStatementsAreServed : Prop :=
  ∀ (s : State) (st : Stmt), currentStmt s = some st → st.wellFormed s.cfg s.script.length = true →
    s.status.busy = false →
    (∀ reg hi lo v target, st = .branch reg hi lo v target →
      ∃ w, lastRead reg.offset s.observed = some w) →
    (∀ sp off size, st = .sizedRead sp off size →
      ∃ w, lastRead size.offset s.observed = some w ∧ off + w.toNat ≤ sp.size s.cfg) →
    ∃ t, step s = .next t

/-- U6, U7 (the model's stops, logs 7 to 10, 22 and 24): a step stops only on an access that is not well formed, on a sized
read that reaches past its space, on a write to SRC, of a byte or wider, while BUSY, or on a branch on, or a sized read by,
a register the script has not read. -/
def Obligations.OnlyForeignAccessesStop : Prop :=
  ∀ s : State,
    (∀ f, step s = .fault f → (∃ a, currentStmt s = some (.access a) ∧ a.wellFormed s.cfg = false) ∨
      (∃ sp off size w, currentStmt s = some (.sizedRead sp off size) ∧
        lastRead size.offset s.observed = some w ∧ sp.size s.cfg < off + w.toNat)) ∧
    (∀ r, step s = .refused r →
      (∃ a, currentStmt s = some (.access a) ∧ a.wellFormed s.cfg = false) ∨
      (∃ off b, currentStmt s = some (.access (.byteWrite .src off b)) ∧ s.status.busy = true) ∨
      (∃ off n v, currentStmt s = some (.access (.wideWrite .src off n v)) ∧ s.status.busy = true) ∨
      (∃ reg hi lo v target, currentStmt s = some (.branch reg hi lo v target) ∧
        lastRead reg.offset s.observed = none) ∨
      (∃ sp off size, currentStmt s = some (.sizedRead sp off size) ∧ lastRead size.offset s.observed = none))

/-! ## Arithmetic -/

/-- R56, R57: `slw(w, b)` is the least multiple of ALIGN bytes that holds `w*b` bits, and 0 for an empty row. -/
def Obligations.ScanlineWidthIsLeast : Prop :=
  ∀ (a : Align) (w b : Nat),
    slw a w b % a.bytes = 0 ∧ w * b ≤ 8 * slw a w b ∧ slw a 0 b = 0 ∧
    (∀ n, n % a.bytes = 0 → w * b ≤ 8 * n → slw a w b ≤ n) ∧
    (∀ w', w ≤ w' → slw a w b ≤ slw a w' b)

/-- R62, R5: within the checked ranges every size and offset fits its width: the source buffer 34 bits, the output
buffer 32 bits, and a pixel's offsets lie inside its buffer. -/
def Obligations.SizesAndOffsetsFit : Prop :=
  ∀ (a : Align) (h w b row col : Nat), h ≤ 65535 → w ≤ 65535 → b = 1 ∨ b = 4 ∨ b = 8 →
    h * slw a w 24 ≤ 12884705280 ∧ h * slw a w b ≤ 4294901760 ∧
    (row < h → col < w →
      pixelOffset a w row col + 2 < h * slw a w 24 ∧ packByteOffset a w b row col < h * slw a w b ∧
      packBitOffset b col ≤ 7 ∧ (col * b) % 8 + b ≤ 8 ∧
      ∀ id, id < 2 ^ b → id * 2 ^ packBitOffset b col ≤ 255)

/-! ## The host's codec -/

/-- R176 (its codec half), R166, R162: decoding what `encode` wrote gives back the Image, field for field. The field
positions in the file are log 16's (PRESUMED: R158, G1, G4). -/
def Obligations.FileRoundTrip : Prop :=
  ∀ (a : Align) (img : Image) (file : List Byte), img.wellFormed a = true →
    encodeFile a img = .ok file → decodeFile a file = .ok img

/-- R167, R176: every output Image of a reachable state can be encoded, to `26 + PAL_SIZE + DST_SIZE` bytes, and
decoding that file gives it back. The field positions in the file are log 16's (PRESUMED: R158, G1, G4). -/
def Obligations.OutputImageEncodes : Prop :=
  ∀ (s : State) (img : Image), s.Inv → outputImage s = some img →
    ∃ file, encodeFile s.cfg.align img = .ok file ∧
      file.length = 26 + s.palSize.toNat + s.dstSize.toNat ∧ decodeFile s.cfg.align file = .ok img

/-- R175, R162: a file of at least two bytes that does not begin with "BM" fails with InvalidSignature; one whose
`header_size` is none of 12, 40, 108, 124 fails with UnsupportedHeaderSize. A core-schema file of depth 24 and height
0 decodes to an Image without pixels wherever its pixel_data_offset points: reading no bytes is no short read (the
model's reading, log 21). The field positions of the core header are those of R158, from general knowledge (G1), and
the signature's byte values are G4's: log 16, PRESUMED. -/
def Obligations.FileDecodeErrors : Prop :=
  ∀ (a : Align) (x y : Byte) (rest : List Byte),
    (x ≠ 0x42#8 ∨ y ≠ 0x4D#8 → decodeFile a (x :: y :: rest) = .error .invalidSignature) ∧
    (∀ (hdr more : List Byte) (n : Nat), hdr.length = 12 → n < 2 ^ 32 → n ≠ 12 → n ≠ 40 → n ≠ 108 → n ≠ 124 →
      decodeFile a ([0x42#8, 0x4D#8] ++ hdr ++ leBytes 4 n ++ more) = .error .unsupportedHeaderSize) ∧
    (∀ (hdr more : List Byte) (w : Nat), hdr.length = 12 → w < 2 ^ 16 →
      decodeFile a ([0x42#8, 0x4D#8] ++ hdr ++ leBytes 4 12 ++ leBytes 2 w ++ leBytes 2 0 ++ leBytes 2 1 ++
        leBytes 2 24 ++ more) = .ok ⟨w, 0, 24, [], []⟩)
end

