-- ==== Sys2Proof/Laws/Memory.lean ====
section
/-! SUPPORT. Reading after writing, and the canonical form of a buffer space under every memory operation. -/

namespace Sys2Proof.Machine

@[simp] theorem Memory.read_nil (a : Nat) : Memory.read [] a = none := rfl

@[simp] theorem Memory.cellsFrom_nil (off : Nat) : Memory.cellsFrom off [] = [] := rfl

theorem Memory.read_cons (k : Nat) (b : Byte) (m : Memory) (a : Nat) :
    Memory.read ((k, b) :: m) a = if k = a then some b else Memory.read m a := rfl

/-- The offsets of consecutive cells. -/
theorem Memory.map_fst_cellsFrom (off : Nat) (bs : List Byte) :
    (Memory.cellsFrom off bs).map Prod.fst = List.range' off bs.length := by
  induction bs generalizing off with
  | nil => rfl
  | cons b bs ih => simp [Memory.cellsFrom, ih, List.range'_succ]

theorem Memory.fst_mem_cellsFrom {off : Nat} {bs : List Byte} {c : Host.Cell}
    (h : c ∈ Memory.cellsFrom off bs) : off ≤ c.1 ∧ c.1 < off + bs.length := by
  have hm : c.1 ∈ (Memory.cellsFrom off bs).map Prod.fst := List.mem_map_of_mem h
  rw [Memory.map_fst_cellsFrom, List.mem_range'_1] at hm
  omega

/-- Reading consecutive cells gives the byte at that place, and none outside them. -/
theorem Memory.read_cellsFrom (off : Nat) (bs : List Byte) (a : Nat) :
    Memory.read (Memory.cellsFrom off bs) a = if off ≤ a then bs[a - off]? else none := by
  induction bs generalizing off with
  | nil => simp
  | cons b bs ih =>
    rw [Memory.cellsFrom, Memory.read_cons, ih]
    rcases Nat.lt_trichotomy off a with h | h | h
    · have e : a - off = (a - (off + 1)) + 1 := by omega
      simp [h.ne, h.le, Nat.succ_le_of_lt h, e]
    · simp [h]
    · simp [h.ne', Nat.not_le.mpr h, show ¬ off + 1 ≤ a by omega]

/-- Reading an appended memory: the first part wins. -/
theorem Memory.read_append (m n : Memory) (a : Nat) :
    Memory.read (m ++ n) a = (Memory.read m a).or (Memory.read n a) := by
  induction m with
  | nil => simp
  | cons c m ih =>
    obtain ⟨k, b⟩ := c
    by_cases h : k = a <;> simp [Memory.read_cons, ih, h]

/-- Reading a memory restricted to the offsets that satisfy `p`. -/
theorem Memory.read_filter (p : Nat → Bool) (m : Memory) (a : Nat) :
    Memory.read (m.filter (fun c => p c.1)) a = if p a then Memory.read m a else none := by
  induction m with
  | nil => simp
  | cons c m ih =>
    obtain ⟨k, b⟩ := c
    by_cases hp : p k
    · by_cases h : k = a
      · subst h; simp [Memory.read_cons, hp]
      · simp [Memory.read_cons, hp, h, ih]
    · by_cases h : k = a
      · subst h; simp [hp, ih]
      · simp [Memory.read_cons, hp, h, ih]

/-- Everything a write does to a read: the bytes written at their offsets, every other offset as before. -/
theorem Memory.read_write (m : Memory) (off : Nat) (bs : List Byte) (a : Nat) :
    Memory.read (Memory.write m off bs) a =
      if off ≤ a ∧ a < off + bs.length then bs[a - off]? else Memory.read m a := by
  rw [Memory.write, Memory.read_append, Memory.read_append,
    Memory.read_filter (fun k => decide (k < off)),
    Memory.read_filter (fun k => decide (off + bs.length ≤ k)), Memory.read_cellsFrom]
  rcases Nat.lt_or_ge a off with h | h
  · simp [h, Nat.not_le.mpr h, show ¬ off + bs.length ≤ a by omega]
  · by_cases h' : a < off + bs.length
    · have hl : a - off < bs.length := by omega
      simp [h, h', Nat.not_lt.mpr h, Nat.not_le.mpr h', List.getElem?_eq_getElem hl]
    · have hl : bs.length ≤ a - off := by omega
      simp [h, h', Nat.not_lt.mpr h, Nat.not_lt.mp h', List.getElem?_eq_none hl]

theorem Memory.wf_nil : Memory.wf [] := List.Pairwise.nil

theorem Memory.wf_cellsFrom (off : Nat) (bs : List Byte) : Memory.wf (Memory.cellsFrom off bs) := by
  have h : ((Memory.cellsFrom off bs).map Prod.fst).Pairwise (· < ·) := by
    rw [Memory.map_fst_cellsFrom]; exact List.pairwise_lt_range'
  exact List.pairwise_map.mp h

/-- A write keeps the canonical form. -/
theorem Memory.wf_write {m : Memory} (h : Memory.wf m) (off : Nat) (bs : List Byte) :
    Memory.wf (Memory.write m off bs) := by
  refine List.pairwise_append.mpr ⟨List.pairwise_append.mpr
    ⟨h.filter _, Memory.wf_cellsFrom off bs, ?_⟩, h.filter _, ?_⟩
  · intro x hx y hy
    have := Memory.fst_mem_cellsFrom hy
    have := (List.mem_filter.mp hx).2
    simp only [decide_eq_true_eq] at this
    omega
  · intro x hx y hy
    have hy' := (List.mem_filter.mp hy).2
    simp only [decide_eq_true_eq] at hy'
    rcases List.mem_append.mp hx with hx | hx
    · have := (List.mem_filter.mp hx).2
      simp only [decide_eq_true_eq] at this
      omega
    · have := Memory.fst_mem_cellsFrom hx
      omega

/-- Writing into an empty space from its start lists exactly the bytes written. -/
@[simp] theorem Memory.write_nil_zero (bs : List Byte) : Memory.write [] 0 bs = Memory.cellsFrom 0 bs := by
  simp [Memory.write]

/-- A write that covers a space from offset 0 past its last listed byte replaces all of it. -/
theorem Memory.write_zero_of_covers {m : Memory} {bs : List Byte} (h : ∀ c ∈ m, c.1 < bs.length) :
    Memory.write m 0 bs = Memory.cellsFrom 0 bs := by
  have h2 : m.filter (fun c => decide (0 + bs.length ≤ c.1)) = [] := by
    refine List.filter_eq_nil_iff.mpr fun c hc => ?_
    have := h c hc
    simp only [decide_eq_true_eq]
    omega
  simp only [Nat.zero_add] at h2
  simp [Memory.write, h2]

end Sys2Proof.Machine
end

