-- ==== Sys2Proof/Laws/State.lean ====
section
/-! SUPPORT. What each named update of State does to each field: one lemma per field per update, true by rfl,
so that no proof unfolds a record update. -/

namespace Sys2Proof.Machine

section Fields

variable (s : State)

@[simp] theorem beginCommand_cfg : (beginCommand s).cfg = s.cfg := rfl
@[simp] theorem beginCommand_status : (beginCommand s).status = { s.status with done := false, busy := true } := rfl
@[simp] theorem beginCommand_error : (beginCommand s).error = s.error := rfl
@[simp] theorem beginCommand_srcWidth : (beginCommand s).srcWidth = s.srcWidth := rfl
@[simp] theorem beginCommand_srcHeight : (beginCommand s).srcHeight = s.srcHeight := rfl
@[simp] theorem beginCommand_srcBpp : (beginCommand s).srcBpp = s.srcBpp := rfl
@[simp] theorem beginCommand_row : (beginCommand s).row = s.row := rfl
@[simp] theorem beginCommand_col : (beginCommand s).col = s.col := rfl
@[simp] theorem beginCommand_color : (beginCommand s).color = s.color := rfl
@[simp] theorem beginCommand_index : (beginCommand s).index = s.index := rfl
@[simp] theorem beginCommand_ncolors : (beginCommand s).ncolors = s.ncolors := rfl
@[simp] theorem beginCommand_bpp : (beginCommand s).bpp = s.bpp := rfl
@[simp] theorem beginCommand_dstWidth : (beginCommand s).dstWidth = s.dstWidth := rfl
@[simp] theorem beginCommand_dstHeight : (beginCommand s).dstHeight = s.dstHeight := rfl
@[simp] theorem beginCommand_dstBpp : (beginCommand s).dstBpp = s.dstBpp := rfl
@[simp] theorem beginCommand_dstSize : (beginCommand s).dstSize = s.dstSize := rfl
@[simp] theorem beginCommand_palSize : (beginCommand s).palSize = s.palSize := rfl
@[simp] theorem beginCommand_lut : (beginCommand s).lut = s.lut := rfl
@[simp] theorem beginCommand_src : (beginCommand s).src = s.src := rfl
@[simp] theorem beginCommand_dst : (beginCommand s).dst = s.dst := rfl
@[simp] theorem beginCommand_pal : (beginCommand s).pal = s.pal := rfl
@[simp] theorem beginCommand_srcEpoch : (beginCommand s).srcEpoch = s.srcEpoch := rfl
@[simp] theorem beginCommand_draws : (beginCommand s).draws = s.draws := rfl
@[simp] theorem beginCommand_script : (beginCommand s).script = s.script := rfl
@[simp] theorem beginCommand_pos : (beginCommand s).pos = s.pos := rfl
@[simp] theorem beginCommand_observed : (beginCommand s).observed = s.observed := rfl

@[simp] theorem endCommand_cfg : (endCommand s).cfg = s.cfg := rfl
@[simp] theorem endCommand_status : (endCommand s).status = { s.status with busy := false } := rfl
@[simp] theorem endCommand_error : (endCommand s).error = s.error := rfl
@[simp] theorem endCommand_srcWidth : (endCommand s).srcWidth = s.srcWidth := rfl
@[simp] theorem endCommand_srcHeight : (endCommand s).srcHeight = s.srcHeight := rfl
@[simp] theorem endCommand_srcBpp : (endCommand s).srcBpp = s.srcBpp := rfl
@[simp] theorem endCommand_row : (endCommand s).row = s.row := rfl
@[simp] theorem endCommand_col : (endCommand s).col = s.col := rfl
@[simp] theorem endCommand_color : (endCommand s).color = s.color := rfl
@[simp] theorem endCommand_index : (endCommand s).index = s.index := rfl
@[simp] theorem endCommand_ncolors : (endCommand s).ncolors = s.ncolors := rfl
@[simp] theorem endCommand_bpp : (endCommand s).bpp = s.bpp := rfl
@[simp] theorem endCommand_dstWidth : (endCommand s).dstWidth = s.dstWidth := rfl
@[simp] theorem endCommand_dstHeight : (endCommand s).dstHeight = s.dstHeight := rfl
@[simp] theorem endCommand_dstBpp : (endCommand s).dstBpp = s.dstBpp := rfl
@[simp] theorem endCommand_dstSize : (endCommand s).dstSize = s.dstSize := rfl
@[simp] theorem endCommand_palSize : (endCommand s).palSize = s.palSize := rfl
@[simp] theorem endCommand_lut : (endCommand s).lut = s.lut := rfl
@[simp] theorem endCommand_src : (endCommand s).src = s.src := rfl
@[simp] theorem endCommand_dst : (endCommand s).dst = s.dst := rfl
@[simp] theorem endCommand_pal : (endCommand s).pal = s.pal := rfl
@[simp] theorem endCommand_srcEpoch : (endCommand s).srcEpoch = s.srcEpoch := rfl
@[simp] theorem endCommand_draws : (endCommand s).draws = s.draws := rfl
@[simp] theorem endCommand_script : (endCommand s).script = s.script := rfl
@[simp] theorem endCommand_pos : (endCommand s).pos = s.pos := rfl
@[simp] theorem endCommand_observed : (endCommand s).observed = s.observed := rfl

@[simp] theorem complete_cfg : (complete s).cfg = s.cfg := rfl
@[simp] theorem complete_status : (complete s).status = { s.status with done := true } := rfl
@[simp] theorem complete_error : (complete s).error = s.error := rfl
@[simp] theorem complete_srcWidth : (complete s).srcWidth = s.srcWidth := rfl
@[simp] theorem complete_srcHeight : (complete s).srcHeight = s.srcHeight := rfl
@[simp] theorem complete_srcBpp : (complete s).srcBpp = s.srcBpp := rfl
@[simp] theorem complete_row : (complete s).row = s.row := rfl
@[simp] theorem complete_col : (complete s).col = s.col := rfl
@[simp] theorem complete_color : (complete s).color = s.color := rfl
@[simp] theorem complete_index : (complete s).index = s.index := rfl
@[simp] theorem complete_ncolors : (complete s).ncolors = s.ncolors := rfl
@[simp] theorem complete_bpp : (complete s).bpp = s.bpp := rfl
@[simp] theorem complete_dstWidth : (complete s).dstWidth = s.dstWidth := rfl
@[simp] theorem complete_dstHeight : (complete s).dstHeight = s.dstHeight := rfl
@[simp] theorem complete_dstBpp : (complete s).dstBpp = s.dstBpp := rfl
@[simp] theorem complete_dstSize : (complete s).dstSize = s.dstSize := rfl
@[simp] theorem complete_palSize : (complete s).palSize = s.palSize := rfl
@[simp] theorem complete_lut : (complete s).lut = s.lut := rfl
@[simp] theorem complete_src : (complete s).src = s.src := rfl
@[simp] theorem complete_dst : (complete s).dst = s.dst := rfl
@[simp] theorem complete_pal : (complete s).pal = s.pal := rfl
@[simp] theorem complete_srcEpoch : (complete s).srcEpoch = s.srcEpoch := rfl
@[simp] theorem complete_draws : (complete s).draws = s.draws := rfl
@[simp] theorem complete_script : (complete s).script = s.script := rfl
@[simp] theorem complete_pos : (complete s).pos = s.pos := rfl
@[simp] theorem complete_observed : (complete s).observed = s.observed := rfl

@[simp] theorem invalidateLut_cfg : (invalidateLut s).cfg = s.cfg := rfl
@[simp] theorem invalidateLut_status : (invalidateLut s).status = { s.status with lutValid := false } := rfl
@[simp] theorem invalidateLut_error : (invalidateLut s).error = s.error := rfl
@[simp] theorem invalidateLut_srcWidth : (invalidateLut s).srcWidth = s.srcWidth := rfl
@[simp] theorem invalidateLut_srcHeight : (invalidateLut s).srcHeight = s.srcHeight := rfl
@[simp] theorem invalidateLut_srcBpp : (invalidateLut s).srcBpp = s.srcBpp := rfl
@[simp] theorem invalidateLut_row : (invalidateLut s).row = s.row := rfl
@[simp] theorem invalidateLut_col : (invalidateLut s).col = s.col := rfl
@[simp] theorem invalidateLut_color : (invalidateLut s).color = s.color := rfl
@[simp] theorem invalidateLut_index : (invalidateLut s).index = ⟨false, 0⟩ := rfl
@[simp] theorem invalidateLut_ncolors : (invalidateLut s).ncolors = 0 := rfl
@[simp] theorem invalidateLut_bpp : (invalidateLut s).bpp = s.bpp := rfl
@[simp] theorem invalidateLut_dstWidth : (invalidateLut s).dstWidth = s.dstWidth := rfl
@[simp] theorem invalidateLut_dstHeight : (invalidateLut s).dstHeight = s.dstHeight := rfl
@[simp] theorem invalidateLut_dstBpp : (invalidateLut s).dstBpp = s.dstBpp := rfl
@[simp] theorem invalidateLut_dstSize : (invalidateLut s).dstSize = s.dstSize := rfl
@[simp] theorem invalidateLut_palSize : (invalidateLut s).palSize = s.palSize := rfl
@[simp] theorem invalidateLut_lut : (invalidateLut s).lut = [] := rfl
@[simp] theorem invalidateLut_src : (invalidateLut s).src = s.src := rfl
@[simp] theorem invalidateLut_dst : (invalidateLut s).dst = s.dst := rfl
@[simp] theorem invalidateLut_pal : (invalidateLut s).pal = s.pal := rfl
@[simp] theorem invalidateLut_srcEpoch : (invalidateLut s).srcEpoch = s.srcEpoch := rfl
@[simp] theorem invalidateLut_draws : (invalidateLut s).draws = s.draws := rfl
@[simp] theorem invalidateLut_script : (invalidateLut s).script = s.script := rfl
@[simp] theorem invalidateLut_pos : (invalidateLut s).pos = s.pos := rfl
@[simp] theorem invalidateLut_observed : (invalidateLut s).observed = s.observed := rfl

@[simp] theorem invalidateDst_cfg : (invalidateDst s).cfg = s.cfg := rfl
@[simp] theorem invalidateDst_status : (invalidateDst s).status = { s.status with dstValid := false } := rfl
@[simp] theorem invalidateDst_error : (invalidateDst s).error = s.error := rfl
@[simp] theorem invalidateDst_srcWidth : (invalidateDst s).srcWidth = s.srcWidth := rfl
@[simp] theorem invalidateDst_srcHeight : (invalidateDst s).srcHeight = s.srcHeight := rfl
@[simp] theorem invalidateDst_srcBpp : (invalidateDst s).srcBpp = s.srcBpp := rfl
@[simp] theorem invalidateDst_row : (invalidateDst s).row = s.row := rfl
@[simp] theorem invalidateDst_col : (invalidateDst s).col = s.col := rfl
@[simp] theorem invalidateDst_color : (invalidateDst s).color = s.color := rfl
@[simp] theorem invalidateDst_index : (invalidateDst s).index = s.index := rfl
@[simp] theorem invalidateDst_ncolors : (invalidateDst s).ncolors = s.ncolors := rfl
@[simp] theorem invalidateDst_bpp : (invalidateDst s).bpp = s.bpp := rfl
@[simp] theorem invalidateDst_dstWidth : (invalidateDst s).dstWidth = 0 := rfl
@[simp] theorem invalidateDst_dstHeight : (invalidateDst s).dstHeight = 0 := rfl
@[simp] theorem invalidateDst_dstBpp : (invalidateDst s).dstBpp = 0 := rfl
@[simp] theorem invalidateDst_dstSize : (invalidateDst s).dstSize = 0 := rfl
@[simp] theorem invalidateDst_palSize : (invalidateDst s).palSize = 0 := rfl
@[simp] theorem invalidateDst_lut : (invalidateDst s).lut = s.lut := rfl
@[simp] theorem invalidateDst_src : (invalidateDst s).src = s.src := rfl
@[simp] theorem invalidateDst_dst : (invalidateDst s).dst = [] := rfl
@[simp] theorem invalidateDst_pal : (invalidateDst s).pal = s.pal := rfl
@[simp] theorem invalidateDst_srcEpoch : (invalidateDst s).srcEpoch = s.srcEpoch := rfl
@[simp] theorem invalidateDst_draws : (invalidateDst s).draws = s.draws := rfl
@[simp] theorem invalidateDst_script : (invalidateDst s).script = s.script := rfl
@[simp] theorem invalidateDst_pos : (invalidateDst s).pos = s.pos := rfl
@[simp] theorem invalidateDst_observed : (invalidateDst s).observed = s.observed := rfl

@[simp] theorem raise_cfg (kind : ErrorKind) (op : Byte) : (raise kind op s).cfg = s.cfg := rfl
@[simp] theorem raise_status (kind : ErrorKind) (op : Byte) :
    (raise kind op s).status = { s.status with err := true, done := false, busy := false } := rfl
@[simp] theorem raise_error (kind : ErrorKind) (op : Byte) : (raise kind op s).error = ⟨op, kind.code⟩ := rfl
@[simp] theorem raise_srcWidth (kind : ErrorKind) (op : Byte) : (raise kind op s).srcWidth = s.srcWidth := rfl
@[simp] theorem raise_srcHeight (kind : ErrorKind) (op : Byte) : (raise kind op s).srcHeight = s.srcHeight := rfl
@[simp] theorem raise_srcBpp (kind : ErrorKind) (op : Byte) : (raise kind op s).srcBpp = s.srcBpp := rfl
@[simp] theorem raise_row (kind : ErrorKind) (op : Byte) : (raise kind op s).row = s.row := rfl
@[simp] theorem raise_col (kind : ErrorKind) (op : Byte) : (raise kind op s).col = s.col := rfl
@[simp] theorem raise_color (kind : ErrorKind) (op : Byte) : (raise kind op s).color = s.color := rfl
@[simp] theorem raise_index (kind : ErrorKind) (op : Byte) : (raise kind op s).index = s.index := rfl
@[simp] theorem raise_ncolors (kind : ErrorKind) (op : Byte) : (raise kind op s).ncolors = s.ncolors := rfl
@[simp] theorem raise_bpp (kind : ErrorKind) (op : Byte) : (raise kind op s).bpp = s.bpp := rfl
@[simp] theorem raise_dstWidth (kind : ErrorKind) (op : Byte) : (raise kind op s).dstWidth = s.dstWidth := rfl
@[simp] theorem raise_dstHeight (kind : ErrorKind) (op : Byte) : (raise kind op s).dstHeight = s.dstHeight := rfl
@[simp] theorem raise_dstBpp (kind : ErrorKind) (op : Byte) : (raise kind op s).dstBpp = s.dstBpp := rfl
@[simp] theorem raise_dstSize (kind : ErrorKind) (op : Byte) : (raise kind op s).dstSize = s.dstSize := rfl
@[simp] theorem raise_palSize (kind : ErrorKind) (op : Byte) : (raise kind op s).palSize = s.palSize := rfl
@[simp] theorem raise_lut (kind : ErrorKind) (op : Byte) : (raise kind op s).lut = s.lut := rfl
@[simp] theorem raise_src (kind : ErrorKind) (op : Byte) : (raise kind op s).src = s.src := rfl
@[simp] theorem raise_dst (kind : ErrorKind) (op : Byte) : (raise kind op s).dst = s.dst := rfl
@[simp] theorem raise_pal (kind : ErrorKind) (op : Byte) : (raise kind op s).pal = s.pal := rfl
@[simp] theorem raise_srcEpoch (kind : ErrorKind) (op : Byte) : (raise kind op s).srcEpoch = s.srcEpoch := rfl
@[simp] theorem raise_draws (kind : ErrorKind) (op : Byte) : (raise kind op s).draws = s.draws := rfl
@[simp] theorem raise_script (kind : ErrorKind) (op : Byte) : (raise kind op s).script = s.script := rfl
@[simp] theorem raise_pos (kind : ErrorKind) (op : Byte) : (raise kind op s).pos = s.pos := rfl
@[simp] theorem raise_observed (kind : ErrorKind) (op : Byte) : (raise kind op s).observed = s.observed := rfl

@[simp] theorem resetEngine_cfg : (resetEngine s).cfg = s.cfg := rfl
@[simp] theorem resetEngine_status : (resetEngine s).status = ⟨false, false, false, false, false⟩ := rfl
@[simp] theorem resetEngine_error : (resetEngine s).error = ⟨0, 0⟩ := rfl
@[simp] theorem resetEngine_srcWidth : (resetEngine s).srcWidth = 0 := rfl
@[simp] theorem resetEngine_srcHeight : (resetEngine s).srcHeight = 0 := rfl
@[simp] theorem resetEngine_srcBpp : (resetEngine s).srcBpp = 0 := rfl
@[simp] theorem resetEngine_row : (resetEngine s).row = 0 := rfl
@[simp] theorem resetEngine_col : (resetEngine s).col = 0 := rfl
@[simp] theorem resetEngine_color : (resetEngine s).color = 0 := rfl
@[simp] theorem resetEngine_index : (resetEngine s).index = ⟨false, 0⟩ := rfl
@[simp] theorem resetEngine_ncolors : (resetEngine s).ncolors = 0 := rfl
@[simp] theorem resetEngine_bpp : (resetEngine s).bpp = 0 := rfl
@[simp] theorem resetEngine_dstWidth : (resetEngine s).dstWidth = 0 := rfl
@[simp] theorem resetEngine_dstHeight : (resetEngine s).dstHeight = 0 := rfl
@[simp] theorem resetEngine_dstBpp : (resetEngine s).dstBpp = 0 := rfl
@[simp] theorem resetEngine_dstSize : (resetEngine s).dstSize = 0 := rfl
@[simp] theorem resetEngine_palSize : (resetEngine s).palSize = 0 := rfl
@[simp] theorem resetEngine_lut : (resetEngine s).lut = [] := rfl
@[simp] theorem resetEngine_src : (resetEngine s).src = [] := rfl
@[simp] theorem resetEngine_dst : (resetEngine s).dst = [] := rfl
@[simp] theorem resetEngine_pal : (resetEngine s).pal = [] := rfl
@[simp] theorem resetEngine_srcEpoch : (resetEngine s).srcEpoch = s.srcEpoch + 1 := rfl
@[simp] theorem resetEngine_draws : (resetEngine s).draws = s.draws := rfl
@[simp] theorem resetEngine_script : (resetEngine s).script = s.script := rfl
@[simp] theorem resetEngine_pos : (resetEngine s).pos = s.pos := rfl
@[simp] theorem resetEngine_observed : (resetEngine s).observed = s.observed := rfl

@[simp] theorem installTable_cfg (table : List Key) : (installTable table s).cfg = s.cfg := rfl
@[simp] theorem installTable_status (table : List Key) :
    (installTable table s).status = { s.status with lutValid := true } := rfl
@[simp] theorem installTable_error (table : List Key) : (installTable table s).error = s.error := rfl
@[simp] theorem installTable_srcWidth (table : List Key) : (installTable table s).srcWidth = s.srcWidth := rfl
@[simp] theorem installTable_srcHeight (table : List Key) : (installTable table s).srcHeight = s.srcHeight := rfl
@[simp] theorem installTable_srcBpp (table : List Key) : (installTable table s).srcBpp = s.srcBpp := rfl
@[simp] theorem installTable_row (table : List Key) : (installTable table s).row = s.row := rfl
@[simp] theorem installTable_col (table : List Key) : (installTable table s).col = s.col := rfl
@[simp] theorem installTable_color (table : List Key) : (installTable table s).color = s.color := rfl
@[simp] theorem installTable_index (table : List Key) : (installTable table s).index = s.index := rfl
@[simp] theorem installTable_ncolors (table : List Key) :
    (installTable table s).ncolors = BitVec.ofNat 9 table.length := rfl
@[simp] theorem installTable_bpp (table : List Key) : (installTable table s).bpp = s.bpp := rfl
@[simp] theorem installTable_dstWidth (table : List Key) : (installTable table s).dstWidth = s.dstWidth := rfl
@[simp] theorem installTable_dstHeight (table : List Key) : (installTable table s).dstHeight = s.dstHeight := rfl
@[simp] theorem installTable_dstBpp (table : List Key) : (installTable table s).dstBpp = s.dstBpp := rfl
@[simp] theorem installTable_dstSize (table : List Key) : (installTable table s).dstSize = s.dstSize := rfl
@[simp] theorem installTable_palSize (table : List Key) : (installTable table s).palSize = s.palSize := rfl
@[simp] theorem installTable_lut (table : List Key) : (installTable table s).lut = table := rfl
@[simp] theorem installTable_src (table : List Key) : (installTable table s).src = s.src := rfl
@[simp] theorem installTable_dst (table : List Key) : (installTable table s).dst = s.dst := rfl
@[simp] theorem installTable_pal (table : List Key) :
    (installTable table s).pal = Memory.write s.pal 0 (paletteBytes table) := rfl
@[simp] theorem installTable_srcEpoch (table : List Key) : (installTable table s).srcEpoch = s.srcEpoch := rfl
@[simp] theorem installTable_draws (table : List Key) : (installTable table s).draws = s.draws := rfl
@[simp] theorem installTable_script (table : List Key) : (installTable table s).script = s.script := rfl
@[simp] theorem installTable_pos (table : List Key) : (installTable table s).pos = s.pos := rfl
@[simp] theorem installTable_observed (table : List Key) : (installTable table s).observed = s.observed := rfl

@[simp] theorem packStage_cfg (b : Nat) : (packStage b s).cfg = s.cfg := rfl
@[simp] theorem packStage_status (b : Nat) : (packStage b s).status = { s.status with dstValid := true } := rfl
@[simp] theorem packStage_error (b : Nat) : (packStage b s).error = s.error := rfl
@[simp] theorem packStage_srcWidth (b : Nat) : (packStage b s).srcWidth = s.srcWidth := rfl
@[simp] theorem packStage_srcHeight (b : Nat) : (packStage b s).srcHeight = s.srcHeight := rfl
@[simp] theorem packStage_srcBpp (b : Nat) : (packStage b s).srcBpp = s.srcBpp := rfl
@[simp] theorem packStage_row (b : Nat) : (packStage b s).row = s.row := rfl
@[simp] theorem packStage_col (b : Nat) : (packStage b s).col = s.col := rfl
@[simp] theorem packStage_color (b : Nat) : (packStage b s).color = s.color := rfl
@[simp] theorem packStage_index (b : Nat) : (packStage b s).index = s.index := rfl
@[simp] theorem packStage_ncolors (b : Nat) : (packStage b s).ncolors = s.ncolors := rfl
@[simp] theorem packStage_bpp (b : Nat) : (packStage b s).bpp = s.bpp := rfl
@[simp] theorem packStage_dstWidth (b : Nat) : (packStage b s).dstWidth = s.srcWidth := rfl
@[simp] theorem packStage_dstHeight (b : Nat) : (packStage b s).dstHeight = s.srcHeight := rfl
@[simp] theorem packStage_dstBpp (b : Nat) : (packStage b s).dstBpp = BitVec.ofNat 32 b := rfl
@[simp] theorem packStage_dstSize (b : Nat) : (packStage b s).dstSize = BitVec.ofNat 32 (outputSize s b) := rfl
@[simp] theorem packStage_palSize (b : Nat) : (packStage b s).palSize = BitVec.ofNat 32 (3 * 2 ^ b) := rfl
@[simp] theorem packStage_lut (b : Nat) : (packStage b s).lut = s.lut := rfl
@[simp] theorem packStage_src (b : Nat) : (packStage b s).src = s.src := rfl
@[simp] theorem packStage_dst (b : Nat) : (packStage b s).dst = Memory.write [] 0 (packedBuffer s b) := rfl
@[simp] theorem packStage_pal (b : Nat) : (packStage b s).pal = s.pal := rfl
@[simp] theorem packStage_srcEpoch (b : Nat) : (packStage b s).srcEpoch = s.srcEpoch := rfl
@[simp] theorem packStage_draws (b : Nat) : (packStage b s).draws = s.draws := rfl
@[simp] theorem packStage_script (b : Nat) : (packStage b s).script = s.script := rfl
@[simp] theorem packStage_pos (b : Nat) : (packStage b s).pos = s.pos := rfl
@[simp] theorem packStage_observed (b : Nat) : (packStage b s).observed = s.observed := rfl

@[simp] theorem observeReg_cfg (off : Nat) (w : Word) : (observeReg off w s).cfg = s.cfg := rfl
@[simp] theorem observeReg_status (off : Nat) (w : Word) : (observeReg off w s).status = s.status := rfl
@[simp] theorem observeReg_error (off : Nat) (w : Word) : (observeReg off w s).error = s.error := rfl
@[simp] theorem observeReg_srcWidth (off : Nat) (w : Word) : (observeReg off w s).srcWidth = s.srcWidth := rfl
@[simp] theorem observeReg_srcHeight (off : Nat) (w : Word) : (observeReg off w s).srcHeight = s.srcHeight := rfl
@[simp] theorem observeReg_srcBpp (off : Nat) (w : Word) : (observeReg off w s).srcBpp = s.srcBpp := rfl
@[simp] theorem observeReg_row (off : Nat) (w : Word) : (observeReg off w s).row = s.row := rfl
@[simp] theorem observeReg_col (off : Nat) (w : Word) : (observeReg off w s).col = s.col := rfl
@[simp] theorem observeReg_color (off : Nat) (w : Word) : (observeReg off w s).color = s.color := rfl
@[simp] theorem observeReg_index (off : Nat) (w : Word) : (observeReg off w s).index = s.index := rfl
@[simp] theorem observeReg_ncolors (off : Nat) (w : Word) : (observeReg off w s).ncolors = s.ncolors := rfl
@[simp] theorem observeReg_bpp (off : Nat) (w : Word) : (observeReg off w s).bpp = s.bpp := rfl
@[simp] theorem observeReg_dstWidth (off : Nat) (w : Word) : (observeReg off w s).dstWidth = s.dstWidth := rfl
@[simp] theorem observeReg_dstHeight (off : Nat) (w : Word) : (observeReg off w s).dstHeight = s.dstHeight := rfl
@[simp] theorem observeReg_dstBpp (off : Nat) (w : Word) : (observeReg off w s).dstBpp = s.dstBpp := rfl
@[simp] theorem observeReg_dstSize (off : Nat) (w : Word) : (observeReg off w s).dstSize = s.dstSize := rfl
@[simp] theorem observeReg_palSize (off : Nat) (w : Word) : (observeReg off w s).palSize = s.palSize := rfl
@[simp] theorem observeReg_lut (off : Nat) (w : Word) : (observeReg off w s).lut = s.lut := rfl
@[simp] theorem observeReg_src (off : Nat) (w : Word) : (observeReg off w s).src = s.src := rfl
@[simp] theorem observeReg_dst (off : Nat) (w : Word) : (observeReg off w s).dst = s.dst := rfl
@[simp] theorem observeReg_pal (off : Nat) (w : Word) : (observeReg off w s).pal = s.pal := rfl
@[simp] theorem observeReg_srcEpoch (off : Nat) (w : Word) : (observeReg off w s).srcEpoch = s.srcEpoch := rfl
@[simp] theorem observeReg_draws (off : Nat) (w : Word) : (observeReg off w s).draws = s.draws := rfl
@[simp] theorem observeReg_script (off : Nat) (w : Word) : (observeReg off w s).script = s.script := rfl
@[simp] theorem observeReg_pos (off : Nat) (w : Word) : (observeReg off w s).pos = s.pos := rfl
@[simp] theorem observeReg_observed (off : Nat) (w : Word) :
    (observeReg off w s).observed = .reg off w :: s.observed := rfl

@[simp] theorem observeByte_cfg (sp : BufferSpace) (off : Nat) (b : Byte) :
    (observeByte sp off b s).cfg = s.cfg := rfl
@[simp] theorem observeByte_status (sp : BufferSpace) (off : Nat) (b : Byte) :
    (observeByte sp off b s).status = s.status := rfl
@[simp] theorem observeByte_error (sp : BufferSpace) (off : Nat) (b : Byte) :
    (observeByte sp off b s).error = s.error := rfl
@[simp] theorem observeByte_srcWidth (sp : BufferSpace) (off : Nat) (b : Byte) :
    (observeByte sp off b s).srcWidth = s.srcWidth := rfl
@[simp] theorem observeByte_srcHeight (sp : BufferSpace) (off : Nat) (b : Byte) :
    (observeByte sp off b s).srcHeight = s.srcHeight := rfl
@[simp] theorem observeByte_srcBpp (sp : BufferSpace) (off : Nat) (b : Byte) :
    (observeByte sp off b s).srcBpp = s.srcBpp := rfl
@[simp] theorem observeByte_row (sp : BufferSpace) (off : Nat) (b : Byte) :
    (observeByte sp off b s).row = s.row := rfl
@[simp] theorem observeByte_col (sp : BufferSpace) (off : Nat) (b : Byte) :
    (observeByte sp off b s).col = s.col := rfl
@[simp] theorem observeByte_color (sp : BufferSpace) (off : Nat) (b : Byte) :
    (observeByte sp off b s).color = s.color := rfl
@[simp] theorem observeByte_index (sp : BufferSpace) (off : Nat) (b : Byte) :
    (observeByte sp off b s).index = s.index := rfl
@[simp] theorem observeByte_ncolors (sp : BufferSpace) (off : Nat) (b : Byte) :
    (observeByte sp off b s).ncolors = s.ncolors := rfl
@[simp] theorem observeByte_bpp (sp : BufferSpace) (off : Nat) (b : Byte) :
    (observeByte sp off b s).bpp = s.bpp := rfl
@[simp] theorem observeByte_dstWidth (sp : BufferSpace) (off : Nat) (b : Byte) :
    (observeByte sp off b s).dstWidth = s.dstWidth := rfl
@[simp] theorem observeByte_dstHeight (sp : BufferSpace) (off : Nat) (b : Byte) :
    (observeByte sp off b s).dstHeight = s.dstHeight := rfl
@[simp] theorem observeByte_dstBpp (sp : BufferSpace) (off : Nat) (b : Byte) :
    (observeByte sp off b s).dstBpp = s.dstBpp := rfl
@[simp] theorem observeByte_dstSize (sp : BufferSpace) (off : Nat) (b : Byte) :
    (observeByte sp off b s).dstSize = s.dstSize := rfl
@[simp] theorem observeByte_palSize (sp : BufferSpace) (off : Nat) (b : Byte) :
    (observeByte sp off b s).palSize = s.palSize := rfl
@[simp] theorem observeByte_lut (sp : BufferSpace) (off : Nat) (b : Byte) :
    (observeByte sp off b s).lut = s.lut := rfl
@[simp] theorem observeByte_src (sp : BufferSpace) (off : Nat) (b : Byte) :
    (observeByte sp off b s).src = s.src := rfl
@[simp] theorem observeByte_dst (sp : BufferSpace) (off : Nat) (b : Byte) :
    (observeByte sp off b s).dst = s.dst := rfl
@[simp] theorem observeByte_pal (sp : BufferSpace) (off : Nat) (b : Byte) :
    (observeByte sp off b s).pal = s.pal := rfl
@[simp] theorem observeByte_srcEpoch (sp : BufferSpace) (off : Nat) (b : Byte) :
    (observeByte sp off b s).srcEpoch = s.srcEpoch := rfl
@[simp] theorem observeByte_draws (sp : BufferSpace) (off : Nat) (b : Byte) :
    (observeByte sp off b s).draws = s.draws := rfl
@[simp] theorem observeByte_script (sp : BufferSpace) (off : Nat) (b : Byte) :
    (observeByte sp off b s).script = s.script := rfl
@[simp] theorem observeByte_pos (sp : BufferSpace) (off : Nat) (b : Byte) :
    (observeByte sp off b s).pos = s.pos := rfl
@[simp] theorem observeByte_observed (sp : BufferSpace) (off : Nat) (b : Byte) :
    (observeByte sp off b s).observed = .byte sp off b :: s.observed := rfl

@[simp] theorem drawWord_cfg (off : Nat) : (drawWord off s).cfg = s.cfg := rfl
@[simp] theorem drawWord_status (off : Nat) : (drawWord off s).status = s.status := rfl
@[simp] theorem drawWord_error (off : Nat) : (drawWord off s).error = s.error := rfl
@[simp] theorem drawWord_srcWidth (off : Nat) : (drawWord off s).srcWidth = s.srcWidth := rfl
@[simp] theorem drawWord_srcHeight (off : Nat) : (drawWord off s).srcHeight = s.srcHeight := rfl
@[simp] theorem drawWord_srcBpp (off : Nat) : (drawWord off s).srcBpp = s.srcBpp := rfl
@[simp] theorem drawWord_row (off : Nat) : (drawWord off s).row = s.row := rfl
@[simp] theorem drawWord_col (off : Nat) : (drawWord off s).col = s.col := rfl
@[simp] theorem drawWord_color (off : Nat) : (drawWord off s).color = s.color := rfl
@[simp] theorem drawWord_index (off : Nat) : (drawWord off s).index = s.index := rfl
@[simp] theorem drawWord_ncolors (off : Nat) : (drawWord off s).ncolors = s.ncolors := rfl
@[simp] theorem drawWord_bpp (off : Nat) : (drawWord off s).bpp = s.bpp := rfl
@[simp] theorem drawWord_dstWidth (off : Nat) : (drawWord off s).dstWidth = s.dstWidth := rfl
@[simp] theorem drawWord_dstHeight (off : Nat) : (drawWord off s).dstHeight = s.dstHeight := rfl
@[simp] theorem drawWord_dstBpp (off : Nat) : (drawWord off s).dstBpp = s.dstBpp := rfl
@[simp] theorem drawWord_dstSize (off : Nat) : (drawWord off s).dstSize = s.dstSize := rfl
@[simp] theorem drawWord_palSize (off : Nat) : (drawWord off s).palSize = s.palSize := rfl
@[simp] theorem drawWord_lut (off : Nat) : (drawWord off s).lut = s.lut := rfl
@[simp] theorem drawWord_src (off : Nat) : (drawWord off s).src = s.src := rfl
@[simp] theorem drawWord_dst (off : Nat) : (drawWord off s).dst = s.dst := rfl
@[simp] theorem drawWord_pal (off : Nat) : (drawWord off s).pal = s.pal := rfl
@[simp] theorem drawWord_srcEpoch (off : Nat) : (drawWord off s).srcEpoch = s.srcEpoch := rfl
@[simp] theorem drawWord_draws (off : Nat) : (drawWord off s).draws = s.draws + 1 := rfl
@[simp] theorem drawWord_script (off : Nat) : (drawWord off s).script = s.script := rfl
@[simp] theorem drawWord_pos (off : Nat) : (drawWord off s).pos = s.pos := rfl
@[simp] theorem drawWord_observed (off : Nat) :
    (drawWord off s).observed = .reg off (Config.unspecifiedWord s.draws) :: s.observed := rfl

@[simp] theorem drawByte_cfg (sp : BufferSpace) (off : Nat) : (drawByte sp off s).cfg = s.cfg := rfl
@[simp] theorem drawByte_status (sp : BufferSpace) (off : Nat) : (drawByte sp off s).status = s.status := rfl
@[simp] theorem drawByte_error (sp : BufferSpace) (off : Nat) : (drawByte sp off s).error = s.error := rfl
@[simp] theorem drawByte_srcWidth (sp : BufferSpace) (off : Nat) : (drawByte sp off s).srcWidth = s.srcWidth := rfl
@[simp] theorem drawByte_srcHeight (sp : BufferSpace) (off : Nat) : (drawByte sp off s).srcHeight = s.srcHeight := rfl
@[simp] theorem drawByte_srcBpp (sp : BufferSpace) (off : Nat) : (drawByte sp off s).srcBpp = s.srcBpp := rfl
@[simp] theorem drawByte_row (sp : BufferSpace) (off : Nat) : (drawByte sp off s).row = s.row := rfl
@[simp] theorem drawByte_col (sp : BufferSpace) (off : Nat) : (drawByte sp off s).col = s.col := rfl
@[simp] theorem drawByte_color (sp : BufferSpace) (off : Nat) : (drawByte sp off s).color = s.color := rfl
@[simp] theorem drawByte_index (sp : BufferSpace) (off : Nat) : (drawByte sp off s).index = s.index := rfl
@[simp] theorem drawByte_ncolors (sp : BufferSpace) (off : Nat) : (drawByte sp off s).ncolors = s.ncolors := rfl
@[simp] theorem drawByte_bpp (sp : BufferSpace) (off : Nat) : (drawByte sp off s).bpp = s.bpp := rfl
@[simp] theorem drawByte_dstWidth (sp : BufferSpace) (off : Nat) : (drawByte sp off s).dstWidth = s.dstWidth := rfl
@[simp] theorem drawByte_dstHeight (sp : BufferSpace) (off : Nat) : (drawByte sp off s).dstHeight = s.dstHeight := rfl
@[simp] theorem drawByte_dstBpp (sp : BufferSpace) (off : Nat) : (drawByte sp off s).dstBpp = s.dstBpp := rfl
@[simp] theorem drawByte_dstSize (sp : BufferSpace) (off : Nat) : (drawByte sp off s).dstSize = s.dstSize := rfl
@[simp] theorem drawByte_palSize (sp : BufferSpace) (off : Nat) : (drawByte sp off s).palSize = s.palSize := rfl
@[simp] theorem drawByte_lut (sp : BufferSpace) (off : Nat) : (drawByte sp off s).lut = s.lut := rfl
@[simp] theorem drawByte_src (sp : BufferSpace) (off : Nat) : (drawByte sp off s).src = s.src := rfl
@[simp] theorem drawByte_dst (sp : BufferSpace) (off : Nat) : (drawByte sp off s).dst = s.dst := rfl
@[simp] theorem drawByte_pal (sp : BufferSpace) (off : Nat) : (drawByte sp off s).pal = s.pal := rfl
@[simp] theorem drawByte_srcEpoch (sp : BufferSpace) (off : Nat) : (drawByte sp off s).srcEpoch = s.srcEpoch := rfl
@[simp] theorem drawByte_draws (sp : BufferSpace) (off : Nat) : (drawByte sp off s).draws = s.draws + 1 := rfl
@[simp] theorem drawByte_script (sp : BufferSpace) (off : Nat) : (drawByte sp off s).script = s.script := rfl
@[simp] theorem drawByte_pos (sp : BufferSpace) (off : Nat) : (drawByte sp off s).pos = s.pos := rfl
@[simp] theorem drawByte_observed (sp : BufferSpace) (off : Nat) :
    (drawByte sp off s).observed = .byte sp off (Config.unspecifiedByte s.draws) :: s.observed := rfl

@[simp] theorem storeSrcByte_cfg (off : Nat) (b : Byte) : (storeSrcByte off b s).cfg = s.cfg := rfl
@[simp] theorem storeSrcByte_status (off : Nat) (b : Byte) :
    (storeSrcByte off b s).status = { s.status with lutValid := false } := rfl
@[simp] theorem storeSrcByte_error (off : Nat) (b : Byte) : (storeSrcByte off b s).error = s.error := rfl
@[simp] theorem storeSrcByte_srcWidth (off : Nat) (b : Byte) : (storeSrcByte off b s).srcWidth = s.srcWidth := rfl
@[simp] theorem storeSrcByte_srcHeight (off : Nat) (b : Byte) : (storeSrcByte off b s).srcHeight = s.srcHeight := rfl
@[simp] theorem storeSrcByte_srcBpp (off : Nat) (b : Byte) : (storeSrcByte off b s).srcBpp = s.srcBpp := rfl
@[simp] theorem storeSrcByte_row (off : Nat) (b : Byte) : (storeSrcByte off b s).row = s.row := rfl
@[simp] theorem storeSrcByte_col (off : Nat) (b : Byte) : (storeSrcByte off b s).col = s.col := rfl
@[simp] theorem storeSrcByte_color (off : Nat) (b : Byte) : (storeSrcByte off b s).color = s.color := rfl
@[simp] theorem storeSrcByte_index (off : Nat) (b : Byte) : (storeSrcByte off b s).index = ⟨false, 0⟩ := rfl
@[simp] theorem storeSrcByte_ncolors (off : Nat) (b : Byte) : (storeSrcByte off b s).ncolors = 0 := rfl
@[simp] theorem storeSrcByte_bpp (off : Nat) (b : Byte) : (storeSrcByte off b s).bpp = s.bpp := rfl
@[simp] theorem storeSrcByte_dstWidth (off : Nat) (b : Byte) : (storeSrcByte off b s).dstWidth = s.dstWidth := rfl
@[simp] theorem storeSrcByte_dstHeight (off : Nat) (b : Byte) : (storeSrcByte off b s).dstHeight = s.dstHeight := rfl
@[simp] theorem storeSrcByte_dstBpp (off : Nat) (b : Byte) : (storeSrcByte off b s).dstBpp = s.dstBpp := rfl
@[simp] theorem storeSrcByte_dstSize (off : Nat) (b : Byte) : (storeSrcByte off b s).dstSize = s.dstSize := rfl
@[simp] theorem storeSrcByte_palSize (off : Nat) (b : Byte) : (storeSrcByte off b s).palSize = s.palSize := rfl
@[simp] theorem storeSrcByte_lut (off : Nat) (b : Byte) : (storeSrcByte off b s).lut = [] := rfl
@[simp] theorem storeSrcByte_src (off : Nat) (b : Byte) :
    (storeSrcByte off b s).src = Memory.write s.src off [b] := rfl
@[simp] theorem storeSrcByte_dst (off : Nat) (b : Byte) : (storeSrcByte off b s).dst = s.dst := rfl
@[simp] theorem storeSrcByte_pal (off : Nat) (b : Byte) : (storeSrcByte off b s).pal = s.pal := rfl
@[simp] theorem storeSrcByte_srcEpoch (off : Nat) (b : Byte) : (storeSrcByte off b s).srcEpoch = s.srcEpoch := rfl
@[simp] theorem storeSrcByte_draws (off : Nat) (b : Byte) : (storeSrcByte off b s).draws = s.draws := rfl
@[simp] theorem storeSrcByte_script (off : Nat) (b : Byte) : (storeSrcByte off b s).script = s.script := rfl
@[simp] theorem storeSrcByte_pos (off : Nat) (b : Byte) : (storeSrcByte off b s).pos = s.pos := rfl
@[simp] theorem storeSrcByte_observed (off : Nat) (b : Byte) : (storeSrcByte off b s).observed = s.observed := rfl

@[simp] theorem observeNumber_cfg (sp : BufferSpace) (off n : Nat) : (observeNumber sp off n s).cfg = s.cfg := rfl
@[simp] theorem observeNumber_status (sp : BufferSpace) (off n : Nat) :
    (observeNumber sp off n s).status = s.status := rfl
@[simp] theorem observeNumber_error (sp : BufferSpace) (off n : Nat) :
    (observeNumber sp off n s).error = s.error := rfl
@[simp] theorem observeNumber_srcWidth (sp : BufferSpace) (off n : Nat) :
    (observeNumber sp off n s).srcWidth = s.srcWidth := rfl
@[simp] theorem observeNumber_srcHeight (sp : BufferSpace) (off n : Nat) :
    (observeNumber sp off n s).srcHeight = s.srcHeight := rfl
@[simp] theorem observeNumber_srcBpp (sp : BufferSpace) (off n : Nat) :
    (observeNumber sp off n s).srcBpp = s.srcBpp := rfl
@[simp] theorem observeNumber_row (sp : BufferSpace) (off n : Nat) : (observeNumber sp off n s).row = s.row := rfl
@[simp] theorem observeNumber_col (sp : BufferSpace) (off n : Nat) : (observeNumber sp off n s).col = s.col := rfl
@[simp] theorem observeNumber_color (sp : BufferSpace) (off n : Nat) :
    (observeNumber sp off n s).color = s.color := rfl
@[simp] theorem observeNumber_index (sp : BufferSpace) (off n : Nat) :
    (observeNumber sp off n s).index = s.index := rfl
@[simp] theorem observeNumber_ncolors (sp : BufferSpace) (off n : Nat) :
    (observeNumber sp off n s).ncolors = s.ncolors := rfl
@[simp] theorem observeNumber_bpp (sp : BufferSpace) (off n : Nat) : (observeNumber sp off n s).bpp = s.bpp := rfl
@[simp] theorem observeNumber_dstWidth (sp : BufferSpace) (off n : Nat) :
    (observeNumber sp off n s).dstWidth = s.dstWidth := rfl
@[simp] theorem observeNumber_dstHeight (sp : BufferSpace) (off n : Nat) :
    (observeNumber sp off n s).dstHeight = s.dstHeight := rfl
@[simp] theorem observeNumber_dstBpp (sp : BufferSpace) (off n : Nat) :
    (observeNumber sp off n s).dstBpp = s.dstBpp := rfl
@[simp] theorem observeNumber_dstSize (sp : BufferSpace) (off n : Nat) :
    (observeNumber sp off n s).dstSize = s.dstSize := rfl
@[simp] theorem observeNumber_palSize (sp : BufferSpace) (off n : Nat) :
    (observeNumber sp off n s).palSize = s.palSize := rfl
@[simp] theorem observeNumber_lut (sp : BufferSpace) (off n : Nat) : (observeNumber sp off n s).lut = s.lut := rfl
@[simp] theorem observeNumber_src (sp : BufferSpace) (off n : Nat) : (observeNumber sp off n s).src = s.src := rfl
@[simp] theorem observeNumber_dst (sp : BufferSpace) (off n : Nat) : (observeNumber sp off n s).dst = s.dst := rfl
@[simp] theorem observeNumber_pal (sp : BufferSpace) (off n : Nat) : (observeNumber sp off n s).pal = s.pal := rfl
@[simp] theorem observeNumber_srcEpoch (sp : BufferSpace) (off n : Nat) :
    (observeNumber sp off n s).srcEpoch = s.srcEpoch := rfl
@[simp] theorem observeNumber_draws (sp : BufferSpace) (off n : Nat) :
    (observeNumber sp off n s).draws = s.draws := rfl
@[simp] theorem observeNumber_script (sp : BufferSpace) (off n : Nat) :
    (observeNumber sp off n s).script = s.script := rfl
@[simp] theorem observeNumber_pos (sp : BufferSpace) (off n : Nat) : (observeNumber sp off n s).pos = s.pos := rfl
@[simp] theorem observeNumber_observed (sp : BufferSpace) (off n : Nat) :
    (observeNumber sp off n s).observed = .number sp off n (ofLeBytes (lastBytes n s.observed)) :: s.observed := rfl

@[simp] theorem advance_cfg : (advance s).cfg = s.cfg := rfl
@[simp] theorem advance_status : (advance s).status = s.status := rfl
@[simp] theorem advance_error : (advance s).error = s.error := rfl
@[simp] theorem advance_srcWidth : (advance s).srcWidth = s.srcWidth := rfl
@[simp] theorem advance_srcHeight : (advance s).srcHeight = s.srcHeight := rfl
@[simp] theorem advance_srcBpp : (advance s).srcBpp = s.srcBpp := rfl
@[simp] theorem advance_row : (advance s).row = s.row := rfl
@[simp] theorem advance_col : (advance s).col = s.col := rfl
@[simp] theorem advance_color : (advance s).color = s.color := rfl
@[simp] theorem advance_index : (advance s).index = s.index := rfl
@[simp] theorem advance_ncolors : (advance s).ncolors = s.ncolors := rfl
@[simp] theorem advance_bpp : (advance s).bpp = s.bpp := rfl
@[simp] theorem advance_dstWidth : (advance s).dstWidth = s.dstWidth := rfl
@[simp] theorem advance_dstHeight : (advance s).dstHeight = s.dstHeight := rfl
@[simp] theorem advance_dstBpp : (advance s).dstBpp = s.dstBpp := rfl
@[simp] theorem advance_dstSize : (advance s).dstSize = s.dstSize := rfl
@[simp] theorem advance_palSize : (advance s).palSize = s.palSize := rfl
@[simp] theorem advance_lut : (advance s).lut = s.lut := rfl
@[simp] theorem advance_src : (advance s).src = s.src := rfl
@[simp] theorem advance_dst : (advance s).dst = s.dst := rfl
@[simp] theorem advance_pal : (advance s).pal = s.pal := rfl
@[simp] theorem advance_srcEpoch : (advance s).srcEpoch = s.srcEpoch := rfl
@[simp] theorem advance_draws : (advance s).draws = s.draws := rfl
@[simp] theorem advance_script : (advance s).script = s.script := rfl
@[simp] theorem advance_pos : (advance s).pos = s.pos + 1 := rfl
@[simp] theorem advance_observed : (advance s).observed = s.observed := rfl

@[simp] theorem State.recordError_cfg (op code : Byte) : (State.recordError s op code).cfg = s.cfg := rfl
@[simp] theorem State.recordError_status (op code : Byte) :
    (State.recordError s op code).status = { s.status with busy := false, done := false, err := true } := rfl
@[simp] theorem State.recordError_error (op code : Byte) : (State.recordError s op code).error = ⟨op, code⟩ := rfl
@[simp] theorem State.recordError_srcWidth (op code : Byte) :
    (State.recordError s op code).srcWidth = s.srcWidth := rfl
@[simp] theorem State.recordError_srcHeight (op code : Byte) :
    (State.recordError s op code).srcHeight = s.srcHeight := rfl
@[simp] theorem State.recordError_srcBpp (op code : Byte) : (State.recordError s op code).srcBpp = s.srcBpp := rfl
@[simp] theorem State.recordError_row (op code : Byte) : (State.recordError s op code).row = s.row := rfl
@[simp] theorem State.recordError_col (op code : Byte) : (State.recordError s op code).col = s.col := rfl
@[simp] theorem State.recordError_color (op code : Byte) : (State.recordError s op code).color = s.color := rfl
@[simp] theorem State.recordError_index (op code : Byte) : (State.recordError s op code).index = s.index := rfl
@[simp] theorem State.recordError_ncolors (op code : Byte) : (State.recordError s op code).ncolors = s.ncolors := rfl
@[simp] theorem State.recordError_bpp (op code : Byte) : (State.recordError s op code).bpp = s.bpp := rfl
@[simp] theorem State.recordError_dstWidth (op code : Byte) :
    (State.recordError s op code).dstWidth = s.dstWidth := rfl
@[simp] theorem State.recordError_dstHeight (op code : Byte) :
    (State.recordError s op code).dstHeight = s.dstHeight := rfl
@[simp] theorem State.recordError_dstBpp (op code : Byte) : (State.recordError s op code).dstBpp = s.dstBpp := rfl
@[simp] theorem State.recordError_dstSize (op code : Byte) : (State.recordError s op code).dstSize = s.dstSize := rfl
@[simp] theorem State.recordError_palSize (op code : Byte) : (State.recordError s op code).palSize = s.palSize := rfl
@[simp] theorem State.recordError_lut (op code : Byte) : (State.recordError s op code).lut = s.lut := rfl
@[simp] theorem State.recordError_src (op code : Byte) : (State.recordError s op code).src = s.src := rfl
@[simp] theorem State.recordError_dst (op code : Byte) : (State.recordError s op code).dst = s.dst := rfl
@[simp] theorem State.recordError_pal (op code : Byte) : (State.recordError s op code).pal = s.pal := rfl
@[simp] theorem State.recordError_srcEpoch (op code : Byte) :
    (State.recordError s op code).srcEpoch = s.srcEpoch := rfl
@[simp] theorem State.recordError_draws (op code : Byte) : (State.recordError s op code).draws = s.draws := rfl
@[simp] theorem State.recordError_script (op code : Byte) : (State.recordError s op code).script = s.script := rfl
@[simp] theorem State.recordError_pos (op code : Byte) : (State.recordError s op code).pos = s.pos := rfl
@[simp] theorem State.recordError_observed (op code : Byte) :
    (State.recordError s op code).observed = s.observed := rfl

@[simp] theorem State.recordSuccess_cfg : (State.recordSuccess s).cfg = s.cfg := rfl
@[simp] theorem State.recordSuccess_status :
    (State.recordSuccess s).status = { s.status with busy := false, done := true } := rfl
@[simp] theorem State.recordSuccess_error : (State.recordSuccess s).error = s.error := rfl
@[simp] theorem State.recordSuccess_srcWidth : (State.recordSuccess s).srcWidth = s.srcWidth := rfl
@[simp] theorem State.recordSuccess_srcHeight : (State.recordSuccess s).srcHeight = s.srcHeight := rfl
@[simp] theorem State.recordSuccess_srcBpp : (State.recordSuccess s).srcBpp = s.srcBpp := rfl
@[simp] theorem State.recordSuccess_row : (State.recordSuccess s).row = s.row := rfl
@[simp] theorem State.recordSuccess_col : (State.recordSuccess s).col = s.col := rfl
@[simp] theorem State.recordSuccess_color : (State.recordSuccess s).color = s.color := rfl
@[simp] theorem State.recordSuccess_index : (State.recordSuccess s).index = s.index := rfl
@[simp] theorem State.recordSuccess_ncolors : (State.recordSuccess s).ncolors = s.ncolors := rfl
@[simp] theorem State.recordSuccess_bpp : (State.recordSuccess s).bpp = s.bpp := rfl
@[simp] theorem State.recordSuccess_dstWidth : (State.recordSuccess s).dstWidth = s.dstWidth := rfl
@[simp] theorem State.recordSuccess_dstHeight : (State.recordSuccess s).dstHeight = s.dstHeight := rfl
@[simp] theorem State.recordSuccess_dstBpp : (State.recordSuccess s).dstBpp = s.dstBpp := rfl
@[simp] theorem State.recordSuccess_dstSize : (State.recordSuccess s).dstSize = s.dstSize := rfl
@[simp] theorem State.recordSuccess_palSize : (State.recordSuccess s).palSize = s.palSize := rfl
@[simp] theorem State.recordSuccess_lut : (State.recordSuccess s).lut = s.lut := rfl
@[simp] theorem State.recordSuccess_src : (State.recordSuccess s).src = s.src := rfl
@[simp] theorem State.recordSuccess_dst : (State.recordSuccess s).dst = s.dst := rfl
@[simp] theorem State.recordSuccess_pal : (State.recordSuccess s).pal = s.pal := rfl
@[simp] theorem State.recordSuccess_srcEpoch : (State.recordSuccess s).srcEpoch = s.srcEpoch := rfl
@[simp] theorem State.recordSuccess_draws : (State.recordSuccess s).draws = s.draws := rfl
@[simp] theorem State.recordSuccess_script : (State.recordSuccess s).script = s.script := rfl
@[simp] theorem State.recordSuccess_pos : (State.recordSuccess s).pos = s.pos := rfl
@[simp] theorem State.recordSuccess_observed : (State.recordSuccess s).observed = s.observed := rfl

@[simp] theorem State.destroyedByBuild_cfg : (State.destroyedByBuild s).cfg = s.cfg := rfl
@[simp] theorem State.destroyedByBuild_status :
    (State.destroyedByBuild s).status = { s.status with lutValid := false, dstValid := false } := rfl
@[simp] theorem State.destroyedByBuild_error : (State.destroyedByBuild s).error = s.error := rfl
@[simp] theorem State.destroyedByBuild_srcWidth : (State.destroyedByBuild s).srcWidth = s.srcWidth := rfl
@[simp] theorem State.destroyedByBuild_srcHeight : (State.destroyedByBuild s).srcHeight = s.srcHeight := rfl
@[simp] theorem State.destroyedByBuild_srcBpp : (State.destroyedByBuild s).srcBpp = s.srcBpp := rfl
@[simp] theorem State.destroyedByBuild_row : (State.destroyedByBuild s).row = s.row := rfl
@[simp] theorem State.destroyedByBuild_col : (State.destroyedByBuild s).col = s.col := rfl
@[simp] theorem State.destroyedByBuild_color : (State.destroyedByBuild s).color = s.color := rfl
@[simp] theorem State.destroyedByBuild_index : (State.destroyedByBuild s).index = ⟨false, 0⟩ := rfl
@[simp] theorem State.destroyedByBuild_ncolors : (State.destroyedByBuild s).ncolors = 0 := rfl
@[simp] theorem State.destroyedByBuild_bpp : (State.destroyedByBuild s).bpp = s.bpp := rfl
@[simp] theorem State.destroyedByBuild_dstWidth : (State.destroyedByBuild s).dstWidth = 0 := rfl
@[simp] theorem State.destroyedByBuild_dstHeight : (State.destroyedByBuild s).dstHeight = 0 := rfl
@[simp] theorem State.destroyedByBuild_dstBpp : (State.destroyedByBuild s).dstBpp = 0 := rfl
@[simp] theorem State.destroyedByBuild_dstSize : (State.destroyedByBuild s).dstSize = 0 := rfl
@[simp] theorem State.destroyedByBuild_palSize : (State.destroyedByBuild s).palSize = 0 := rfl
@[simp] theorem State.destroyedByBuild_lut : (State.destroyedByBuild s).lut = [] := rfl
@[simp] theorem State.destroyedByBuild_src : (State.destroyedByBuild s).src = s.src := rfl
@[simp] theorem State.destroyedByBuild_dst : (State.destroyedByBuild s).dst = [] := rfl
@[simp] theorem State.destroyedByBuild_pal : (State.destroyedByBuild s).pal = [] := rfl
@[simp] theorem State.destroyedByBuild_srcEpoch : (State.destroyedByBuild s).srcEpoch = s.srcEpoch := rfl
@[simp] theorem State.destroyedByBuild_draws : (State.destroyedByBuild s).draws = s.draws := rfl
@[simp] theorem State.destroyedByBuild_script : (State.destroyedByBuild s).script = s.script := rfl
@[simp] theorem State.destroyedByBuild_pos : (State.destroyedByBuild s).pos = s.pos := rfl
@[simp] theorem State.destroyedByBuild_observed : (State.destroyedByBuild s).observed = s.observed := rfl

@[simp] theorem State.builtWith_cfg (table : List Key) : (State.builtWith s table).cfg = s.cfg := rfl
@[simp] theorem State.builtWith_status (table : List Key) :
    (State.builtWith s table).status = { s.status with lutValid := true, dstValid := false } := rfl
@[simp] theorem State.builtWith_error (table : List Key) : (State.builtWith s table).error = s.error := rfl
@[simp] theorem State.builtWith_srcWidth (table : List Key) : (State.builtWith s table).srcWidth = s.srcWidth := rfl
@[simp] theorem State.builtWith_srcHeight (table : List Key) :
    (State.builtWith s table).srcHeight = s.srcHeight := rfl
@[simp] theorem State.builtWith_srcBpp (table : List Key) : (State.builtWith s table).srcBpp = s.srcBpp := rfl
@[simp] theorem State.builtWith_row (table : List Key) : (State.builtWith s table).row = s.row := rfl
@[simp] theorem State.builtWith_col (table : List Key) : (State.builtWith s table).col = s.col := rfl
@[simp] theorem State.builtWith_color (table : List Key) : (State.builtWith s table).color = s.color := rfl
@[simp] theorem State.builtWith_index (table : List Key) : (State.builtWith s table).index = ⟨false, 0⟩ := rfl
@[simp] theorem State.builtWith_ncolors (table : List Key) :
    (State.builtWith s table).ncolors = BitVec.ofNat 9 table.length := rfl
@[simp] theorem State.builtWith_bpp (table : List Key) : (State.builtWith s table).bpp = s.bpp := rfl
@[simp] theorem State.builtWith_dstWidth (table : List Key) : (State.builtWith s table).dstWidth = 0 := rfl
@[simp] theorem State.builtWith_dstHeight (table : List Key) : (State.builtWith s table).dstHeight = 0 := rfl
@[simp] theorem State.builtWith_dstBpp (table : List Key) : (State.builtWith s table).dstBpp = 0 := rfl
@[simp] theorem State.builtWith_dstSize (table : List Key) : (State.builtWith s table).dstSize = 0 := rfl
@[simp] theorem State.builtWith_palSize (table : List Key) : (State.builtWith s table).palSize = 0 := rfl
@[simp] theorem State.builtWith_lut (table : List Key) : (State.builtWith s table).lut = table := rfl
@[simp] theorem State.builtWith_src (table : List Key) : (State.builtWith s table).src = s.src := rfl
@[simp] theorem State.builtWith_dst (table : List Key) : (State.builtWith s table).dst = [] := rfl
@[simp] theorem State.builtWith_pal (table : List Key) :
    (State.builtWith s table).pal = Memory.write s.pal 0 (paletteBytes table) := rfl
@[simp] theorem State.builtWith_srcEpoch (table : List Key) : (State.builtWith s table).srcEpoch = s.srcEpoch := rfl
@[simp] theorem State.builtWith_draws (table : List Key) : (State.builtWith s table).draws = s.draws := rfl
@[simp] theorem State.builtWith_script (table : List Key) : (State.builtWith s table).script = s.script := rfl
@[simp] theorem State.builtWith_pos (table : List Key) : (State.builtWith s table).pos = s.pos := rfl
@[simp] theorem State.builtWith_observed (table : List Key) : (State.builtWith s table).observed = s.observed := rfl

@[simp] theorem State.withDepth_cfg (b : Nat) : (State.withDepth s b).cfg = s.cfg := rfl
@[simp] theorem State.withDepth_status (b : Nat) : (State.withDepth s b).status = s.status := rfl
@[simp] theorem State.withDepth_error (b : Nat) : (State.withDepth s b).error = s.error := rfl
@[simp] theorem State.withDepth_srcWidth (b : Nat) : (State.withDepth s b).srcWidth = s.srcWidth := rfl
@[simp] theorem State.withDepth_srcHeight (b : Nat) : (State.withDepth s b).srcHeight = s.srcHeight := rfl
@[simp] theorem State.withDepth_srcBpp (b : Nat) : (State.withDepth s b).srcBpp = s.srcBpp := rfl
@[simp] theorem State.withDepth_row (b : Nat) : (State.withDepth s b).row = s.row := rfl
@[simp] theorem State.withDepth_col (b : Nat) : (State.withDepth s b).col = s.col := rfl
@[simp] theorem State.withDepth_color (b : Nat) : (State.withDepth s b).color = s.color := rfl
@[simp] theorem State.withDepth_index (b : Nat) : (State.withDepth s b).index = s.index := rfl
@[simp] theorem State.withDepth_ncolors (b : Nat) : (State.withDepth s b).ncolors = s.ncolors := rfl
@[simp] theorem State.withDepth_bpp (b : Nat) : (State.withDepth s b).bpp = BitVec.ofNat 32 b := rfl
@[simp] theorem State.withDepth_dstWidth (b : Nat) : (State.withDepth s b).dstWidth = s.dstWidth := rfl
@[simp] theorem State.withDepth_dstHeight (b : Nat) : (State.withDepth s b).dstHeight = s.dstHeight := rfl
@[simp] theorem State.withDepth_dstBpp (b : Nat) : (State.withDepth s b).dstBpp = s.dstBpp := rfl
@[simp] theorem State.withDepth_dstSize (b : Nat) : (State.withDepth s b).dstSize = s.dstSize := rfl
@[simp] theorem State.withDepth_palSize (b : Nat) : (State.withDepth s b).palSize = s.palSize := rfl
@[simp] theorem State.withDepth_lut (b : Nat) : (State.withDepth s b).lut = s.lut := rfl
@[simp] theorem State.withDepth_src (b : Nat) : (State.withDepth s b).src = s.src := rfl
@[simp] theorem State.withDepth_dst (b : Nat) : (State.withDepth s b).dst = s.dst := rfl
@[simp] theorem State.withDepth_pal (b : Nat) : (State.withDepth s b).pal = s.pal := rfl
@[simp] theorem State.withDepth_srcEpoch (b : Nat) : (State.withDepth s b).srcEpoch = s.srcEpoch := rfl
@[simp] theorem State.withDepth_draws (b : Nat) : (State.withDepth s b).draws = s.draws := rfl
@[simp] theorem State.withDepth_script (b : Nat) : (State.withDepth s b).script = s.script := rfl
@[simp] theorem State.withDepth_pos (b : Nat) : (State.withDepth s b).pos = s.pos := rfl
@[simp] theorem State.withDepth_observed (b : Nat) : (State.withDepth s b).observed = s.observed := rfl

@[simp] theorem State.packedAt_cfg (b : Nat) : (State.packedAt s b).cfg = s.cfg := rfl
@[simp] theorem State.packedAt_status (b : Nat) :
    (State.packedAt s b).status = { s.status with dstValid := true } := rfl
@[simp] theorem State.packedAt_error (b : Nat) : (State.packedAt s b).error = s.error := rfl
@[simp] theorem State.packedAt_srcWidth (b : Nat) : (State.packedAt s b).srcWidth = s.srcWidth := rfl
@[simp] theorem State.packedAt_srcHeight (b : Nat) : (State.packedAt s b).srcHeight = s.srcHeight := rfl
@[simp] theorem State.packedAt_srcBpp (b : Nat) : (State.packedAt s b).srcBpp = s.srcBpp := rfl
@[simp] theorem State.packedAt_row (b : Nat) : (State.packedAt s b).row = s.row := rfl
@[simp] theorem State.packedAt_col (b : Nat) : (State.packedAt s b).col = s.col := rfl
@[simp] theorem State.packedAt_color (b : Nat) : (State.packedAt s b).color = s.color := rfl
@[simp] theorem State.packedAt_index (b : Nat) : (State.packedAt s b).index = s.index := rfl
@[simp] theorem State.packedAt_ncolors (b : Nat) : (State.packedAt s b).ncolors = s.ncolors := rfl
@[simp] theorem State.packedAt_bpp (b : Nat) : (State.packedAt s b).bpp = s.bpp := rfl
@[simp] theorem State.packedAt_dstWidth (b : Nat) : (State.packedAt s b).dstWidth = s.srcWidth := rfl
@[simp] theorem State.packedAt_dstHeight (b : Nat) : (State.packedAt s b).dstHeight = s.srcHeight := rfl
@[simp] theorem State.packedAt_dstBpp (b : Nat) : (State.packedAt s b).dstBpp = BitVec.ofNat 32 b := rfl
@[simp] theorem State.packedAt_dstSize (b : Nat) :
    (State.packedAt s b).dstSize = BitVec.ofNat 32 (outputSize s b) := rfl
@[simp] theorem State.packedAt_palSize (b : Nat) : (State.packedAt s b).palSize = BitVec.ofNat 32 (3 * 2 ^ b) := rfl
@[simp] theorem State.packedAt_lut (b : Nat) : (State.packedAt s b).lut = s.lut := rfl
@[simp] theorem State.packedAt_src (b : Nat) : (State.packedAt s b).src = s.src := rfl
@[simp] theorem State.packedAt_dst (b : Nat) : (State.packedAt s b).dst = Memory.cellsFrom 0 (packedBuffer s b) := rfl
@[simp] theorem State.packedAt_pal (b : Nat) : (State.packedAt s b).pal = s.pal := rfl
@[simp] theorem State.packedAt_srcEpoch (b : Nat) : (State.packedAt s b).srcEpoch = s.srcEpoch := rfl
@[simp] theorem State.packedAt_draws (b : Nat) : (State.packedAt s b).draws = s.draws := rfl
@[simp] theorem State.packedAt_script (b : Nat) : (State.packedAt s b).script = s.script := rfl
@[simp] theorem State.packedAt_pos (b : Nat) : (State.packedAt s b).pos = s.pos := rfl
@[simp] theorem State.packedAt_observed (b : Nat) : (State.packedAt s b).observed = s.observed := rfl

end Fields

end Sys2Proof.Machine
end

