-- ==== Sys2Proof/Laws/Access.lean ====
section
/-! SUPPORT. Little-endian numbers (R52), and what host accesses wider than a byte do, said once (R89). -/

namespace Sys2Proof.Machine

@[simp] theorem length_leBytes (n v : Nat) : (leBytes n v).length = n := by
  induction n generalizing v with
  | zero => rfl
  | succ n ih => simp [leBytes, ih]

/-- Byte `i` of a little-endian number. -/
theorem getElem?_leBytes {n i : Nat} (v : Nat) (h : i < n) :
    (leBytes n v)[i]? = some (BitVec.ofNat 8 (v / 256 ^ i)) := by
  induction n generalizing v i with
  | zero => omega
  | succ n ih =>
    cases i with
    | zero => simp [leBytes]
    | succ i =>
      rw [leBytes, List.getElem?_cons_succ, ih (v / 256) (by omega), Nat.div_div_eq_div_mul, pow_succ']

theorem ofLeBytes_lt (bs : List Byte) : ofLeBytes bs < 256 ^ bs.length := by
  induction bs with
  | nil => simp [ofLeBytes]
  | cons b bs ih =>
    have := b.isLt
    rw [ofLeBytes, List.length_cons, pow_succ]
    omega

/-- Byte `i` of the number of little-endian bytes. -/
theorem ofLeBytes_digit {bs : List Byte} {i : Nat} {b : Byte} (h : bs[i]? = some b) :
    ofLeBytes bs / 256 ^ i % 256 = b.toNat := by
  induction bs generalizing i with
  | nil => simp at h
  | cons c bs ih =>
    have := c.isLt
    cases i with
    | zero =>
      obtain rfl : c = b := by simpa using h
      rw [ofLeBytes, pow_zero, Nat.div_one]; omega
    | succ i =>
      rw [ofLeBytes, pow_succ', ← Nat.div_div_eq_div_mul, show (c.toNat + 256 * ofLeBytes bs) / 256 = ofLeBytes bs by omega]
      exact ih (by simpa using h)

/-- Two writes one after the other are one write of all their bytes. -/
theorem Memory.write_write (m : Memory) (off : Nat) (b : Byte) (bs : List Byte) :
    Memory.write (Memory.write m off [b]) (off + 1) bs = Memory.write m off (b :: bs) := by
  have e1 : (m.filter (fun c => decide (c.1 < off))).filter (fun c => decide (c.1 < off + 1)) =
      m.filter (fun c => decide (c.1 < off)) := by
    rw [List.filter_filter]; exact List.filter_congr fun c _ => by rw [← Bool.decide_and, decide_eq_decide]; omega
  have e2 : (m.filter (fun c => decide (off + 1 ≤ c.1))).filter (fun c => decide (c.1 < off + 1)) = [] := by
    rw [List.filter_filter]
    exact List.filter_eq_nil_iff.mpr fun c _ => by rw [← Bool.decide_and, decide_eq_true_eq]; omega
  have e3 : (m.filter (fun c => decide (c.1 < off))).filter (fun c => decide (off + 1 + bs.length ≤ c.1)) = [] := by
    rw [List.filter_filter]
    exact List.filter_eq_nil_iff.mpr fun c _ => by rw [← Bool.decide_and, decide_eq_true_eq]; omega
  have e4 : (m.filter (fun c => decide (off + 1 ≤ c.1))).filter (fun c => decide (off + 1 + bs.length ≤ c.1)) =
      m.filter (fun c => decide (off + (bs.length + 1) ≤ c.1)) := by
    rw [List.filter_filter]; exact List.filter_congr fun c _ => by rw [← Bool.decide_and, decide_eq_decide]; omega
  have e5 : ([(off, b)] : Memory).filter (fun c => decide (c.1 < off + 1)) = [(off, b)] := by simp
  have e6 : ([(off, b)] : Memory).filter (fun c => decide (off + 1 + bs.length ≤ c.1)) = [] := by simp; omega
  have w : Memory.write m off [b] =
      m.filter (fun c => decide (c.1 < off)) ++ ([(off, b)] ++ m.filter (fun c => decide (off + 1 ≤ c.1))) := by
    simp [Memory.write, Memory.cellsFrom]
  rw [w, Memory.write, Memory.write, List.filter_append, List.filter_append, List.filter_append, List.filter_append,
    e1, e2, e3, e4, e5, e6]
  simp [Memory.cellsFrom]

/-- Everything a wider read does before its number is observed: the host's record grows, free values are drawn. -/
theorem hostByteReads_next {sp : BufferSpace} {off n : Nat} {s t : State} (h : hostByteReads sp off n s = .next t) :
    ∃ o d, t = { s with observed := o, draws := s.draws + d } := by
  induction n generalizing off s with
  | zero => obtain rfl := Host.Outcome.next.inj h; exact ⟨_, 0, rfl⟩
  | succ n ih =>
    rw [hostByteReads] at h
    have step : ∀ u, hostByteRead sp off s = .next u → ∃ o d, u = { s with observed := o, draws := s.draws + d } := by
      intro u hu
      unfold hostByteRead at hu
      split at hu
      · cases hu
      split at hu
      · obtain rfl := Host.Outcome.next.inj hu; exact ⟨_, 1, rfl⟩
      split at hu <;> obtain rfl := Host.Outcome.next.inj hu
      · exact ⟨_, 0, rfl⟩
      · exact ⟨_, 1, rfl⟩
    split at h
    · next u hu =>
      obtain ⟨o, d, rfl⟩ := step u hu
      obtain ⟨o', d', rfl⟩ := ih h
      exact ⟨o', d + d', by simp [Nat.add_assoc]⟩
    · cases h
    · cases h

/-- A wider write to SRC that is served is one write of all its bytes, and invalidates the LUT (R34). -/
theorem hostByteWrites_src {off : Nat} {bs : List Byte} {s : State} (hne : bs ≠ []) (hb : s.status.busy = false)
    (ho : off + bs.length ≤ s.cfg.srcCap) :
    hostByteWrites .src off bs s = .next (invalidateLut { s with src := Memory.write s.src off bs }) := by
  induction bs generalizing off s with
  | nil => exact absurd rfl hne
  | cons b bs ih =>
    rw [List.length_cons] at ho
    have h1 : hostByteWrite .src off b s = .next (storeSrcByte off b s) := by
      rw [hostByteWrite, if_neg (show ¬BufferSpace.size s.cfg .src ≤ off by simp only [BufferSpace.size]; omega)]
      simp [hb]
    rw [hostByteWrites, h1]
    cases bs with
    | nil => rfl
    | cons c bs =>
      dsimp only
      rw [ih (List.cons_ne_nil _ _) (by simpa using hb) (by simp only [storeSrcByte_cfg, List.length_cons] at *; omega),
        storeSrcByte_src, Memory.write_write]
      rfl

/-- A wider write to SRC that answers a next state wrote nothing or was served whole. -/
theorem hostByteWrites_src_next {off : Nat} {bs : List Byte} {s t : State} (hne : bs ≠ [])
    (h : hostByteWrites .src off bs s = .next t) : s.status.busy = false ∧ off + bs.length ≤ s.cfg.srcCap := by
  induction bs generalizing off s with
  | nil => exact absurd rfl hne
  | cons b bs ih =>
    rw [hostByteWrites] at h
    split at h
    · next u hu =>
      unfold hostByteWrite at hu
      split at hu
      · cases hu
      next ho =>
      dsimp only at hu
      split at hu
      · cases hu
      next hb =>
      obtain rfl := Host.Outcome.next.inj hu
      simp only [BufferSpace.size, Nat.not_le] at ho
      refine ⟨by simpa using hb, ?_⟩
      cases bs with
      | nil => exact ho
      | cons c bs =>
        have := (ih (List.cons_ne_nil _ _) h).2
        simp only [storeSrcByte_cfg, List.length_cons] at *
        omega
    · cases h
    · cases h

/-- A write of DST or PAL, of whatever width, is ignored if it is served (R35). -/
theorem hostByteWrites_readOnly {sp : BufferSpace} (hsp : sp ≠ .src) {off : Nat} {bs : List Byte} {s : State}
    (ho : off + bs.length ≤ sp.size s.cfg) : hostByteWrites sp off bs s = .next s := by
  induction bs generalizing off with
  | nil => rfl
  | cons b bs ih =>
    rw [List.length_cons] at ho
    have h1 : hostByteWrite sp off b s = .next s := by
      unfold hostByteWrite
      rw [if_neg (show ¬sp.size s.cfg ≤ off by omega)]
      cases sp with
      | src => exact absurd rfl hsp
      | dst => rfl
      | pal => rfl
    rw [hostByteWrites, h1]
    exact ih (by omega)

theorem hostByteWrites_readOnly_next {sp : BufferSpace} (hsp : sp ≠ .src) {off : Nat} {bs : List Byte} {s t : State}
    (h : hostByteWrites sp off bs s = .next t) : t = s := by
  induction bs generalizing off with
  | nil => exact (Host.Outcome.next.inj h).symm
  | cons b bs ih =>
    rw [hostByteWrites] at h
    split at h
    · next u hu =>
      have hus : u = s := by
        unfold hostByteWrite at hu
        split at hu
        · cases hu
        cases sp with
        | src => exact absurd rfl hsp
        | dst => exact (Host.Outcome.next.inj hu).symm
        | pal => exact (Host.Outcome.next.inj hu).symm
      rw [hus] at h
      exact ih h
    · cases h
    · cases h

/-- A byte read inside its space is served. -/
theorem hostByteRead_answers {sp : BufferSpace} {off : Nat} {s : State} (h : off < sp.size s.cfg) :
    ∃ o d, hostByteRead sp off s = .next { s with observed := o, draws := s.draws + d } := by
  unfold hostByteRead
  rw [if_neg (by omega)]
  split
  · exact ⟨_, 1, rfl⟩
  · split
    · exact ⟨_, 0, rfl⟩
    · exact ⟨_, 1, rfl⟩

/-- Reads of bytes that all lie inside their space are served. -/
theorem hostByteReads_answers {sp : BufferSpace} {off n : Nat} {s : State} (h : off + n ≤ sp.size s.cfg) :
    ∃ t, hostByteReads sp off n s = .next t := by
  induction n generalizing off s with
  | zero => exact ⟨_, rfl⟩
  | succ n ih =>
    obtain ⟨o, d, h1⟩ := hostByteRead_answers (s := s) (sp := sp) (off := off) (by omega)
    rw [hostByteReads, h1]
    exact ih (show off + 1 + n ≤ sp.size s.cfg by omega)

/-- A read of buffer bytes is never refused: it is served, or it reaches outside its space and faults. -/
theorem hostByteReads_ne_refused {sp : BufferSpace} {off n : Nat} {s : State} {r : Refusal} :
    hostByteReads sp off n s ≠ .refused r := by
  induction n generalizing off s with
  | zero => intro h; cases h
  | succ n ih =>
    rw [hostByteReads]
    split
    · exact ih
    · intro h; cases h
    · next h =>
      unfold hostByteRead at h
      split at h
      · cases h
      split at h
      · cases h
      split at h <;> cases h

/-- A wider read of bytes that are all specified: the host sees each of them, the last one first in its record. -/
theorem hostByteReads_of_bytes {sp : BufferSpace} {off : Nat} {bs : List Byte} {s : State}
    (hb : s.status.busy = false) (ho : off + bs.length ≤ sp.size s.cfg)
    (h : ∀ i b, bs[i]? = some b → bufferByte s sp (off + i) = some b) :
    ∃ o : List Observation, o.length = bs.length ∧ (o.filterMap Observation.byte?).reverse = bs ∧
      (∀ x ∈ o, ∃ a b, x = .byte sp a b) ∧ hostByteReads sp off bs.length s = .next { s with observed := o ++ s.observed } := by
  induction bs generalizing off s with
  | nil => exact ⟨[], rfl, rfl, by simp, rfl⟩
  | cons b bs ih =>
    rw [List.length_cons] at ho
    have h1 : hostByteRead sp off s = .next (observeByte sp off b s) := by
      rw [hostByteRead, if_neg (show ¬sp.size s.cfg ≤ off by omega), if_neg (by simp [hb]),
        show bufferByte s sp off = some b from h 0 b rfl]
    obtain ⟨o, hl, hr, hk, he⟩ := ih (off := off + 1) (s := observeByte sp off b s) hb
      (by simp only [observeByte_cfg]; omega) (fun i c hc => by
        have := h (i + 1) c (by simpa using hc)
        rw [show off + 1 + i = off + (i + 1) by omega]
        exact this)
    refine ⟨o ++ [.byte sp off b], by simp [hl], by simp [List.filterMap_append, Observation.byte?, hr], ?_, ?_⟩
    · intro x hx
      rcases List.mem_append.mp hx with hx | hx
      · exact hk x hx
      · exact ⟨off, b, List.mem_singleton.mp hx⟩
    rw [List.length_cons, hostByteReads, h1]
    dsimp only
    rw [he]
    simp [observeByte]

/-- A wider read of specified bytes gives the host their little-endian number and changes nothing else (R52). -/
theorem hostWideRead_of_bytes {sp : BufferSpace} {off : Nat} {bs : List Byte} {s : State}
    (hb : s.status.busy = false) (ho : off + bs.length ≤ sp.size s.cfg)
    (h : ∀ i b, bs[i]? = some b → bufferByte s sp (off + i) = some b) :
    ∃ o : List Observation, hostWideRead sp off bs.length s =
      .next { s with observed := .number sp off bs.length (ofLeBytes bs) :: o } := by
  obtain ⟨o, hl, hr, -, he⟩ := hostByteReads_of_bytes hb ho h
  refine ⟨o ++ s.observed, ?_⟩
  have hn : lastBytes bs.length (o ++ s.observed) = bs := by
    rw [lastBytes, ← hl, List.take_left, hr]
  rw [hostWideRead, he]
  simp only [observeNumber, hn]

end Sys2Proof.Machine
end

