-- ==== Sys2Proof/Laws/Packing.lean ====
section
/-! SUPPORT. The scanline width, where a packed index lies, and what packing does to a byte of the buffer. -/

namespace Sys2Proof.Machine

theorem Align.bytes_pos (a : Align) : 0 < a.bytes := by cases a <;> decide

/-- A scanline holds its pixels' bits (R56). -/
theorem mul_le_slw (a : Align) (w b : Nat) : w * b ≤ 8 * slw a w b := by
  cases a <;> simp only [slw, Align.bytes] <;> omega

/-- A scanline is less than one alignment unit longer than its pixels need (R56). -/
theorem slw_lt (a : Align) (w b : Nat) : 8 * slw a w b < w * b + 8 * a.bytes := by
  cases a <;> simp only [slw, Align.bytes] <;> omega

/-- The bytes of a pixel lie in its own scanline (R57, R120). -/
theorem pixelOffset_lt (a : Align) {w col : Nat} (h : col < w) : col * 3 + 2 < slw a w 24 := by
  have := mul_le_slw a w 24
  omega

/-- The bytes of a pixel lie in the source buffer (R31, R120). -/
theorem pixelOffset_lt_size (a : Align) {h w row col : Nat} (hr : row < h) (hc : col < w) :
    pixelOffset a w row col + 2 < h * slw a w 24 := by
  have h1 := pixelOffset_lt a hc
  have h2 : (row + 1) * slw a w 24 ≤ h * slw a w 24 := Nat.mul_le_mul_right _ hr
  rw [Nat.add_mul, Nat.one_mul] at h2
  simp only [pixelOffset]
  omega

/-- The byte of a packed index lies in its own scanline (R55). -/
theorem packByte_lt_slw (a : Align) {w b col : Nat} (hb : 0 < b) (h : col < w) : col * b / 8 < slw a w b := by
  have h1 := mul_le_slw a w b
  have h2 : col * b + b ≤ w * b := by
    have := Nat.mul_le_mul_right b (Nat.succ_le_of_lt h)
    rwa [Nat.succ_mul] at this
  omega

/-- The byte of a packed index lies in the output buffer (R62). -/
theorem packByteOffset_lt (a : Align) {h w b row col : Nat} (hb : 0 < b) (hr : row < h) (hc : col < w) :
    packByteOffset a w b row col < h * slw a w b := by
  have h1 := packByte_lt_slw a hb hc
  have h2 : (row + 1) * slw a w b ≤ h * slw a w b := Nat.mul_le_mul_right _ hr
  rw [Nat.add_mul, Nat.one_mul] at h2
  simp only [packByteOffset]
  omega

@[simp] theorem mem_pixelCoords (h w : Nat) (p : Nat × Nat) : p ∈ pixelCoords h w ↔ p.1 < h ∧ p.2 < w := by
  obtain ⟨r, c⟩ := p
  simp [pixelCoords]

/-- What a sequence of or-ins does to one byte: the or of all that fall on it. -/
theorem getElem?_foldl_modify {α : Type} (f : α → Nat) (g : α → Byte) (ps : List α) (buf : List Byte) (i : Nat) :
    (ps.foldl (fun b p => b.modify (f p) (fun old => old ||| g p)) buf)[i]? =
      (buf[i]?).map (fun x => (ps.filter (fun p => f p = i)).foldl (fun acc p => acc ||| g p) x) := by
  induction ps generalizing buf with
  | nil => simp
  | cons p ps ih =>
    rw [List.foldl_cons, ih, List.getElem?_modify]
    by_cases h : f p = i
    · simp [h, Function.comp_def]
    · simp [h]

@[simp] theorem length_packPixel (s : State) (b : Nat) (buf : List Byte) (p : Nat × Nat) :
    (packPixel s b buf p).length = buf.length := by simp [packPixel]

theorem length_foldl_packPixel (s : State) (b : Nat) (ps : List (Nat × Nat)) (buf : List Byte) :
    (ps.foldl (packPixel s b) buf).length = buf.length := by
  induction ps generalizing buf with
  | nil => rfl
  | cons p ps ih => rw [List.foldl_cons, ih, length_packPixel]

/-- The output buffer has exactly its size (R58, R128 a). -/
@[simp] theorem length_packedBuffer (s : State) (b : Nat) : (packedBuffer s b).length = outputSize s b := by
  rw [packedBuffer, length_foldl_packPixel, List.length_replicate]

/-- A byte of the output buffer: the or of the shifted ids of the pixels that lie in it (R124). -/
theorem getElem?_packedBuffer (s : State) (b i : Nat) (h : i < outputSize s b) :
    (packedBuffer s b)[i]? = some
      (((pixelCoords s.srcHeight.toNat s.srcWidth.toNat).filter
          (fun p => packByteOffset s.cfg.align s.srcWidth.toNat b p.1 p.2 = i)).foldl
        (fun acc p => acc ||| BitVec.ofNat 8
          (packedId s.lut (pixelAt s p.1 p.2).key <<< packBitOffset b p.2)) 0x00#8) := by
  have := getElem?_foldl_modify (fun p : Nat × Nat => packByteOffset s.cfg.align s.srcWidth.toNat b p.1 p.2)
    (fun p => BitVec.ofNat 8 (packedId s.lut (pixelAt s p.1 p.2).key <<< packBitOffset b p.2))
    (pixelCoords s.srcHeight.toNat s.srcWidth.toNat) (List.replicate (outputSize s b) 0x00#8) i
  rw [List.getElem?_replicate, if_pos h, Option.map_some] at this
  exact this

theorem getLsbD_foldl_or {α : Type} (g : α → Byte) (ps : List α) (x : Byte) (j : Nat) :
    (ps.foldl (fun acc p => acc ||| g p) x).getLsbD j = (x.getLsbD j || ps.any (fun p => (g p).getLsbD j)) := by
  induction ps generalizing x with
  | nil => simp
  | cons p ps ih => simp [ih, Bool.or_assoc]

/-- A scanline and a byte within it are determined by the byte's offset in the buffer. -/
theorem scanline_unique {n r k r' k' : Nat} (hk : k < n) (hk' : k' < n) (h : r * n + k = r' * n + k') :
    r = r' ∧ k = k' := by
  have hn : 0 < n := by omega
  have e1 : (r * n + k) / n = r := by
    rw [Nat.add_comm, Nat.add_mul_div_right _ _ hn, Nat.div_eq_of_lt hk, Nat.zero_add]
  have e2 : (r' * n + k') / n = r' := by
    rw [Nat.add_comm, Nat.add_mul_div_right _ _ hn, Nat.div_eq_of_lt hk', Nat.zero_add]
  have hr : r = r' := by rw [← e1, ← e2, h]
  subst hr
  exact ⟨rfl, by omega⟩

/-- The column whose field bit `j` of byte `k` of a scanline belongs to, if the scanline has it (R55). -/
def ownerCol (b k j : Nat) : Nat := k * (8 / b) + (7 - j) / b

/-- A column has bit `j` of byte `k` in its field exactly if it is the owner of that bit (R55, R64). -/
theorem owner_iff {b : Nat} (hb : b = 1 ∨ b = 4 ∨ b = 8) {k j col : Nat} (hj : j < 8) :
    (col * b / 8 = k ∧ packBitOffset b col ≤ j ∧ j < packBitOffset b col + b) ↔ col = ownerCol b k j := by
  rcases hb with rfl | rfl | rfl <;> simp only [packBitOffset, ownerCol] <;> omega

/-- Every bit of the output buffer (R124, R128): the bit of the id of the pixel it belongs to, or 0. -/
theorem getLsbD_packedBuffer (s : State) {b : Nat} (hb : b = 1 ∨ b = 4 ∨ b = 8) (ids : Nat → Nat → Nat)
    (hids : ∀ row col, row < s.srcHeight.toNat → col < s.srcWidth.toNat →
      packedId s.lut (pixelAt s row col).key = ids row col ∧ ids row col < 2 ^ b)
    {row k : Nat} (hr : row < s.srcHeight.toNat) (hk : k < slw s.cfg.align s.srcWidth.toNat b) :
    ∃ x : Byte, (packedBuffer s b)[row * slw s.cfg.align s.srcWidth.toNat b + k]? = some x ∧
      ∀ j, j < 8 → x.getLsbD j =
        (decide (ownerCol b k j < s.srcWidth.toNat) &&
          (ids row (ownerCol b k j)).testBit (j - packBitOffset b (ownerCol b k j))) := by
  have hb0 : 0 < b := by omega
  have hlt : row * slw s.cfg.align s.srcWidth.toNat b + k < outputSize s b := by
    have := Nat.mul_le_mul_right (slw s.cfg.align s.srcWidth.toNat b) (Nat.succ_le_of_lt hr)
    rw [Nat.succ_mul] at this
    simp only [outputSize]
    omega
  refine ⟨_, getElem?_packedBuffer s b _ hlt, fun j hj => ?_⟩
  rw [getLsbD_foldl_or, BitVec.getLsbD_zero, Bool.false_or, Bool.eq_iff_iff]
  simp only [List.any_eq_true, List.mem_filter, mem_pixelCoords,
    decide_eq_true_eq, Bool.and_eq_true, BitVec.getLsbD_ofNat, hj, true_and, Nat.testBit_shiftLeft, Prod.exists]
  constructor
  · rintro ⟨r, c, ⟨⟨h1, h2⟩, h3⟩, h4, h5⟩
    obtain ⟨rfl, hck⟩ := scanline_unique (packByte_lt_slw s.cfg.align hb0 h2) hk h3
    obtain ⟨e, hlt2⟩ := hids r c h1 h2
    rw [e] at h5
    have hjb : j - packBitOffset b c < b := by
      by_contra hge
      have := Nat.testBit_lt_two_pow (Nat.lt_of_lt_of_le hlt2 (Nat.pow_le_pow_right (by decide) (Nat.not_lt.mp hge)))
      rw [this] at h5
      exact Bool.noConfusion h5
    have ho := (owner_iff hb hj).mp ⟨hck, h4, by omega⟩
    rw [← ho]
    exact ⟨h2, h5⟩
  · rintro ⟨h1, h2⟩
    obtain ⟨h3, h4, h5⟩ := (owner_iff hb (col := ownerCol b k j) hj).mpr rfl
    refine ⟨row, ownerCol b k j, ⟨⟨hr, h1⟩, ?_⟩, h4, ?_⟩
    · simp only [packByteOffset, h3]
    · rw [(hids row _ hr h1).1]
      exact h2

end Sys2Proof.Machine
end

