-- ==== Sys2Proof/Laws/Codec.lean ====
section
/-! SUPPORT. What reading a file, the source Image and the hand-over script do, said once. -/

namespace Sys2Proof.Machine

/-- A file that has the bytes gives them. -/
theorem readAt_of_le {file : List Byte} {off n : Nat} (h : off + n ≤ file.length) :
    readAt file off n = some ((file.drop off).take n) := if_pos (.inr h)

/-- Reading no bytes is never a short read (log 21). -/
@[simp] theorem readAt_zero (file : List Byte) (off : Nat) : readAt file off 0 = some [] := by simp [readAt]

/-- A read is short exactly when the file lacks one of the bytes asked for. -/
theorem readAt_eq_none_iff (file : List Byte) (off n : Nat) :
    readAt file off n = none ↔ 0 < n ∧ file.length < off + n := by
  rw [readAt, ite_eq_right_iff]
  simp only [reduceCtorEq, imp_false]
  omega

/-- What a read that is not short gives has the length asked for. -/
theorem length_readAt {file bs : List Byte} {off n : Nat} (h : readAt file off n = some bs) : bs.length = n := by
  unfold readAt at h
  split at h
  · obtain rfl := Option.some.inj h
    rw [List.length_take, List.length_drop]; omega
  · cases h

/-- Inside the source Image its `pixelAt` is the engine's (R120, R31). -/
theorem pixelAt_sourceImage {s : State} {row col : Nat} (hb : s.srcBpp.toNat = 24) (hr : row < s.srcHeight.toNat)
    (hc : col < s.srcWidth.toNat) : (sourceImage s).pixelAt s.cfg.align row col = pixelAt s row col := by
  have hlt := pixelOffset_lt_size s.cfg.align hr hc
  have hget : ∀ k, k ≤ 2 → (sourceImage s).pixelBuffer[pixelOffset s.cfg.align s.srcWidth.toNat row col + k]? =
      some (srcByte s (pixelOffset s.cfg.align s.srcWidth.toNat row col + k)) := by
    intro k hk
    simp only [sourceImage, outputSize, hb, List.getElem?_map]
    rw [List.getElem?_range (by omega)]; rfl
  have h0 := hget 0 (by omega)
  have h1 := hget 1 (by omega)
  have h2 := hget 2 (by omega)
  rw [Nat.add_zero] at h0
  rw [Image.pixelAt, if_pos (show (sourceImage s).bitsPerPixel = 24 ∧ _ from ⟨hb, hr, hc⟩)]
  change (match (sourceImage s).pixelBuffer[pixelOffset s.cfg.align s.srcWidth.toNat row col]?,
    (sourceImage s).pixelBuffer[pixelOffset s.cfg.align s.srcWidth.toNat row col + 1]?,
    (sourceImage s).pixelBuffer[pixelOffset s.cfg.align s.srcWidth.toNat row col + 2]? with
    | some b, some g, some r => (⟨r, g, b⟩ : Color)
    | _, _, _ => _) = _
  rw [h0, h1, h2]
  rfl

theorem length_byteWrites (sp : BufferSpace) (off : Nat) (bs : List Byte) : (byteWrites sp off bs).length = bs.length := by
  induction bs generalizing off with
  | nil => rfl
  | cons b bs ih => simp [byteWrites, ih]

/-- The block of R174's label `failed:` stands at its position, and the listing ends after it. -/
theorem conversion_failed (a : Align) (start : Nat) (skip : Bool) (img : Image) :
    (conversion a start skip img).length = conversionLength skip img + 1 ∧
      (conversion a start skip img)[conversionLength skip img]? = some (scriptRd .error) := by
  have hl : (checkAlign a (start + conversionLength skip img + 1) ++
      handOver (start + 2) skip img (start + conversionLength skip img) ++ collect ++
      [Stmt.branch .status 2 2 0 (start + conversionLength skip img + 1)]).length = conversionLength skip img := by
    simp only [checkAlign, handOver, collect, scriptSetsrc, scriptSrcwr, scriptRun, scriptWait, conversionLength,
      List.length_append, List.length_cons, List.length_nil, length_byteWrites]
    omega
  constructor
  · rw [conversion, List.length_append, hl]; rfl
  · rw [conversion, List.getElem?_append_right (by rw [hl]), hl, Nat.sub_self]; rfl

/-- The code of a kind names the kind (R181). -/
@[simp] theorem kindOfCode_code (kind : ErrorKind) : kindOfCode kind.code = some kind := by cases kind <;> rfl

/-- Observations of bytes of one space leave what the host last read from a register. -/
theorem lastRead_append_bytes {sp : BufferSpace} (off : Nat) {o : List Observation} (rest : List Observation)
    (h : ∀ x ∈ o, ∃ a b, x = .byte sp a b) : lastRead off (o ++ rest) = lastRead off rest := by
  induction o with
  | nil => rfl
  | cons x o ih =>
    obtain ⟨a, b, rfl⟩ := h x (List.mem_cons_self ..)
    exact ih fun y hy => h y (List.mem_cons_of_mem _ hy)

/-- Of observations of bytes of one space, the bytes of that space are all and those of another none. -/
theorem filterMap_byteOf {sp : BufferSpace} {o : List Observation} (h : ∀ x ∈ o, ∃ a b, x = .byte sp a b) :
    o.filterMap (Observation.byteOf? sp) = o.filterMap Observation.byte? ∧
      ∀ sp', sp' ≠ sp → o.filterMap (Observation.byteOf? sp') = [] := by
  induction o with
  | nil => exact ⟨rfl, fun _ _ => rfl⟩
  | cons x o ih =>
    obtain ⟨a, b, rfl⟩ := h x (List.mem_cons_self ..)
    obtain ⟨h1, h2⟩ := ih fun y hy => h y (List.mem_cons_of_mem _ hy)
    exact ⟨by simp [Observation.byteOf?, Observation.byte?, h1],
      fun sp' hsp => by simp [Observation.byteOf?, hsp.symm, h2 sp' hsp]⟩

/-- A sized read of bytes that are all specified: the host sees each of them, and nothing else changes (R174). -/
theorem perform_sizedRead {sp : BufferSpace} {off : Nat} {size : RegName} {bs : List Byte} {s : State} {w : Word}
    (hw : lastRead size.offset s.observed = some w) (hn : w.toNat = bs.length) (hb : s.status.busy = false)
    (ho : off + bs.length ≤ sp.size s.cfg)
    (h : ∀ i b, bs[i]? = some b → bufferByte s sp (off + i) = some b) :
    ∃ o : List Observation, (∀ x ∈ o, ∃ a b, x = .byte sp a b) ∧ (o.filterMap (Observation.byteOf? sp)).reverse = bs ∧
      perform (.sizedRead sp off size) s = .next { s with observed := o ++ s.observed } := by
  obtain ⟨o, -, hr, hk, he⟩ := hostByteReads_of_bytes hb ho h
  refine ⟨o, hk, by rw [(filterMap_byteOf hk).1, hr], ?_⟩
  rw [perform, hw]
  dsimp only
  rw [hn, he]

/-- The first bytes of a buffer space that specifies them, byte by byte. -/
theorem getElem?_firstBytes {m : Memory} {n : Nat} {bs : List Byte} (h : Memory.firstBytes m n = some bs) :
    bs.length = n ∧ ∀ i b, bs[i]? = some b → m.read i = some b := by
  unfold Memory.firstBytes at h
  have key : ∀ (l : List Nat) (bs : List Byte), l.mapM (Memory.read m) = some bs →
      bs.length = l.length ∧ ∀ (i : Nat) (b : Byte), bs[i]? = some b → ∃ a : Nat, l[i]? = some a ∧ m.read a = some b := by
    intro l
    induction l with
    | nil => intro bs h; simp at h; subst h; simp
    | cons a l ih =>
      intro bs h
      rw [List.mapM_cons] at h
      obtain ⟨c, hc, h⟩ := Option.bind_eq_some_iff.mp h
      obtain ⟨cs, hcs, h⟩ := Option.bind_eq_some_iff.mp h
      obtain rfl := Option.some.inj h
      obtain ⟨hl, hi⟩ := ih cs hcs
      refine ⟨by simp [hl], fun i b hb => ?_⟩
      cases i with
      | zero => exact ⟨a, rfl, by simpa using (Option.some.inj hb) ▸ hc⟩
      | succ i => simpa using hi i b (by simpa using hb)
  obtain ⟨hl, hi⟩ := key _ _ h
  refine ⟨by simpa using hl, fun i b hb => ?_⟩
  obtain ⟨a, ha, hm⟩ := hi i b hb
  have hlt : i < n := by simpa [hl] using (List.getElem?_eq_some_iff.mp hb).1
  rw [List.getElem?_range hlt] at ha
  exact (Option.some.inj ha) ▸ hm

/-- A step of the host's script. -/
theorem runSteps_succ {n : Nat} {s t : State} {st : Stmt} (hc : currentStmt s = some st)
    (hp : perform st (advance s) = .next t) : runSteps (n + 1) s = runSteps n t := by
  rw [runSteps, stepOnce, hc]
  dsimp only
  rw [hp]

/-- `RD` of a register of an idle engine gives the host the register's word (R11, R92). -/
theorem perform_rd_of_idle (r : RegName) {s : State} (hb : s.status.busy = false) :
    perform (scriptRd r) s = .next (observeReg r.offset (readReg s r) s) := by
  cases r <;> simp [perform, scriptRd, hostAccess, hostRegRead, RegName.offset, readRegAt, regAt, hb]

/-- What the host has read after reads of these registers of a state, newest first. -/
def readings (s : State) (rs : List RegName) : List Observation :=
  (rs.map fun r => .reg r.offset (readReg s r)).reverse

/-- Consecutive `RD`s of an idle engine give the host the registers' words and change nothing of the PIPU. -/
theorem runSteps_rds {n : Nat} (rs : List RegName) {s : State} (hb : s.status.busy = false)
    (hs : ∀ i r, rs[i]? = some r → s.script[s.pos + i]? = some (scriptRd r)) :
    runSteps (n + rs.length) s =
      runSteps n { s with observed := readings s rs ++ s.observed, pos := s.pos + rs.length } := by
  induction rs generalizing s with
  | nil => rfl
  | cons r rs ih =>
    have h := ih (s := { s with observed := .reg r.offset (readReg s r) :: s.observed, pos := s.pos + 1 }) hb
      (fun i r' h => by simpa [Nat.add_assoc, Nat.add_comm 1] using hs (i + 1) r' (by simpa using h))
    have hr : ∀ o p r', readReg { s with observed := o, pos := p } r' = readReg s r' := fun o p r' => by cases r' <;> rfl
    have hstep := perform_rd_of_idle r (s := advance s) hb
    rw [List.length_cons, ← Nat.add_assoc, runSteps_succ (hs 0 r rfl) hstep]
    simp only [observeReg, advance, hr, readings] at h ⊢
    rw [h]
    simp [Nat.add_assoc, Nat.add_comm 1]

/-- R174: a host that collects from an idle engine with an output Image has read exactly that Image, and has changed
nothing of the PIPU. -/
theorem collect_reads_output {s : State} {img : Image} (hb : s.status.busy = false) (himg : outputImage s = some img)
    (hd : s.dstSize.toNat ≤ s.cfg.dstCap) (hp : s.palSize.toNat ≤ 768)
    (hs : ∀ i < 7, s.script[s.pos + i]? = collect[i]?) :
    ∃ o : List Observation, runSteps 7 s = .next { s with observed := o, pos := s.pos + 7 } ∧
      collectedImage o = some img := by
  unfold outputImage at himg
  split at himg
  swap
  · cases himg
  split at himg
  swap
  · cases himg
  next buf table hbuf htable =>
  obtain rfl := Option.some.inj himg
  obtain ⟨hbl, hbi⟩ := getElem?_firstBytes hbuf
  obtain ⟨htl, hti⟩ := getElem?_firstBytes htable
  let u : State := { s with
    observed := [.reg 0x48 s.palSize, .reg 0x44 s.dstSize, .reg 0x40 s.dstBpp, .reg 0x3C s.dstHeight,
      .reg 0x38 s.dstWidth] ++ s.observed
    pos := s.pos + 5 }
  have h5 : runSteps 7 s = runSteps 2 u :=
    runSteps_rds [.dstWidth, .dstHeight, .dstBpp, .dstSize, .palSize] (n := 2) hb fun i r h => by
      have hi : i < 5 := (List.getElem?_eq_some_iff.mp h).1
      rw [hs i (by omega)]
      rcases i with _ | _ | _ | _ | _ | i <;>
        first | omega | exact congrArg (fun r => some (scriptRd r)) (Option.some.inj h)
  obtain ⟨o, ho, hob, hoe⟩ := perform_sizedRead (sp := .pal) (off := 0) (size := .palSize) (bs := table)
    (s := advance u) (w := s.palSize) rfl htl.symm hb (by simpa [htl, BufferSpace.size] using hp)
    (fun i b h => by simpa [bufferByte] using hti i b h)
  obtain ⟨q, hq, hqb, hqe⟩ := perform_sizedRead (sp := .dst) (off := 0) (size := .dstSize) (bs := buf)
    (s := advance { advance u with observed := o ++ u.observed }) (w := s.dstSize)
    (by rw [show (advance { advance u with observed := o ++ u.observed }).observed = o ++ u.observed from rfl,
          lastRead_append_bytes _ _ ho]; rfl) hbl.symm hb
    (by simpa [hbl, BufferSpace.size] using hd) (fun i b h => by simpa [bufferByte] using hbi i b h)
  refine ⟨q ++ (o ++ u.observed), ?_, ?_⟩
  · exact h5.trans ((runSteps_succ (n := 1) (s := u) (hs 5 (by omega)) hoe).trans
      (runSteps_succ (n := 0) (s := { advance u with observed := o ++ u.observed }) (hs 6 (by omega)) hqe))
  · have hl : ∀ off, lastRead off (q ++ (o ++ u.observed)) = lastRead off u.observed := fun off => by
      rw [lastRead_append_bytes _ _ hq, lastRead_append_bytes _ _ ho]
    have hdst : lastBytesOf .dst s.dstSize.toNat (q ++ (o ++ u.observed)) = buf := by
      have : (q.filterMap (Observation.byteOf? .dst)).length = s.dstSize.toNat := by
        rw [← hbl, ← hqb, List.length_reverse]
      rw [lastBytesOf, List.filterMap_append, ← this, List.take_left, hqb]
    have hpal : lastBytesOf .pal s.palSize.toNat (q ++ (o ++ u.observed)) = table := by
      have : (o.filterMap (Observation.byteOf? .pal)).length = s.palSize.toNat := by
        rw [← htl, ← hob, List.length_reverse]
      rw [lastBytesOf, List.filterMap_append, (filterMap_byteOf hq).2 .pal (by decide), List.nil_append,
        List.filterMap_append, ← this, List.take_left, hob]
    rw [collectedImage, hl, hl, hl, hl, hl]
    change some (Image.mk _ _ _ (lastBytesOf .dst s.dstSize.toNat _) (lastBytesOf .pal s.palSize.toNat _)) = _
    rw [hdst, hpal]

end Sys2Proof.Machine
end

