-- ==== Sys2Proof/Laws/Colors.lean ====
section
/-! SUPPORT. Keys, the ascending duplicate-free list of keys, ranks in it, and the palette bytes. -/

namespace Sys2Proof.Machine

/-- The key as the number of 00_scope.md section 5. -/
theorem Color.key_toNat (c : Color) : c.key.toNat = c.r.toNat * 65536 + c.g.toNat * 256 + c.b.toNat := by
  simp only [Color.key, BitVec.toNat_ofNat]
  omega

theorem unkey_key (c : Color) : unkey c.key = c := by
  obtain ⟨r, g, b⟩ := c
  simp only [unkey, Color.mk.injEq, ← BitVec.toNat_inj, BitVec.extractLsb'_toNat, Color.key_toNat,
    Nat.shiftRight_eq_div_pow]
  omega

theorem key_unkey (k : Key) : (unkey k).key = k := by
  simp only [← BitVec.toNat_inj, Color.key_toNat, unkey, BitVec.extractLsb'_toNat, Nat.shiftRight_eq_div_pow]
  omega

/-- Membership after an insertion. -/
theorem mem_insertKey (k x : Key) (l : List Key) : x ∈ insertKey k l ↔ x = k ∨ x ∈ l := by
  induction l with
  | nil => simp [insertKey]
  | cons y ys ih =>
    rw [insertKey]
    split
    · simp
    · split
      · next h => subst h; simp
      · simp only [List.mem_cons, ih]; tauto

/-- An insertion keeps the list strictly ascending. -/
theorem pairwise_insertKey (k : Key) {l : List Key} (h : l.Pairwise (· < ·)) :
    (insertKey k l).Pairwise (· < ·) := by
  induction l with
  | nil => simp [insertKey]
  | cons y ys ih =>
    obtain ⟨hy, hys⟩ := List.pairwise_cons.mp h
    rw [insertKey]
    split
    · next hk =>
      refine List.pairwise_cons.mpr ⟨fun x hx => ?_, h⟩
      rcases List.mem_cons.mp hx with rfl | hx
      · exact hk
      · exact BitVec.lt_trans hk (hy x hx)
    · split
      · exact h
      · next h1 h2 =>
        refine List.pairwise_cons.mpr ⟨fun x hx => ?_, ih hys⟩
        rcases (mem_insertKey k x ys).mp hx with rfl | hx
        · simp only [BitVec.lt_def, ← BitVec.toNat_inj] at *; omega
        · exact hy x hx

theorem foldl_insertKey (ks acc : List Key) :
    (acc.Pairwise (· < ·) → (ks.foldl (fun a k => insertKey k a) acc).Pairwise (· < ·)) ∧
      ∀ x, x ∈ ks.foldl (fun a k => insertKey k a) acc ↔ x ∈ ks ∨ x ∈ acc := by
  induction ks generalizing acc with
  | nil => simp
  | cons k ks ih =>
    obtain ⟨h1, h2⟩ := ih (insertKey k acc)
    refine ⟨fun h => h1 (pairwise_insertKey k h), fun x => ?_⟩
    simp only [List.foldl_cons, h2, mem_insertKey, List.mem_cons]
    tauto

/-- The collected keys are exactly those of the list (R101). -/
@[simp] theorem mem_sortedKeys (ks : List Key) (x : Key) : x ∈ sortedKeys ks ↔ x ∈ ks := by
  simp [sortedKeys, (foldl_insertKey ks []).2]

/-- The collected keys are strictly ascending (R102). -/
theorem pairwise_sortedKeys (ks : List Key) : (sortedKeys ks).Pairwise (· < ·) :=
  (foldl_insertKey ks []).1 List.Pairwise.nil

/-- Two strictly ascending lists with the same members are equal. -/
theorem ascending_ext {l m : List Key} (hl : l.Pairwise (· < ·)) (hm : m.Pairwise (· < ·))
    (h : ∀ x, x ∈ l ↔ x ∈ m) : l = m := by
  induction l generalizing m with
  | nil =>
    cases m with
    | nil => rfl
    | cons y ys => exact absurd ((h y).mpr (by simp)) (by simp)
  | cons x xs ih =>
    cases m with
    | nil => exact absurd ((h x).mp (by simp)) (by simp)
    | cons y ys =>
      obtain ⟨hx, hxs⟩ := List.pairwise_cons.mp hl
      obtain ⟨hy, hys⟩ := List.pairwise_cons.mp hm
      have hxy : x = y := by
        have h1 := (h x).mp (by simp)
        have h2 := (h y).mpr (by simp)
        rcases List.mem_cons.mp h1 with e | h1
        · exact e
        · rcases List.mem_cons.mp h2 with e | h2
          · exact e.symm
          · have a := hy x h1
            have b := hx y h2
            simp only [BitVec.lt_def] at a b
            omega
      subst hxy
      congr 1
      refine ih hxs hys fun z => ⟨fun hz => ?_, fun hz => ?_⟩
      · rcases List.mem_cons.mp ((h z).mp (List.mem_cons_of_mem _ hz)) with e | h'
        · have := hx z hz
          simp only [BitVec.lt_def, e] at this
          omega
        · exact h'
      · rcases List.mem_cons.mp ((h z).mpr (List.mem_cons_of_mem _ hz)) with e | h'
        · have := hy z hz
          simp only [BitVec.lt_def, e] at this
          omega
        · exact h'

/-- `rank` finds the place of a key, and only that (R102). -/
theorem rank_eq_some_iff {l : List Key} (h : l.Pairwise (· < ·)) (k : Key) (i : Nat) :
    rank l k = some i ↔ l[i]? = some k := by
  induction l generalizing i with
  | nil => simp [rank]
  | cons x xs ih =>
    obtain ⟨hx, hxs⟩ := List.pairwise_cons.mp h
    rw [rank]
    by_cases hk : x = k
    · subst hk
      cases i with
      | zero => simp
      | succ i =>
        simp only [if_true, List.getElem?_cons_succ]
        refine ⟨fun h => by simp at h, fun h => ?_⟩
        have := hx x (List.mem_of_getElem? h)
        simp only [BitVec.lt_def] at this
        omega
    · cases i with
      | zero => simp [hk]
      | succ i => simp [hk, ih hxs]

theorem rank_eq_none_iff (l : List Key) (k : Key) : rank l k = none ↔ k ∉ l := by
  induction l with
  | nil => simp [rank]
  | cons x xs ih =>
    rw [rank]
    by_cases hk : x = k
    · simp [hk]
    · simp [hk, ih, Ne.symm hk]

theorem rank_lt {l : List Key} {k : Key} {i : Nat} (h : rank l k = some i) : i < l.length := by
  induction l generalizing i with
  | nil => simp [rank] at h
  | cons x xs ih =>
    rw [rank] at h
    split at h
    · simp at h; simp [← h]
    · obtain ⟨j, hj, rfl⟩ := Option.map_eq_some_iff.mp h
      simpa using ih hj

@[simp] theorem length_entryBytes (k : Key) : (entryBytes k).length = 3 := rfl

theorem length_flatMap_entryBytes (l : List Key) : (l.flatMap entryBytes).length = 3 * l.length := by
  induction l with
  | nil => rfl
  | cons k l ih => simp only [List.flatMap_cons, List.length_append, ih, length_entryBytes, List.length_cons]; omega

/-- The palette has 768 bytes (R104). -/
theorem length_paletteBytes {l : List Key} (h : l.length ≤ 256) : (paletteBytes l).length = 768 := by
  rw [paletteBytes, List.length_append, length_flatMap_entryBytes, List.length_replicate]
  omega

theorem getElem?_flatMap_entryBytes (l : List Key) (i j : Nat) (hj : j < 3) :
    (l.flatMap entryBytes)[3 * i + j]? = (l[i]?).bind (fun k => (entryBytes k)[j]?) := by
  induction l generalizing i with
  | nil => simp
  | cons k l ih =>
    rw [List.flatMap_cons]
    cases i with
    | zero => rw [List.getElem?_append_left (by simp; omega)]; simp
    | succ i =>
      rw [List.getElem?_append_right (by simp; omega), List.getElem?_cons_succ, ← ih]
      congr 1
      simp; omega

/-- The bytes of palette entry `i`: blue, green, red at `3i`, `3i+1`, `3i+2` (R104). -/
theorem getElem?_paletteBytes_entry {l : List Key} {i : Nat} {k : Key} (h : l[i]? = some k) {j : Nat}
    (hj : j < 3) : (paletteBytes l)[3 * i + j]? = (entryBytes k)[j]? := by
  have hi : i < l.length := (List.getElem?_eq_some_iff.mp h).1
  rw [paletteBytes, List.getElem?_append_left (by rw [length_flatMap_entryBytes]; omega),
    getElem?_flatMap_entryBytes l i j hj, h]
  rfl

/-- The palette bytes beyond the last entry are 0x00 (R104). -/
theorem getElem?_paletteBytes_fill {l : List Key} {off : Nat} (h : 3 * l.length ≤ off) (h' : off < 768) :
    (paletteBytes l)[off]? = some 0x00#8 := by
  rw [paletteBytes, List.getElem?_append_right (by rw [length_flatMap_entryBytes]; exact h),
    length_flatMap_entryBytes, List.getElem?_replicate]
  simp; omega

end Sys2Proof.Machine
end

