-- ==== Sys2Proof/Laws/Command.lean ====
section
/-! SUPPORT. What command acceptance, the source pre-check and each stage of a command can do, said once. -/

namespace Sys2Proof.Machine

theorem issue_of_busy (op : Byte) (body : State → StageResult) {s : State} (h : s.status.busy = true) :
    issue op body s = .next s := by simp [issue, h]

theorem issue_of_err (op : Byte) (body : State → StageResult) {s : State} (h : s.status.err = true) :
    issue op body s = .next s := by
  simp [issue, h]

theorem issue_of_accepts (op : Byte) (body : State → StageResult) {s : State} (h : s.accepts) :
    issue op body s = .next (endCommand (finish op (body (beginCommand s)))) := by
  simp [issue, h.1, h.2]

/-- Everything a command issue can do: nothing, or run its body between BUSY <- 1 and BUSY <- 0 (R193). -/
theorem issue_cases {op : Byte} {body : State → StageResult} {s t : State} (h : issue op body s = .next t) :
    (¬ s.accepts ∧ t = s) ∨ (s.accepts ∧ t = endCommand (finish op (body (beginCommand s)))) := by
  by_cases ha : s.accepts
  · rw [issue_of_accepts op body ha] at h
    exact .inr ⟨ha, (Host.Outcome.next.inj h).symm⟩
  · refine .inl ⟨ha, ?_⟩
    by_cases hb : s.status.busy = true
    · rw [issue_of_busy op body hb] at h
      exact (Host.Outcome.next.inj h).symm
    · have he : s.status.err = true := by
        simp only [State.accepts, Bool.not_eq_true] at ha hb
        simpa [hb] using ha
      rw [issue_of_err op body he] at h
      exact (Host.Outcome.next.inj h).symm

/-- A command issue always answers a next state (R222). -/
theorem issue_answers (op : Byte) (body : State → StageResult) (s : State) :
    ∃ t, issue op body s = .next t := by
  unfold issue
  split
  · exact ⟨_, rfl⟩
  · split <;> exact ⟨_, rfl⟩

@[simp] theorem andThen_ok (s : State) (f : State → StageResult) : (StageResult.ok s).andThen f = f s := rfl

@[simp] theorem andThen_raised (kind : ErrorKind) (s : State) (f : State → StageResult) :
    (StageResult.raised kind s).andThen f = .raised kind s := rfl

@[simp] theorem finish_ok (op : Byte) (s : State) : finish op (.ok s) = complete s := rfl

@[simp] theorem finish_raised (op : Byte) (kind : ErrorKind) (s : State) :
    finish op (.raised kind s) = raise kind op s := rfl

@[simp] theorem sourceError_beginCommand (s : State) : sourceError (beginCommand s) = sourceError s := rfl

@[simp] theorem sourceColors_beginCommand (s : State) : sourceColors (beginCommand s) = sourceColors s := rfl

@[simp] theorem outputSize_beginCommand (s : State) (b : Nat) :
    outputSize (beginCommand s) b = outputSize s b := rfl

@[simp] theorem pixelAt_beginCommand (s : State) (row col : Nat) :
    pixelAt (beginCommand s) row col = pixelAt s row col := rfl

@[simp] theorem packedBuffer_beginCommand (s : State) (b : Nat) :
    packedBuffer (beginCommand s) b = packedBuffer s b := rfl

theorem sourceOk_beginCommand {s : State} : (beginCommand s).sourceOk ↔ s.sourceOk := Iff.rfl

/-- The source pre-check finds no error exactly when its four conditions hold (R185). -/
theorem sourceError_eq_none_iff (s : State) : sourceError s = none ↔ s.sourceOk := by
  unfold sourceError State.sourceOk
  split
  · next h => simp only [reduceCtorEq, false_iff]; omega
  · next h =>
    split
    · next h2 =>
      simp only [reduceCtorEq, false_iff]
      rintro ⟨-, -, h3, -⟩
      simp [h3] at h2
    · split
      · next h3 => simp [h3]
      · next h3 =>
        split
        · next h4 => simp only [reduceCtorEq, false_iff]; omega
        · next h4 => simp only [true_iff]; omega

/-- The source pre-check passes unchanged, or raises the first error it finds in the unchanged state. -/
theorem checkSrc24_cases (s : State) :
    (s.sourceOk ∧ checkSrc24 s = .ok s) ∨
      (∃ kind, sourceError s = some kind ∧ checkSrc24 s = .raised kind s) := by
  unfold checkSrc24
  cases h : sourceError s with
  | none => exact .inl ⟨(sourceError_eq_none_iff s).mp h, rfl⟩
  | some kind => exact .inr ⟨kind, rfl, rfl⟩

theorem checkSrc24_of_ok {s : State} (h : s.sourceOk) : checkSrc24 s = .ok s := by
  unfold checkSrc24
  rw [(sourceError_eq_none_iff s).mpr h]

/-- A build ends with its table installed or with TooManyColors, by the number of colors (R106). -/
theorem buildStage_eq (s : State) : buildStage s =
    if 256 < (sourceColors s).length then .raised .tooManyColors s.destroyedByBuild
    else .ok (s.builtWith (sourceColors s)) := rfl

theorem buildStage_of_le {s : State} (h : (sourceColors s).length ≤ 256) :
    buildStage s = .ok (s.builtWith (sourceColors s)) := by
  rw [buildStage_eq, if_neg (Nat.not_lt.mpr h)]

theorem buildStage_of_lt {s : State} (h : 256 < (sourceColors s).length) :
    buildStage s = .raised .tooManyColors s.destroyedByBuild := by
  rw [buildStage_eq, if_pos h]

theorem lookupBody_of_valid {s : State} (h : s.status.lutValid = true) :
    lookupBody s = .ok { s with index := lookupResult s.lut s.color } := by
  rw [lookupBody, if_neg (by simp [h])]

theorem lookupBody_of_invalid {s : State} (h : s.status.lutValid = false) :
    lookupBody s = .raised .sequenceError s := by
  rw [lookupBody, if_pos h]

theorem seldepthBody_of_valid {s : State} (h : s.status.lutValid = true) : seldepthBody s = depthStage s := by
  rw [seldepthBody, if_neg (by simp [h])]

theorem seldepthBody_of_invalid {s : State} (h : s.status.lutValid = false) :
    seldepthBody s = .raised .sequenceError s := by
  rw [seldepthBody, if_pos h]

theorem depthStage_of_some {s : State} {b : Nat} (h : chooseBpp s.ncolors.toNat = some b) :
    depthStage s = .ok (s.withDepth b) := by
  rw [depthStage, h]; rfl

theorem pixatBody_inside {s : State} (hr : s.row.toNat < s.srcHeight.toNat) (hc : s.col.toNat < s.srcWidth.toNat) :
    pixatBody s = .ok { s with color := (pixelAt s s.row.toNat s.col.toNat).key } := by
  rw [pixatBody, if_neg (by omega)]

theorem pixatBody_outside {s : State} (h : s.srcHeight.toNat ≤ s.row.toNat ∨ s.srcWidth.toNat ≤ s.col.toNat) :
    pixatBody s = .raised .operandRange s := by
  rw [pixatBody, if_pos h]

/-- The flags after an error in an accepted command that has changed nothing (R190). -/
theorem endCommand_raise_beginCommand (kind : ErrorKind) (op : Byte) (s : State) :
    endCommand (raise kind op (beginCommand s)) = s.recordError op kind.code := rfl

/-- The flags after an accepted command that succeeds (R193). -/
theorem endCommand_complete_beginCommand (s : State) :
    endCommand (complete (beginCommand s)) = s.recordSuccess := rfl

theorem checkSrc24_beginCommand_of_ok {s : State} (h : s.sourceOk) :
    checkSrc24 (beginCommand s) = .ok (beginCommand s) := by
  unfold checkSrc24
  rw [sourceError_beginCommand, (sourceError_eq_none_iff s).mpr h]

theorem checkSrc24_beginCommand_of_error {s : State} {kind : ErrorKind} (h : sourceError s = some kind) :
    checkSrc24 (beginCommand s) = .raised kind (beginCommand s) := by
  unfold checkSrc24
  rw [sourceError_beginCommand, h]

/-- Packing leaves the cells of the packed buffer (R126). -/
theorem packStage_eq (s : State) (b : Nat) : packStage b s = s.packedAt b := by
  simp [packStage, State.packedAt]

theorem packBody_of_ok {s : State} (hl : s.status.lutValid = true)
    (hb : s.bpp.toNat = 1 ∨ s.bpp.toNat = 4 ∨ s.bpp.toNat = 8) (hn : s.ncolors.toNat ≤ 2 ^ s.bpp.toNat)
    (hc : outputSize s s.bpp.toNat ≤ s.cfg.dstCap) : packBody s = .ok (s.packedAt s.bpp.toNat) := by
  rw [packBody, if_neg (by simp [hl]), if_neg (by rcases hb with h | h | h <;> simp [h]), if_neg (Nat.not_lt.mpr hn),
    if_neg (Nat.not_lt.mpr hc), packStage_eq]

theorem packBody_of_depth {s : State} (hl : s.status.lutValid = true)
    (hb : ¬(s.bpp.toNat = 1 ∨ s.bpp.toNat = 4 ∨ s.bpp.toNat = 8)) :
    packBody s = .raised .unsupportedBitDepth s := by
  rw [packBody, if_neg (by simp [hl]), if_pos (by simpa using hb)]

theorem packBody_of_colors {s : State} (hl : s.status.lutValid = true)
    (hb : s.bpp.toNat = 1 ∨ s.bpp.toNat = 4 ∨ s.bpp.toNat = 8) (hn : 2 ^ s.bpp.toNat < s.ncolors.toNat) :
    packBody s = .raised .operandRange s := by
  rw [packBody, if_neg (by simp [hl]), if_neg (by rcases hb with h | h | h <;> simp [h]), if_pos hn]

theorem packBody_of_capacity {s : State} (hl : s.status.lutValid = true)
    (hb : s.bpp.toNat = 1 ∨ s.bpp.toNat = 4 ∨ s.bpp.toNat = 8) (hn : s.ncolors.toNat ≤ 2 ^ s.bpp.toNat)
    (hc : s.cfg.dstCap < outputSize s s.bpp.toNat) : packBody s = .raised .capacityExceeded s := by
  rw [packBody, if_neg (by simp [hl]), if_neg (by rcases hb with h | h | h <;> simp [h]), if_neg (Nat.not_lt.mpr hn),
    if_pos hc]

theorem packBody_of_invalid {s : State} (hl : s.status.lutValid = false) :
    packBody s = .raised .sequenceError s := by
  rw [packBody, if_pos hl]

/-- Everything PACK's body can do after the source pre-check: pack the image at a depth that holds the colors, or
raise an error in the unchanged state (R126, R189). -/
theorem packBody_cases (s : State) :
    (s.status.lutValid = true ∧ (s.bpp.toNat = 1 ∨ s.bpp.toNat = 4 ∨ s.bpp.toNat = 8) ∧
      s.ncolors.toNat ≤ 2 ^ s.bpp.toNat ∧ outputSize s s.bpp.toNat ≤ s.cfg.dstCap ∧
      packBody s = .ok (s.packedAt s.bpp.toNat)) ∨
    (∃ kind, packBody s = .raised kind s) := by
  by_cases hl : s.status.lutValid = true
  · by_cases hb : s.bpp.toNat = 1 ∨ s.bpp.toNat = 4 ∨ s.bpp.toNat = 8
    · by_cases hn : s.ncolors.toNat ≤ 2 ^ s.bpp.toNat
      · by_cases hc : outputSize s s.bpp.toNat ≤ s.cfg.dstCap
        · exact .inl ⟨hl, hb, hn, hc, packBody_of_ok hl hb hn hc⟩
        · exact .inr ⟨_, packBody_of_capacity hl hb hn (Nat.not_le.mp hc)⟩
      · exact .inr ⟨_, packBody_of_colors hl hb (Nat.not_le.mp hn)⟩
    · exact .inr ⟨_, packBody_of_depth hl hb⟩
  · exact .inr ⟨_, packBody_of_invalid (by simpa using hl)⟩

/-- An output that passed the checks fits the 32 bits of DST_SIZE (R27). -/
theorem outputSize_lt {s : State} (hw : s.srcWidth.toNat ≤ 65535) (hh : s.srcHeight.toNat ≤ 65535) {b : Nat}
    (hb : b = 1 ∨ b = 4 ∨ b = 8) : outputSize s b < 2 ^ 32 := by
  have h1 : slw s.cfg.align s.srcWidth.toNat b ≤ 65536 := by
    have := slw_lt s.cfg.align s.srcWidth.toNat b
    have hm : s.srcWidth.toNat * b ≤ 65535 * 8 := Nat.mul_le_mul hw (by omega)
    have : s.cfg.align.bytes ≤ 4 := by cases s.cfg.align <;> decide
    cases ha : s.cfg.align <;> rcases hb with rfl | rfl | rfl <;> simp only [slw, Align.bytes] <;> omega
  have := Nat.mul_le_mul hh h1
  simp only [outputSize]
  omega

/-- `choose_bpp` answers 1, 4 or 8, and only for at most 256 colors (R140). -/
theorem chooseBpp_eq_some {n b : Nat} (h : chooseBpp n = some b) : (b = 1 ∨ b = 4 ∨ b = 8) ∧ n ≤ 2 ^ b := by
  unfold chooseBpp at h
  split at h
  · next hn => obtain rfl := Option.some.inj h; simp; omega
  · split at h
    · next hn => obtain rfl := Option.some.inj h; simp; omega
    · split at h
      · next hn => obtain rfl := Option.some.inj h; simp; omega
      · simp at h

theorem chooseBpp_isSome {n : Nat} (h : n ≤ 256) : ∃ b, chooseBpp n = some b := by
  unfold chooseBpp
  split
  · exact ⟨_, rfl⟩
  · split
    · exact ⟨_, rfl⟩
    · exact ⟨8, rfl⟩

/-- The count of a table of at most 256 colors, as NCOLORS holds it (R24). -/
theorem ncolors_toNat {n : Nat} (h : n ≤ 256) : (BitVec.ofNat 9 n).toNat = n := by
  rw [BitVec.toNat_ofNat]; omega

/-- COMPRESS's third stage packs an output that fits, and raises CapacityExceeded on one that does not (R146). -/
theorem compressPackStage_of_fits {s : State} {b : Nat} (hb : s.bpp.toNat = b) (hc : outputSize s b ≤ s.cfg.dstCap) :
    compressPackStage s = .ok (s.packedAt b) := by
  subst hb
  rw [compressPackStage, if_neg (Nat.not_lt.mpr hc), packStage_eq]

theorem compressPackStage_of_large {s : State} {b : Nat} (hb : s.bpp.toNat = b) (hc : s.cfg.dstCap < outputSize s b) :
    compressPackStage s = .raised .capacityExceeded s := by
  subst hb
  rw [compressPackStage, if_pos hc]

/-- The depth as BPP and DST_BPP hold it. -/
theorem depth_toNat {b : Nat} (h : b = 1 ∨ b = 4 ∨ b = 8) : (BitVec.ofNat 32 b).toNat = b := by
  rcases h with rfl | rfl | rfl <;> rfl

/-- The body of an accepted COMPRESS on a source that passes its check, by the number of colors (R146). -/
theorem compressBody_of_many {s : State} (ho : s.sourceOk) (hn : 256 < (sourceColors s).length) :
    compressBody s = .raised .tooManyColors s.destroyedByBuild := by
  rw [compressBody, checkSrc24_of_ok ho, andThen_ok, buildStage_of_lt hn, andThen_raised, andThen_raised]

theorem compressBody_of_some {s : State} {b : Nat} (ho : s.sourceOk) (hn : (sourceColors s).length ≤ 256)
    (hb : chooseBpp (sourceColors s).length = some b) :
    compressBody s = compressPackStage ((s.builtWith (sourceColors s)).withDepth b) := by
  have hd : depthStage (s.builtWith (sourceColors s)) =
      .ok ((s.builtWith (sourceColors s)).withDepth b) := by
    apply depthStage_of_some
    change chooseBpp (BitVec.ofNat 9 _).toNat = _
    rw [ncolors_toNat hn, hb]
  rw [compressBody, checkSrc24_of_ok ho, andThen_ok, buildStage_of_le hn, andThen_ok, hd, andThen_ok]

end Sys2Proof.Machine
end

