-- ==== Sys2Proof/Laws/Decode.lean ====
section
/-! SUPPORT. What the decoder can answer, said once. -/

namespace Sys2Proof

/-- Each command's word decodes to it. -/
theorem decodeWord_encode (i : Instr) : decodeWord (encode i) = .ok i := by cases i <;> decide

theorem encode_injective {i j : Instr} (h : encode i = encode j) : i = j := by
  revert h
  cases i <;> cases j <;> decide

/-- A word whose reserved field is 0 is its opcode byte (R80). -/
theorem eq_setWidth_opcodeField {w : Word} (h : reservedField w = 0) : w = (opcodeField w).setWidth 32 := by
  simp only [reservedField, opcodeField, ← BitVec.toNat_inj, BitVec.extractLsb'_toNat, BitVec.toNat_setWidth,
    Nat.shiftRight_eq_div_pow] at *
  have := w.isLt
  have h0 : (0 : BitVec 24).toNat = 0 := rfl
  rw [h0] at h
  omega

/-- A word is a command's word and decodes to it, or it is no command's word and is illegal (R84). -/
theorem decodeWord_cases (w : Word) :
    (∃ i, w = encode i ∧ decodeWord w = .ok i) ∨
      (decodeWord w = .error (.illegal w) ∧ ∀ i, w ≠ encode i) := by
  by_cases h : ∃ i, w = encode i
  · obtain ⟨i, rfl⟩ := h
    exact .inl ⟨i, rfl, decodeWord_encode i⟩
  · refine .inr ⟨?_, fun i hi => h ⟨i, hi⟩⟩
    unfold decodeWord
    split
    · rfl
    · next hr =>
      have key := eq_setWidth_opcodeField (not_not.mp hr)
      split
      · next e => rw [e] at key; exact absurd ⟨.build, key⟩ h
      · next e => rw [e] at key; exact absurd ⟨.lookup, key⟩ h
      · next e => rw [e] at key; exact absurd ⟨.pixat, key⟩ h
      · next e => rw [e] at key; exact absurd ⟨.pack, key⟩ h
      · next e => rw [e] at key; exact absurd ⟨.seldepth, key⟩ h
      · next e => rw [e] at key; exact absurd ⟨.compress, key⟩ h
      · rfl

end Sys2Proof
end

