-- ==== Sys2Proof/Laws/Effects.lean ====
section
/-! SUPPORT. Everything a command can do, said once: the ways a CMD write of each command can end (R189, R193). -/

namespace Sys2Proof.Machine

/-- The ways command `i` can end from state `s`: `CommandEffect i s t`. -/
inductive CommandEffect : Instr → State → State → Prop where
  /-- The write is ignored (R193). -/
  | ignored {i s} (h : ¬ s.accepts) : CommandEffect i s s
  /-- An error is recorded before anything changed (R189, R191). -/
  | failed {i s} (ha : s.accepts) (kind : ErrorKind) : CommandEffect i s (s.recordError i.opcode kind.code)
  /-- A build found too many colors, alone or in COMPRESS (R106, R146). -/
  | tooMany {i s} (hi : i = .build ∨ i = .compress) (ha : s.accepts) (ho : s.sourceOk)
      (hn : 256 < (sourceColors s).length) :
      CommandEffect i s (s.destroyedByBuild.recordError i.opcode ErrorKind.tooManyColors.code)
  | built {s} (ha : s.accepts) (ho : s.sourceOk) (hn : (sourceColors s).length ≤ 256) :
      CommandEffect .build s (s.builtWith (sourceColors s)).recordSuccess
  | looked {s} (ha : s.accepts) (hl : s.status.lutValid = true) :
      CommandEffect .lookup s { s.recordSuccess with index := lookupResult s.lut s.color }
  | unpacked {s} (ha : s.accepts) (ho : s.sourceOk) (hr : s.row.toNat < s.srcHeight.toNat)
      (hc : s.col.toNat < s.srcWidth.toNat) :
      CommandEffect .pixat s { s.recordSuccess with color := (pixelAt s s.row.toNat s.col.toNat).key }
  | packed {s} (ha : s.accepts) (ho : s.sourceOk) (hl : s.status.lutValid = true)
      (hb : s.bpp.toNat = 1 ∨ s.bpp.toNat = 4 ∨ s.bpp.toNat = 8) (hn : s.ncolors.toNat ≤ 2 ^ s.bpp.toNat)
      (hc : outputSize s s.bpp.toNat ≤ s.cfg.dstCap) :
      CommandEffect .pack s (s.packedAt s.bpp.toNat).recordSuccess
  | selected {s b} (ha : s.accepts) (hl : s.status.lutValid = true) (hb : chooseBpp s.ncolors.toNat = some b) :
      CommandEffect .seldepth s (s.withDepth b).recordSuccess
  | compressed {s b} (ha : s.accepts) (ho : s.sourceOk) (hn : (sourceColors s).length ≤ 256)
      (hb : chooseBpp (sourceColors s).length = some b) (hc : outputSize s b ≤ s.cfg.dstCap) :
      CommandEffect .compress s (((s.builtWith (sourceColors s)).withDepth b).packedAt b).recordSuccess
  | tooLarge {s b} (ha : s.accepts) (ho : s.sourceOk) (hn : (sourceColors s).length ≤ 256)
      (hb : chooseBpp (sourceColors s).length = some b) (hc : s.cfg.dstCap < outputSize s b) :
      CommandEffect .compress s
        (((s.builtWith (sourceColors s)).withDepth b).recordError 0x06#8 ErrorKind.capacityExceeded.code)

theorem execBuild_effect {s t : State} (h : execBuild s = .next t) : CommandEffect .build s t := by
  rcases issue_cases h with ⟨ha, rfl⟩ | ⟨ha, rfl⟩
  · exact .ignored ha
  rcases checkSrc24_cases (beginCommand s) with ⟨ho, hk⟩ | ⟨kind, -, hk⟩ <;> rw [hk]
  · by_cases hn : 256 < (sourceColors s).length
    · rw [andThen_ok, buildStage_of_lt (s := beginCommand s) hn]
      exact .tooMany (.inl rfl) ha ho hn
    · rw [andThen_ok, buildStage_of_le (s := beginCommand s) (Nat.not_lt.mp hn)]
      exact .built ha ho (Nat.not_lt.mp hn)
  · exact .failed ha kind

theorem execLookup_effect {s t : State} (h : execLookup s = .next t) : CommandEffect .lookup s t := by
  rcases issue_cases h with ⟨ha, rfl⟩ | ⟨ha, rfl⟩
  · exact .ignored ha
  by_cases hl : s.status.lutValid = true
  · rw [lookupBody_of_valid (s := beginCommand s) hl]
    exact .looked ha hl
  · rw [lookupBody_of_invalid (s := beginCommand s) (by simpa using hl)]
    exact .failed ha .sequenceError

theorem execPixat_effect {s t : State} (h : execPixat s = .next t) : CommandEffect .pixat s t := by
  rcases issue_cases h with ⟨ha, rfl⟩ | ⟨ha, rfl⟩
  · exact .ignored ha
  rcases checkSrc24_cases (beginCommand s) with ⟨ho, hk⟩ | ⟨kind, -, hk⟩ <;> rw [hk]
  · by_cases hp : s.srcHeight.toNat ≤ s.row.toNat ∨ s.srcWidth.toNat ≤ s.col.toNat
    · rw [andThen_ok, pixatBody_outside (s := beginCommand s) hp]
      exact .failed ha .operandRange
    · rw [andThen_ok, pixatBody_inside (s := beginCommand s) (Nat.not_le.mp fun h => hp (.inl h))
        (Nat.not_le.mp fun h => hp (.inr h))]
      exact .unpacked ha ho (Nat.not_le.mp fun h => hp (.inl h)) (Nat.not_le.mp fun h => hp (.inr h))
  · exact .failed ha kind

theorem execPack_effect {s t : State} (h : execPack s = .next t) : CommandEffect .pack s t := by
  rcases issue_cases h with ⟨ha, rfl⟩ | ⟨ha, rfl⟩
  · exact .ignored ha
  rcases checkSrc24_cases (beginCommand s) with ⟨ho, hk⟩ | ⟨kind, -, hk⟩ <;> rw [hk]
  · rcases packBody_cases (beginCommand s) with ⟨hl, hb, hn, hc, e⟩ | ⟨kind, e⟩ <;> rw [andThen_ok, e]
    · exact .packed ha ho hl hb hn hc
    · exact .failed ha kind
  · exact .failed ha kind

theorem execSeldepth_effect {s t : State} (h : execSeldepth s = .next t) : CommandEffect .seldepth s t := by
  rcases issue_cases h with ⟨ha, rfl⟩ | ⟨ha, rfl⟩
  · exact .ignored ha
  by_cases hl : s.status.lutValid = true
  · rw [seldepthBody_of_valid (s := beginCommand s) hl]
    cases hb : chooseBpp s.ncolors.toNat with
    | some b => rw [depthStage_of_some (s := beginCommand s) hb]; exact .selected ha hl hb
    | none =>
      have e : depthStage (beginCommand s) = .raised .tooManyColors (beginCommand s) := by
        rw [depthStage, beginCommand_ncolors, hb]
      rw [e]
      exact .failed ha .tooManyColors
  · rw [seldepthBody_of_invalid (s := beginCommand s) (by simpa using hl)]
    exact .failed ha .sequenceError

theorem execCompress_effect {s t : State} (h : execCompress s = .next t) : CommandEffect .compress s t := by
  rcases issue_cases h with ⟨ha, rfl⟩ | ⟨ha, rfl⟩
  · exact .ignored ha
  by_cases ho : s.sourceOk
  · by_cases hn : 256 < (sourceColors s).length
    · rw [compressBody_of_many (s := beginCommand s) ho hn]
      exact .tooMany (.inr rfl) ha ho hn
    · obtain ⟨b, hb⟩ := chooseBpp_isSome (Nat.not_lt.mp hn)
      have hd := depth_toNat (chooseBpp_eq_some hb).1
      rw [compressBody_of_some (s := beginCommand s) ho (Nat.not_lt.mp hn) hb, sourceColors_beginCommand]
      by_cases hc : outputSize s b ≤ s.cfg.dstCap
      · rw [compressPackStage_of_fits (s := ((beginCommand s).builtWith (sourceColors s)).withDepth b) hd hc]
        exact .compressed ha ho (Nat.not_lt.mp hn) hb hc
      · rw [compressPackStage_of_large (s := ((beginCommand s).builtWith (sourceColors s)).withDepth b) hd
          (Nat.not_le.mp hc)]
        exact .tooLarge ha ho (Nat.not_lt.mp hn) hb (Nat.not_le.mp hc)
  · rcases checkSrc24_cases (beginCommand s) with ⟨ho', -⟩ | ⟨kind, -, hk⟩
    · exact absurd ho' ho
    · rw [compressBody, hk]
      exact .failed ha kind

/-- Everything `exec` can do (R189, R193). -/
theorem exec_effect {i : Instr} {s t : State} (h : exec i s = .next t) : CommandEffect i s t := by
  cases i with
  | build => exact execBuild_effect h
  | lookup => exact execLookup_effect h
  | pixat => exact execPixat_effect h
  | pack => exact execPack_effect h
  | seldepth => exact execSeldepth_effect h
  | compress => exact execCompress_effect h

/-- A CMD write that is not accepted changes nothing (R193). -/
theorem CommandEffect.same {i : Instr} {s t : State} (h : CommandEffect i s t) (ha : ¬ s.accepts) : t = s := by
  cases h with
  | ignored => rfl
  | failed ha' | tooMany _ ha' | built ha' | looked ha' | unpacked ha' | packed ha' | selected ha' | compressed ha'
  | tooLarge ha' => exact absurd ha' ha

/-- The body each command issues under its opcode. -/
def commandBody : Instr → State → StageResult
  | .build, s => (checkSrc24 s).andThen buildStage
  | .lookup, s => lookupBody s
  | .pixat, s => (checkSrc24 s).andThen pixatBody
  | .pack, s => (checkSrc24 s).andThen packBody
  | .seldepth, s => seldepthBody s
  | .compress, s => compressBody s

/-- `exec` is the issue of a body under the command's opcode (R193). -/
theorem exec_eq_issue (i : Instr) (s : State) : exec i s = issue i.opcode (commandBody i) s := by
  cases i <;> rfl

/-- A source pre-check that fails ends BUILD, PIXAT, PACK and COMPRESS with its error and no other change (R185). -/
theorem exec_of_sourceError {i : Instr} (hi : i = .build ∨ i = .pixat ∨ i = .pack ∨ i = .compress) {s : State}
    (ha : s.accepts) {kind : ErrorKind} (h : sourceError s = some kind) :
    exec i s = .next (s.recordError i.opcode kind.code) := by
  have hk := checkSrc24_beginCommand_of_error h
  rw [exec_eq_issue, issue_of_accepts _ _ ha]
  rcases hi with rfl | rfl | rfl | rfl <;> simp [commandBody, compressBody, hk, endCommand_raise_beginCommand]

end Sys2Proof.Machine
end

