-- ==== Sys2Proof/Laws/Step.lean ====
section
/-! SUPPORT. Everything a step can do, said once: the ways a statement of the host's script can act on the
state, and how a step fails. -/

namespace Sys2Proof.Machine

/-- The ways statement `st`, performed in state `s`, can end in a next state. -/
inductive StmtEffect : Stmt → State → State → Prop where
  /-- Ignored, or a branch not taken. -/
  | nothing {st s} : StmtEffect st s s
  /-- A read: the host's record grows, and a free value may be drawn. -/
  | observedReg {off s} (w : Word) (n : Nat) :
      StmtEffect (.access (.regRead off)) s { s with observed := .reg off w :: s.observed, draws := s.draws + n }
  | observedByte {sp off s} (b : Byte) (n : Nat) :
      StmtEffect (.access (.byteRead sp off)) s
        { s with observed := .byte sp off b :: s.observed, draws := s.draws + n }
  /-- A CMD write of a command (R16). -/
  | command {w i s t} (hw : decodeWord w = .ok i) (he : CommandEffect i s t) :
      StmtEffect (.access (.regWrite 0x10 w)) s t
  /-- A CMD write of an illegal word (R84). -/
  | illegal {w e s} (hw : decodeWord w = .error e) (ha : s.accepts) :
      StmtEffect (.access (.regWrite 0x10 w)) s (s.recordError (w.extractLsb' 0 8) ErrorKind.illegalCommand.code)
  /-- A write of another register (R11). -/
  | wrote {off w s r} (hr : regAt off = some r) (hc : off ≠ 0x10) (hb : s.status.busy = false) :
      StmtEffect (.access (.regWrite off w)) s (writeReg s r w)
  /-- A write of a byte of SRC (R35). -/
  | stored {off b s} (hb : s.status.busy = false) (ho : off < s.cfg.srcCap) :
      StmtEffect (.access (.byteWrite .src off b)) s (storeSrcByte off b s)
  /-- A read of several bytes as one number (R52). -/
  | observedWide {sp off n s} (o : List Observation) (d : Nat) :
      StmtEffect (.access (.wideRead sp off n)) s { s with observed := o, draws := s.draws + d }
  /-- A write of several bytes of SRC (R52, R89). -/
  | storedWide {off n v s} (hn : 0 < n) (hb : s.status.busy = false) (ho : off + n ≤ s.cfg.srcCap) :
      StmtEffect (.access (.wideWrite .src off n v)) s
        (invalidateLut { s with src := Memory.write s.src off (leBytes n v) })
  /-- A read of as many bytes as a register said (R174). -/
  | observedSized {sp off size s} (o : List Observation) (d : Nat) :
      StmtEffect (.sizedRead sp off size) s { s with observed := o, draws := s.draws + d }
  /-- A branch taken (R92). -/
  | jumped {reg hi lo v target s} : StmtEffect (.branch reg hi lo v target) s { s with pos := target }
  /-- The reset input (R210). -/
  | reset {s} : StmtEffect .hardwareReset s (resetEngine s)

/-- The register map read backwards (R11). -/
theorem offset_of_regAt {off : Nat} {r : RegName} (h : regAt off = some r) : off = r.offset := by
  unfold regAt at h
  split at h <;> first | (obtain rfl := Option.some.inj h; rfl) | cases h

@[simp] theorem regAt_offset (r : RegName) : regAt r.offset = some r := by cases r <;> rfl

theorem execIllegal_effect {w : Word} {e : DecodeError} {s t : State} (hw : decodeWord w = .error e)
    (h : execIllegal w s = .next t) : StmtEffect (.access (.regWrite 0x10 w)) s t := by
  rcases issue_cases h with ⟨-, rfl⟩ | ⟨ha, rfl⟩
  · exact .nothing
  · exact .illegal hw ha

theorem issueWord_effect {w : Word} {s t : State} (h : issueWord w s = .next t) :
    StmtEffect (.access (.regWrite 0x10 w)) s t := by
  unfold issueWord at h
  split at h
  · next i hi => exact .command hi (exec_effect h)
  · next e he => exact execIllegal_effect he h

theorem hostRegRead_effect {off : Nat} {s t : State} (h : hostRegRead off s = .next t) :
    StmtEffect (.access (.regRead off)) s t := by
  unfold hostRegRead at h
  split at h
  · cases h
  split at h
  · cases h
  split at h <;> obtain rfl := Host.Outcome.next.inj h
  · exact .observedReg _ 1
  · exact .observedReg _ 0

theorem hostRegWrite_effect {off : Nat} {w : Word} {s t : State} (h : hostRegWrite off w s = .next t) :
    StmtEffect (.access (.regWrite off w)) s t := by
  unfold hostRegWrite at h
  split at h
  · cases h
  split at h
  · cases h
  split at h
  · next hc => subst hc; exact issueWord_effect h
  next hc =>
  split at h
  · obtain rfl := Host.Outcome.next.inj h; exact .nothing
  next hb =>
  split at h <;> obtain rfl := Host.Outcome.next.inj h
  · next r hr => exact .wrote hr hc (by simpa using hb)
  · exact .nothing

theorem hostByteRead_effect {sp : BufferSpace} {off : Nat} {s t : State} (h : hostByteRead sp off s = .next t) :
    StmtEffect (.access (.byteRead sp off)) s t := by
  unfold hostByteRead at h
  split at h
  · cases h
  split at h
  · obtain rfl := Host.Outcome.next.inj h; exact .observedByte _ 1
  split at h <;> obtain rfl := Host.Outcome.next.inj h
  · exact .observedByte _ 0
  · exact .observedByte _ 1

theorem hostByteWrite_effect {sp : BufferSpace} {off : Nat} {b : Byte} {s t : State}
    (h : hostByteWrite sp off b s = .next t) : StmtEffect (.access (.byteWrite sp off b)) s t := by
  unfold hostByteWrite at h
  split at h
  · cases h
  next ho =>
  cases sp with
  | src =>
    dsimp only at h
    split at h
    · cases h
    · next hb =>
      obtain rfl := Host.Outcome.next.inj h
      exact .stored (by simpa using hb) (Nat.not_le.mp ho)
  | dst => obtain rfl := Host.Outcome.next.inj h; exact .nothing
  | pal => obtain rfl := Host.Outcome.next.inj h; exact .nothing

theorem hostWideRead_effect {sp : BufferSpace} {off n : Nat} {s t : State} (h : hostWideRead sp off n s = .next t) :
    StmtEffect (.access (.wideRead sp off n)) s t := by
  unfold hostWideRead at h
  split at h
  · next u hu =>
    obtain ⟨o, d, rfl⟩ := hostByteReads_next hu
    obtain rfl := Host.Outcome.next.inj h
    exact .observedWide _ d
  · cases h
  · cases h

theorem hostWideWrite_effect {sp : BufferSpace} {off n v : Nat} {s t : State} (h : hostWideWrite sp off n v s = .next t) :
    StmtEffect (.access (.wideWrite sp off n v)) s t := by
  by_cases hsp : sp = .src
  · subst hsp
    cases n with
    | zero => obtain rfl := Host.Outcome.next.inj h; exact .nothing
    | succ n =>
      have hne : leBytes (n + 1) v ≠ [] := List.cons_ne_nil _ _
      obtain ⟨hb, ho⟩ := hostByteWrites_src_next hne h
      rw [hostWideWrite, hostByteWrites_src hne hb ho] at h
      obtain rfl := Host.Outcome.next.inj h
      exact .storedWide (Nat.succ_pos n) hb (by simpa using ho)
  · obtain rfl := hostByteWrites_readOnly_next hsp h
    exact .nothing

/-- Everything a performed statement can do. -/
theorem perform_effect {st : Stmt} {s t : State} (h : perform st s = .next t) : StmtEffect st s t := by
  cases st with
  | access a =>
    cases a with
    | regRead off => exact hostRegRead_effect h
    | regWrite off w => exact hostRegWrite_effect h
    | byteRead sp off => exact hostByteRead_effect h
    | byteWrite sp off b => exact hostByteWrite_effect h
    | wideRead sp off n => exact hostWideRead_effect h
    | wideWrite sp off n v => exact hostWideWrite_effect h
  | branch reg hi lo v target =>
    dsimp only [perform] at h
    split at h
    · cases h
    · split at h <;> obtain rfl := Host.Outcome.next.inj h
      · exact .jumped
      · exact .nothing
  | sizedRead sp off size =>
    dsimp only [perform] at h
    split at h
    · cases h
    · obtain ⟨o, d, rfl⟩ := hostByteReads_next h
      exact .observedSized o d
  | hardwareReset => obtain rfl := Host.Outcome.next.inj h; exact .reset

theorem step_of_stmt {s : State} {st : Stmt} (h : currentStmt s = some st) : step s = perform st (advance s) := by
  rw [step, stepOnce, h]

theorem step_of_none {s : State} (h : currentStmt s = none) : step s = .next s := by
  rw [step, stepOnce, h]

/-- Everything a step can do: the script has run out and nothing happens, or its statement acts on the state
whose position has moved past it. -/
theorem step_effect {s t : State} (h : step s = .next t) :
    (currentStmt s = none ∧ t = s) ∨ ∃ st, currentStmt s = some st ∧ StmtEffect st (advance s) t := by
  cases hc : currentStmt s with
  | none => rw [step_of_none hc] at h; exact .inl ⟨rfl, (Host.Outcome.next.inj h).symm⟩
  | some st => rw [step_of_stmt hc] at h; exact .inr ⟨st, rfl, perform_effect h⟩

end Sys2Proof.Machine
end

