-- ==== Sys2Proof/Laws/Invariant.lean ====
section
/-! SUPPORT. What keeps the invariants of R33: each update of State that a step makes, on the parts it touches. -/

namespace Sys2Proof.Machine

/-- A build replaces all of PAL (R104). -/
theorem pal_write_palette {s : State} (hm : s.memoryOk) {lut : List Key} (h : lut.length ≤ 256) :
    Memory.write s.pal 0 (paletteBytes lut) = Memory.cellsFrom 0 (paletteBytes lut) := by
  apply Memory.write_zero_of_covers
  rw [length_paletteBytes h]
  exact hm.2.2.2

theorem Memory.bound_cellsFrom {bs : List Byte} {n : Nat} (h : bs.length ≤ n) :
    ∀ c ∈ Memory.cellsFrom 0 bs, c.1 < n := by
  intro c hc
  have := (Memory.fst_mem_cellsFrom hc).2
  omega

theorem Memory.bound_write {m : Memory} {off : Nat} {bs : List Byte} {n : Nat} (hm : ∀ c ∈ m, c.1 < n)
    (h : off + bs.length ≤ n) : ∀ c ∈ Memory.write m off bs, c.1 < n := by
  intro c hc
  rcases List.mem_append.mp hc with hc | hc
  · rcases List.mem_append.mp hc with hc | hc
    · exact hm c (List.mem_filter.mp hc).1
    · have := (Memory.fst_mem_cellsFrom hc).2
      omega
  · exact hm c (List.mem_filter.mp hc).1

/-- The model's own fields and the host's script play no part in the invariants. -/
theorem State.Inv.of_hostFields {s : State} (hi : s.Inv) (draws pos : Nat) (script : List Stmt)
    (observed : List Observation) :
    { s with draws := draws, pos := pos, script := script, observed := observed }.Inv :=
  ⟨hi.lut, hi.lutInvalid, hi.lutValid, hi.dstValid, hi.dstInvalid, hi.flags, hi.memory⟩

/-- Recording an error leaves the invariants of table, output and buffers (R190). -/
theorem State.Inv.recordError {s : State} (hi : s.Inv) (op : Byte) {code : Byte} (hc : code ≠ 0) :
    (s.recordError op code).Inv :=
  ⟨hi.lut, hi.lutInvalid, hi.lutValid, hi.dstValid, hi.dstInvalid, by simpa [State.flagsOk] using hc, hi.memory⟩

/-- Success leaves them too (R8). -/
theorem State.Inv.recordSuccess {s : State} (hi : s.Inv) (ha : s.status.err = false) : s.recordSuccess.Inv := by
  refine ⟨hi.lut, hi.lutInvalid, hi.lutValid, hi.dstValid, hi.dstInvalid, ?_, hi.memory⟩
  have h := hi.flags.2.2.1 ha
  simp [State.flagsOk, ha, h]

theorem ErrorKind.code_ne_zero (kind : ErrorKind) : kind.code ≠ 0 := by cases kind <;> decide

/-- Invalidating the LUT keeps the invariants whatever the source registers and SRC become (R34). -/
theorem State.Inv.invalidateLut {s : State} (hi : s.Inv) (w h d : Word) {src : Memory}
    (hs : Memory.wf src ∧ ∀ c ∈ src, c.1 < BufferSpace.src.size s.cfg) :
    (invalidateLut { s with srcWidth := w, srcHeight := h, srcBpp := d, src := src }).Inv where
  lut := ⟨.nil, rfl, by simp⟩
  lutInvalid := fun _ => ⟨rfl, rfl, rfl⟩
  lutValid := by simp [State.lutValidOk]
  dstValid := hi.dstValid
  dstInvalid := hi.dstInvalid
  flags := hi.flags
  memory := ⟨hs, hi.memory.2⟩

theorem State.Inv.resetOf (cfg : Config) (e d : Nat) (script : List Stmt) (pos : Nat) (o : List Observation) :
    { State.resetOf cfg with srcEpoch := e, draws := d, script := script, pos := pos, observed := o }.Inv where
  lut := ⟨.nil, rfl, by simp [State.resetOf]⟩
  lutInvalid := fun _ => ⟨rfl, rfl, rfl⟩
  lutValid := by simp [State.lutValidOk, State.resetOf]
  dstValid := by simp [State.dstValidOk, State.resetOf]
  dstInvalid := fun _ => ⟨rfl, rfl, rfl, rfl, rfl, rfl⟩
  flags := by simp [State.flagsOk, State.resetOf]
  memory := by simp [State.memoryOk, State.resetOf]

/-- A build that found too many colors keeps the invariants (R106). -/
theorem State.Inv.destroyedByBuild {s : State} (hi : s.Inv) : s.destroyedByBuild.Inv where
  lut := ⟨.nil, rfl, by simp⟩
  lutInvalid := fun _ => ⟨rfl, rfl, rfl⟩
  lutValid := by simp [State.lutValidOk]
  dstValid := by simp [State.dstValidOk]
  dstInvalid := fun _ => ⟨rfl, rfl, rfl, rfl, rfl, rfl⟩
  flags := hi.flags
  memory := ⟨hi.memory.1, ⟨.nil, by simp⟩, .nil, by simp⟩

/-- A successful build keeps them (R106). -/
theorem State.Inv.builtWith {s : State} (hi : s.Inv) (ho : s.sourceOk) (hn : (sourceColors s).length ≤ 256) :
    (s.builtWith (sourceColors s)).Inv where
  lut := ⟨pairwise_sortedKeys _, ncolors_toNat hn, hn⟩
  lutInvalid := by simp [State.lutInvalidOk]
  lutValid := fun _ => ⟨ho.1, ho.2.1, ho.2.2.1, rfl, pal_write_palette hi.memory hn⟩
  dstValid := by simp [State.dstValidOk]
  dstInvalid := fun _ => ⟨rfl, rfl, rfl, rfl, rfl, rfl⟩
  flags := hi.flags
  memory := by
    refine ⟨hi.memory.1, ⟨.nil, by simp⟩, Memory.wf_write hi.memory.2.2.1 0 _,
      Memory.bound_write hi.memory.2.2.2 ?_⟩
    rw [length_paletteBytes hn]; exact Nat.le_refl 768

theorem State.Inv.withDepth {s : State} (hi : s.Inv) (b : Nat) : (s.withDepth b).Inv :=
  ⟨hi.lut, hi.lutInvalid, hi.lutValid, hi.dstValid, hi.dstInvalid, hi.flags, hi.memory⟩

/-- Packing keeps them (R126). -/
theorem State.Inv.packedAt {s : State} (hi : s.Inv) (hl : s.status.lutValid = true) {b : Nat}
    (hb : b = 1 ∨ b = 4 ∨ b = 8) (hc : outputSize s b ≤ s.cfg.dstCap) : (s.packedAt b).Inv where
  lut := hi.lut
  lutInvalid := hi.lutInvalid
  lutValid := hi.lutValid
  dstValid := by
    intro _
    obtain ⟨hw, hh, -, -, hp⟩ := hi.lutValid hl
    have hsize : (BitVec.ofNat 32 (outputSize s b)).toNat = outputSize s b := by
      rw [BitVec.toNat_ofNat, Nat.mod_eq_of_lt (outputSize_lt hw hh hb)]
    refine ⟨hw, hh, ?_, ?_, ?_, ?_, ?_⟩ <;> simp only [State.packedAt_dstBpp, State.packedAt_dstSize,
      State.packedAt_palSize, State.packedAt_dst, State.packedAt_pal, depth_toNat hb, hsize]
    · rcases hb with rfl | rfl | rfl <;> decide
    · rfl
    · rcases hb with rfl | rfl | rfl <;> rfl
    · rw [Memory.map_fst_cellsFrom, length_packedBuffer, List.range_eq_range']
    · rw [hp, Memory.map_fst_cellsFrom, length_paletteBytes hi.lut.2.2, List.range_eq_range']
  dstInvalid := by simp [State.dstInvalidOk]
  flags := hi.flags
  memory := ⟨hi.memory.1, ⟨Memory.wf_cellsFrom 0 _, Memory.bound_cellsFrom
    (by rw [length_packedBuffer]; exact hc)⟩, hi.memory.2.2⟩

/-- A LOOKUP's result and a PIXAT's color play no part in the invariants of a valid LUT (R33 ii). -/
theorem State.Inv.index {s : State} (hi : s.Inv) (hl : s.status.lutValid = true) (x : IndexReg) :
    { s with index := x }.Inv :=
  ⟨hi.lut, fun h => by simp [hl] at h, hi.lutValid, hi.dstValid, hi.dstInvalid, hi.flags, hi.memory⟩

theorem State.Inv.color {s : State} (hi : s.Inv) (k : Key) : { s with color := k }.Inv :=
  ⟨hi.lut, hi.lutInvalid, hi.lutValid, hi.dstValid, hi.dstInvalid, hi.flags, hi.memory⟩

theorem State.Inv.clearError {s : State} (hi : s.Inv) (w : Word) : (clearError w s).Inv := by
  unfold Sys2Proof.Machine.clearError
  split
  · exact ⟨hi.lut, hi.lutInvalid, hi.lutValid, hi.dstValid, hi.dstInvalid,
      by simp [State.flagsOk, hi.flags.2.2.2], hi.memory⟩
  · exact hi

end Sys2Proof.Machine
end

