-- ==== Sys2Proof/Laws/PerInstr.lean ====
section
/-! SUPPORT. A statement for all instructions, made per instruction: a command's bytes decode to it whatever
follows them (R52, R80, R81). -/

namespace Sys2Proof.Laws.RoundTrip

/-- The command is well formed, its word is its opcode with the reserved field 0, and its bytes decode to it. -/
def Statement (i : Instr) : Prop :=
  i.wellFormed = true ∧ reservedField (encode i) = 0 ∧ opcodeField (encode i) = i.opcode ∧
    ∀ rest : List Byte, decode (encodeBytes i ++ rest) = .ok (i, rest)

theorem build : Statement .build := ⟨rfl, by decide, by decide, fun _ => rfl⟩

theorem lookup : Statement .lookup := ⟨rfl, by decide, by decide, fun _ => rfl⟩

theorem pixat : Statement .pixat := ⟨rfl, by decide, by decide, fun _ => rfl⟩

theorem pack : Statement .pack := ⟨rfl, by decide, by decide, fun _ => rfl⟩

theorem seldepth : Statement .seldepth := ⟨rfl, by decide, by decide, fun _ => rfl⟩

theorem compress : Statement .compress := ⟨rfl, by decide, by decide, fun _ => rfl⟩

end Sys2Proof.Laws.RoundTrip
end

