-- ==== Sys2Proof/Tests/Slice0.lean ====
section
/-! SUPPORT. The model's own tests, each on one step, and the witnesses of the statements' hypotheses. Expected
results are the vectors T<n> and F<n> of spec/95_test_vectors.md, or hand calculation from the cited rule. -/

namespace Sys2Proof.Tests

open Sys2Proof.Machine

/-! ## Small states -/

/-- A small instance: 64 bytes of SRC and of DST. -/
def small : Config := ⟨.four, 64, 64⟩

/-- An idle engine with a 24-bit source of the given size in SRC. -/
def loaded (cfg : Config) (w h : Word) (src : Memory) : State :=
  { State.resetOf cfg with srcWidth := w, srcHeight := h, srcBpp := 24#32, src := src }

/-- The 2×2 image [red, red / green, blue] of T10, its padding bytes unwritten. -/
def picture : State :=
  loaded small 2#32 2#32
    (Memory.write (Memory.write [] 0 [0x00#8, 0x00#8, 0xFF#8, 0x00#8, 0x00#8, 0xFF#8]) 8
      [0x00#8, 0xFF#8, 0x00#8, 0xFF#8, 0x00#8, 0x00#8])

/-- The image of T12, [blue, green / red, red]. -/
def pictureReordered : State :=
  loaded small 2#32 2#32
    (Memory.write (Memory.write [] 0 [0xFF#8, 0x00#8, 0x00#8, 0x00#8, 0xFF#8, 0x00#8]) 8
      [0x00#8, 0x00#8, 0xFF#8, 0x00#8, 0x00#8, 0xFF#8])

/-- The image of T11: that of T10 on the byte-aligned variant. -/
def pictureBytewise : State :=
  loaded ⟨.one, 64, 64⟩ 2#32 2#32
    (Memory.write [] 0 [0x00#8, 0x00#8, 0xFF#8, 0x00#8, 0x00#8, 0xFF#8,
      0x00#8, 0xFF#8, 0x00#8, 0xFF#8, 0x00#8, 0x00#8])

/-- The LUT of T10. -/
def table : List Key := [0x0000FF#24, 0x00FF00#24, 0xFF0000#24]

/-- The image of T10 with its table built. -/
def built : State := (picture.builtWith table).recordSuccess

/-- The image of T10 packed at depth 4. -/
def packed : State := ((built.withDepth 4).packedAt 4).recordSuccess

/-- A state with an error standing: ERROR = 0x00000312 (T24). -/
def failed : State := picture.recordError 0x03#8 0x12#8

/-- The state that answers, and the state before where the step stops. -/
def after (s : State) (o : Host.Outcome State Fault Refusal) : State :=
  match o with
  | .next t => t
  | .fault _ => s
  | .refused _ => s

def run (i : Instr) (s : State) : State := after s (exec i s)

theorem exec_eq_run (i : Instr) (s : State) : exec i s = .next (run i s) := by
  obtain ⟨t, h⟩ := issue_answers i.opcode (commandBody i) s
  rw [← exec_eq_issue] at h
  rw [run, h]; rfl

/-- A state about to perform one statement. -/
def about (st : Stmt) (s : State) : State := loadScript [st] s

/-- The idle state in which a script is about to read as many bytes of DST as the DST_SIZE it has read. -/
def sizedReading : State :=
  { about (.sizedRead .dst 0 .dstSize) packed with observed := [.reg 0x44 8#32] }

/-! ## Well-formedness: a term that each check refuses -/

theorem test_wellFormed_access :
    Access.wellFormed small (.regRead 0x48) = true ∧ Access.wellFormed small (.regRead 0x49) = false ∧
    Access.wellFormed small (.regRead 0xFC) = true ∧ Access.wellFormed small (.regRead 0x100) = false ∧
    Access.wellFormed small (.regWrite 0x16 0) = false ∧ Access.wellFormed small (.regWrite 0x104 0) = false ∧
    Access.wellFormed small (.byteRead .dst 63) = true ∧ Access.wellFormed small (.byteRead .dst 64) = false ∧
    Access.wellFormed small (.byteRead .pal 768) = false ∧
    Access.wellFormed small (.byteWrite .src 64 0) = false := by decide

theorem test_wellFormed_wide :
    Access.wellFormed small (.wideRead .dst 62 2) = true ∧ Access.wellFormed small (.wideRead .dst 62 3) = false ∧
    Access.wellFormed small (.wideRead .dst 0 0) = false ∧
    Access.wellFormed small (.wideWrite .src 60 4 0xFFFFFFFF) = true ∧
    Access.wellFormed small (.wideWrite .src 61 4 0) = false ∧
    Access.wellFormed small (.wideWrite .src 0 0 0) = false ∧
    Access.wellFormed small (.wideWrite .src 0 2 0x10000) = false := by decide

theorem test_wellFormed_branch :
    Stmt.wellFormed small 3 (.branch .status 2 2 1 3) = true ∧
    Stmt.wellFormed small 3 (.branch .status 1 2 0 3) = false ∧
    Stmt.wellFormed small 3 (.branch .status 32 31 0 3) = false ∧
    Stmt.wellFormed small 3 (.branch .status 2 2 2 3) = false ∧
    Stmt.wellFormed small 3 (.branch .status 2 2 1 4) = false := by decide

theorem test_wellFormed_sized :
    Stmt.wellFormed small 1 (.sizedRead .dst 64 .dstSize) = true ∧
    Stmt.wellFormed small 1 (.sizedRead .dst 65 .dstSize) = false := by decide

theorem test_wellFormed_config :
    Config.hardware.wellFormed = true ∧ Config.byteAligned.wellFormed = true ∧
    Config.wellFormed ⟨.four, 2 ^ 34 + 1, 0⟩ = false ∧ Config.wellFormed ⟨.four, 0, 2 ^ 32 + 1⟩ = false := by decide

theorem test_wellFormed_instr (i : Instr) : i.wellFormed = true := by cases i <;> decide

theorem test_memory_wf : Memory.wf [(0, 1#8), (2, 0#8)] ∧ ¬Memory.wf [(2, 1#8), (0, 0#8)] ∧
    ¬Memory.wf [(2, 1#8), (2, 1#8)] := by decide

/-! ## Decoding: words written out bit by bit from R80 and R81 (T60, T61) -/

theorem test_decode_build : decodeWord 0b00000000000000000000000000000001#32 = .ok .build := by decide
theorem test_decode_lookup : decodeWord 0b00000000000000000000000000000010#32 = .ok .lookup := by decide
theorem test_decode_pixat : decodeWord 0b00000000000000000000000000000011#32 = .ok .pixat := by decide
theorem test_decode_pack : decodeWord 0b00000000000000000000000000000100#32 = .ok .pack := by decide
theorem test_decode_seldepth : decodeWord 0b00000000000000000000000000000101#32 = .ok .seldepth := by decide
theorem test_decode_compress : decodeWord 0b00000000000000000000000000000110#32 = .ok .compress := by decide

theorem test_decode_bytes : decode [0x04#8, 0x00#8, 0x00#8, 0x00#8, 0xAA#8] = .ok (.pack, [0xAA#8]) ∧
    decode [0x00#8, 0x00#8, 0x00#8, 0x04#8] = .error (.illegal 0x04000000#32) ∧
    decode [0x04#8, 0x00#8, 0x00#8] = .error (.short 3) := by decide

theorem test_decode_illegal :
    [0x00000000#32, 0x00000007#32, 0x000000FF#32, 0x00000106#32, 0x80000001#32, 0xFFFFFFFF#32].map
        decodeWord =
      [.error (.illegal 0x00000000#32), .error (.illegal 0x00000007#32), .error (.illegal 0x000000FF#32),
        .error (.illegal 0x00000106#32), .error (.illegal 0x80000001#32), .error (.illegal 0xFFFFFFFF#32)] := by
  decide

theorem test_illegal_word_errors :
    [0x00000000#32, 0x00000007#32, 0x000000FF#32, 0x00000106#32, 0x80000001#32, 0xFFFFFFFF#32].map
        (fun w => (after picture (issueWord w picture)).error.toWord) =
      [0x00000010#32, 0x00000710#32, 0x0000FF10#32, 0x00000610#32, 0x00000110#32, 0x0000FF10#32] := by decide

theorem test_decodeTableWord : decodeTableWord 32 6 = some .compress ∧ decodeTableWord 32 0x106 = none ∧
    decodeTableWord 8 5 = some .seldepth := by decide

/-! ## Reset and fetch -/

theorem test_reset_registers :
    readReg State.reset .cap = 4#32 ∧ readReg State.reset .status = 0#32 ∧ readReg State.reset .error = 0#32 ∧
    readReg State.reset .ncolors = 0#32 ∧ State.reset.src = [] := by decide

theorem test_fetch_runs_lookup :
    (after State.reset (step (State.reset.withFetchWord 32 2))).error.toWord = 0x00000211#32 := by decide

theorem test_step_idles : step State.reset = .next State.reset := rfl

/-! ## The commands -/

theorem test_slw : [0, 1, 2, 9, 33, 257].map (fun w => (slw .four w 1, slw .four w 4, slw .one w 24)) =
    [(0, 0, 0), (4, 4, 3), (4, 4, 6), (4, 8, 27), (8, 20, 99), (36, 132, 771)] := by decide

theorem test_keys : Color.key ⟨255, 0, 0⟩ = 0xFF0000#24 ∧ Color.key ⟨1, 2, 3⟩ = 0x010203#24 ∧
    Color.lt ⟨0, 255, 255⟩ ⟨1, 0, 0⟩ = true ∧ Color.lt ⟨1, 2, 3⟩ ⟨1, 2, 2⟩ = false := by decide

/-- T10. -/
theorem test_build : (run .build picture).lut = table ∧ (run .build picture).ncolors = 3#9 ∧
    (run .build picture).status.toWord = 0x0A#32 ∧
    (run .build picture).pal.take 10 = [(0, 0xFF#8), (1, 0x00#8), (2, 0x00#8), (3, 0x00#8), (4, 0xFF#8), (5, 0x00#8),
      (6, 0x00#8), (7, 0x00#8), (8, 0xFF#8), (9, 0x00#8)] := by decide

/-- T11, T12. -/
theorem test_build_variants : (run .build pictureBytewise).lut = table ∧
    (run .build pictureReordered).lut = table := by decide

/-- T18. -/
theorem test_lookup : [0xFF0000#24, 0x00FF00#24, 0x0000FF#24, 0xFFFFFF#24, 0x000000#24].map
    (fun k => (run .lookup { built with color := k }).index.toWord) =
      [0x102#32, 0x101#32, 0x100#32, 0#32, 0#32] := by decide

/-- T19. -/
theorem test_lookup_without_table : (run .lookup picture).error.toWord = 0x00000211#32 ∧
    (run .lookup picture).status.toWord = 0x04#32 := by decide

/-- T23. -/
theorem test_pixat : [(0, 0), (0, 1), (1, 0), (1, 1)].map
    (fun p => (run .pixat { picture with row := BitVec.ofNat 32 p.1, col := BitVec.ofNat 32 p.2 }).color) =
      [0xFF0000#24, 0xFF0000#24, 0x00FF00#24, 0x0000FF#24] := by decide

/-- T24, T25. -/
theorem test_pixat_errors : (run .pixat { picture with row := 2#32 }).error.toWord = 0x00000312#32 ∧
    (run .pixat { picture with col := 2#32 }).error.toWord = 0x00000312#32 ∧
    (run .pixat { picture with srcBpp := 8#32 }).error.toWord = 0x00000308#32 ∧
    (run .pixat { picture with srcBpp := 3#32 }).error.toWord = 0x00000305#32 ∧
    (run .pixat { picture with srcWidth := 65536#32, srcBpp := 3#32 }).error.toWord = 0x00000304#32 := by decide

/-- T30, T31: depths 4 and 8. -/
theorem test_pack : (run .pack { built with bpp := 4#32 }).dst = [(0, 0x22#8), (1, 0x00#8), (2, 0x00#8), (3, 0x00#8),
      (4, 0x10#8), (5, 0x00#8), (6, 0x00#8), (7, 0x00#8)] ∧
    (run .pack { built with bpp := 8#32 }).dst = [(0, 0x02#8), (1, 0x02#8), (2, 0x00#8), (3, 0x00#8),
      (4, 0x01#8), (5, 0x00#8), (6, 0x00#8), (7, 0x00#8)] ∧
    (run .pack { built with bpp := 8#32 }).palSize = 768#32 := by decide

/-- T32, T39. -/
theorem test_pack_errors : (run .pack { built with bpp := 1#32 }).error.toWord = 0x00000412#32 ∧
    (run .pack { built with bpp := 2#32 }).error.toWord = 0x00000405#32 ∧
    (run .pack { picture with bpp := 2#32 }).error.toWord = 0x00000411#32 ∧
    (run .pack { picture with srcBpp := 8#32 }).error.toWord = 0x00000408#32 := by decide

/-- T40 to T47. -/
theorem test_seldepth : [0#9, 1#9, 2#9, 3#9, 16#9, 17#9, 256#9].map
    (fun n => (run .seldepth { built with ncolors := n }).bpp) = [1#32, 1#32, 1#32, 4#32, 4#32, 8#32, 8#32] := by
  decide

/-- T48. -/
theorem test_seldepth_without_table : (run .seldepth picture).error.toWord = 0x00000511#32 ∧
    (run .seldepth picture).bpp = 0#32 := by decide

/-- T50, T56. -/
theorem test_compress : outputImage (run .compress { picture with bpp := 8#32 }) =
    some ⟨2, 2, 4, [0x22#8, 0x00#8, 0x00#8, 0x00#8, 0x10#8, 0x00#8, 0x00#8, 0x00#8],
      [0xFF#8, 0x00#8, 0x00#8, 0x00#8, 0xFF#8, 0x00#8, 0x00#8, 0x00#8, 0xFF#8] ++ List.replicate 39 0x00#8⟩ ∧
    (run .compress picture).status.toWord = 0x1A#32 := by decide

/-- T57. -/
theorem test_compress_capacity :
    (run .compress { picture with cfg := ⟨.four, 64, 4⟩ }).error.toWord = 0x00000613#32 ∧
    (run .compress { picture with cfg := ⟨.four, 64, 4⟩ }).status.toWord = 0x0C#32 ∧
    (run .compress { picture with cfg := ⟨.four, 64, 4⟩ }).bpp = 4#32 := by decide

/-- R52: the first two bytes `22 00` of DST of T30 and `FF 00 00 00` of PAL as numbers, lowest offset least
significant. -/
theorem test_wide_read : (after packed (hostAccess (.wideRead .pal 0 4) packed)).observed.head? =
      some (.number .pal 0 4 0x000000FF) ∧
    (after packed (hostAccess (.wideRead .dst 3 2) packed)).observed.head? = some (.number .dst 3 2 0x1000) := by
  decide

/-- R52: 0x345612 written as three bytes is the pixel `12 56 34` of blue, green, red. -/
theorem test_wide_write : (after picture (hostAccess (.wideWrite .src 0 3 0x345612) built)).src.take 3 =
      [(0, 0x12#8), (1, 0x56#8), (2, 0x34#8)] ∧
    (after picture (hostAccess (.wideWrite .src 0 3 0x345612) built)).status.lutValid = false := by decide

/-- R174: the block at `failed:` for a 1×1 image, which stands last. -/
theorem test_failed_block :
    (conversion .four 0 false ⟨1, 1, 24, [1#8, 2#8, 3#8, 0#8], []⟩).take 2 =
      [scriptRd .cap, .branch .cap 2 0 1 23] ∧
    (conversion .four 0 false ⟨1, 1, 24, [1#8, 2#8, 3#8, 0#8], []⟩)[13]? = some (.branch .status 2 2 1 22) ∧
    (conversion .four 0 false ⟨1, 1, 24, [1#8, 2#8, 3#8, 0#8], []⟩).drop 21 =
      [.branch .status 2 2 0 23, scriptRd .error] := by decide

/-- R174 `DSTRD 0, DST_SIZE` on the output of T30: the last of its 8 bytes is the newest. -/
theorem test_sized_read : lastBytesOf .dst 8 (after packed (step sizedReading)).observed =
      [0x22#8, 0x00#8, 0x00#8, 0x00#8, 0x10#8, 0x00#8, 0x00#8, 0x00#8] ∧
    (after packed (step sizedReading)).pos = 1 := by decide

/-- R174: `out` of a host's reads, newest first: a 1×1 image of depth 1, its palette read before its pixels. -/
theorem test_collected : collectedImage ([.byte .dst 1 0x00#8, .byte .dst 0 0x80#8, .byte .pal 2 3#8, .byte .pal 1 2#8,
      .byte .pal 0 1#8, .reg 0x48 3#32, .reg 0x44 2#32, .reg 0x40 1#32, .reg 0x3C 1#32, .reg 0x38 1#32] ++
      [.byte .dst 0 0xFF#8, .byte .pal 0 0xFF#8, .reg 0x38 9#32]) =
    some ⟨1, 1, 1, [0x80#8, 0x00#8], [1#8, 2#8, 3#8]⟩ := by decide

/-- R174, R181: AlreadyIndexed of COMPRESS is ERROR = 0x0608; a host built for ALIGN 1 converts nothing here. -/
theorem test_conversion_result :
    conversionResult .four [.reg 0x0C 0x608#32, .reg 0x08 0x04#32, .reg 0x00 4#32] = some (.error .alreadyIndexed) ∧
    conversionResult .one [.reg 0x08 0x1A#32, .reg 0x00 4#32] = none := ⟨rfl, rfl⟩

/-- R162 step 8 and N21: an Image without pixels, its data offset past the end (log 21); F7's short read. -/
theorem test_decode_no_pixels :
    decodeFile .four ([0x42#8, 0x4D#8] ++ List.replicate 8 0#8 ++ [0xFF#8, 0#8, 0#8, 0#8] ++
      [12#8, 0#8, 0#8, 0#8, 3#8, 0#8, 0#8, 0#8, 1#8, 0#8, 24#8, 0#8]) = .ok ⟨3, 0, 24, [], []⟩ ∧
    decodeFile .four ([0x42#8, 0x4D#8] ++ List.replicate 8 0#8 ++ [26#8, 0#8, 0#8, 0#8] ++
      [12#8, 0#8, 0#8, 0#8, 1#8, 0#8, 1#8, 0#8, 1#8, 0#8, 24#8, 0#8] ++ [1#8, 2#8, 3#8]) =
        .error .truncatedFile := ⟨rfl, rfl⟩

/-- R156, R166 by hand for a 2×2 image of depth 1: file size 14 + 12 + 6 + 8 = 40, pixel data at 32. -/
theorem test_codec :
    ((encodeFile .four ⟨2, 2, 1, [0x80#8, 0x00#8, 0x00#8, 0x00#8, 0x40#8, 0x00#8, 0x00#8, 0x00#8],
      List.replicate 6 0x00#8⟩).toOption.map (List.take 26)) =
      some [0x42#8, 0x4D#8, 0x28#8, 0x00#8, 0x00#8, 0x00#8, 0x00#8, 0x00#8, 0x00#8, 0x00#8, 0x20#8, 0x00#8, 0x00#8,
        0x00#8, 0x0C#8, 0x00#8, 0x00#8, 0x00#8, 0x02#8, 0x00#8, 0x02#8, 0x00#8, 0x01#8, 0x00#8, 0x01#8, 0x00#8] := by
  decide

/-! ## Witnesses: a concrete state and operands for the hypotheses of every statement -/

theorem table_of_picture : sourceColors picture = table := by decide

theorem picture_accepts : picture.accepts := ⟨rfl, rfl⟩

theorem picture_sourceOk : picture.sourceOk := by unfold State.sourceOk; decide

theorem picture_inv : picture.Inv where
  lut := by unfold State.lutOk; decide
  lutInvalid := by unfold State.lutInvalidOk; decide
  lutValid := by unfold State.lutValidOk; decide
  dstValid := by unfold State.dstValidOk; decide
  dstInvalid := by unfold State.dstInvalidOk; decide
  flags := by unfold State.flagsOk; decide
  memory := by unfold State.memoryOk; decide

theorem built_inv : built.Inv := by
  have h := picture_inv.builtWith picture_sourceOk (by decide)
  rw [table_of_picture] at h
  exact h.recordSuccess rfl

theorem packed_inv : packed.Inv :=
  ((built_inv.withDepth 4).packedAt rfl (.inr (.inl rfl)) (by decide)).recordSuccess rfl

theorem failed_inv : failed.Inv := picture_inv.recordError _ (by decide)

/-- IllegalWordRaisesIllegalCommand, at the words where its clauses meet. -/
theorem witness_illegal_word : picture.accepts ∧
    decodeWord 0x000#32 = .error (.illegal 0x000#32) ∧ decodeWord 0x007#32 = .error (.illegal 0x007#32) ∧
    decodeWord 0x106#32 = .error (.illegal 0x106#32) ∧ decodeWord 0x006#32 = .ok .compress :=
  ⟨picture_accepts, by decide⟩

/-- StepRunsTheWrittenCommand. -/
theorem witness_step_command : currentStmt (about (.access (.regWrite 0x10 3#32)) picture) =
      some (.access (.regWrite 0x10 3#32)) ∧ decodeWord 3#32 = .ok .pixat ∧
    currentStmt (about (.access (.regWrite 0x10 7#32)) picture) = some (.access (.regWrite 0x10 7#32)) ∧
    decodeWord 7#32 = .error (.illegal 7#32) := by decide

/-- CommandAcceptance: busy, error standing, accepted. -/
theorem witness_acceptance : (beginCommand picture).status.busy = true ∧ failed.status.err = true ∧
    picture.accepts := ⟨rfl, rfl, picture_accepts⟩

/-- SourceChecksInOrder: each check fails, and the greatest dimension passes the first. -/
theorem witness_source_checks : picture.accepts ∧ 65535 < (65536#32).toNat ∧ (65535#32).toNat ≤ 65535 ∧
    ((3#32).toNat ≠ 1 ∧ (3#32).toNat ≠ 4 ∧ (3#32).toNat ≠ 8 ∧ (3#32).toNat ≠ 24) ∧
    (picture.srcBpp.toNat = 24 ∧ ({ picture with srcHeight := 9#32 } : State).cfg.srcCap <
      (9#32).toNat * slw small.align (2#32).toNat 24) := ⟨picture_accepts, by decide⟩

/-- CommandsNeedValidTable. -/
theorem witness_no_table : picture.accepts ∧ picture.status.lutValid = false ∧ picture.sourceOk :=
  ⟨picture_accepts, rfl, picture_sourceOk⟩

/-- ErrorIsSticky: the error stays, is cleared, is reset by software and by the reset input. -/
theorem witness_sticky : failed.status.err = true ∧
    (∃ t, step (about (.access (.regWrite 0x10 1#32)) failed) = .next t ∧ t.error = failed.error) ∧
    (∃ t, step (about scriptClrerr failed) = .next t ∧ t.status.err = false) ∧
    (∃ t, step (about Machine.scriptReset failed) = .next t ∧ t.status.err = false) ∧
    (∃ t, step (about .hardwareReset failed) = .next t ∧ t.status.err = false) :=
  ⟨rfl, ⟨_, rfl, rfl⟩, ⟨_, rfl, rfl⟩, ⟨_, rfl, rfl⟩, ⟨_, rfl, rfl⟩⟩

/-- BuildInstallsTheTable, PaletteAfterBuild. -/
theorem witness_build : picture.accepts ∧ picture.sourceOk ∧ (sourceColors picture).length ≤ 256 ∧
    ∃ t, exec .build picture = .next t ∧ t.status.done = true :=
  ⟨picture_accepts, picture_sourceOk, by decide, _, exec_eq_run _ _, by decide⟩

/-- BuildIgnoresOrderAndFrequency: the images of T10 and T12 have the same colors. -/
theorem witness_build_order : pictureReordered.accepts ∧ pictureReordered.sourceOk ∧
    pixelKeys picture = [0xFF0000#24, 0xFF0000#24, 0x00FF00#24, 0x0000FF#24] ∧
    pixelKeys pictureReordered = [0x0000FF#24, 0x00FF00#24, 0xFF0000#24, 0xFF0000#24] :=
  ⟨⟨rfl, rfl⟩, by unfold State.sourceOk; decide, by decide, by decide⟩

/-- An `n`×1 image of `n` colors, pixel `c` of key `c` (T16, T17). -/
def ramp (n : Nat) : State :=
  loaded ⟨.four, 1024, 1024⟩ (BitVec.ofNat 32 n) 1#32
    (Memory.cellsFrom 0 (((List.range n).map (BitVec.ofNat 24)).flatMap entryBytes))

theorem sourceColors_ramp {n : Nat} (hn : n ≤ 300) :
    sourceColors (ramp n) = (List.range n).map (BitVec.ofNat 24) := by
  have hp : ∀ c, c < n → (pixelAt (ramp n) 0 c).key = BitVec.ofNat 24 c := by
    intro c hc
    have hk : ((List.range n).map (BitVec.ofNat 24))[c]? = some (BitVec.ofNat 24 c) := by simp [hc]
    have hb : ∀ j, j < 3 → srcByte (ramp n) (3 * c + j) = ((entryBytes (BitVec.ofNat 24 c))[j]?).getD 0 := by
      intro j hj
      have hr : (ramp n).src.read (3 * c + j) = (entryBytes (BitVec.ofNat 24 c))[j]? := by
        rw [ramp, loaded, Memory.read_cellsFrom, if_pos (Nat.zero_le _), Nat.sub_zero,
          getElem?_flatMap_entryBytes _ _ _ hj, hk]
        rfl
      have hs : ∃ b, (entryBytes (BitVec.ofNat 24 c))[j]? = some b :=
        ⟨_, List.getElem?_eq_getElem (by rw [length_entryBytes]; exact hj)⟩
      obtain ⟨b, hs⟩ := hs
      rw [srcByte, hr, hs]; rfl
    have e : pixelAt (ramp n) 0 c = unkey (BitVec.ofNat 24 c) := by
      have h0 := hb 0 (by decide)
      have h1 := hb 1 (by decide)
      have h2 := hb 2 (by decide)
      simp only [pixelAt, pixelOffset, Nat.zero_mul, Nat.zero_add, Nat.mul_comm c 3]
      rw [h2, h1]
      exact congrArg _ h0
    rw [e, key_unkey]
  have hw : (ramp n).srcWidth.toNat = n := by
    show (BitVec.ofNat 32 n).toNat = n
    rw [BitVec.toNat_ofNat]; omega
  have hh : (ramp n).srcHeight.toNat = 1 := rfl
  have hasc : ((List.range n).map (BitVec.ofNat 24)).Pairwise (· < ·) := by
    refine List.pairwise_map.mpr (List.pairwise_lt_range.imp_of_mem fun ha hb hab => ?_)
    simp only [List.mem_range] at ha hb
    simp only [BitVec.lt_def, BitVec.toNat_ofNat]; omega
  refine ascending_ext (pairwise_sortedKeys _) hasc fun k => ?_
  change k ∈ sortedKeys _ ↔ _
  simp only [mem_sortedKeys, pixelKeys, List.mem_map, mem_pixelCoords, hw, hh, List.mem_range, Prod.exists]
  constructor
  · rintro ⟨row, col, ⟨hr, hc⟩, rfl⟩
    obtain rfl : row = 0 := by omega
    exact ⟨col, hc, (hp col hc).symm⟩
  · rintro ⟨c, hc, rfl⟩
    exact ⟨0, c, ⟨by decide, hc⟩, hp c hc⟩

/-- BuildTooManyColors, CompressErrors: one color too many (T17), and the most a table holds (T16). -/
theorem witness_too_many : (ramp 257).accepts ∧ (ramp 257).sourceOk ∧ 256 < (sourceColors (ramp 257)).length ∧
    (ramp 256).sourceOk ∧ (sourceColors (ramp 256)).length = 256 := by
  rw [sourceColors_ramp (by decide), sourceColors_ramp (by decide), List.length_map, List.length_range,
    List.length_map, List.length_range]
  exact ⟨⟨rfl, rfl⟩, by unfold State.sourceOk; decide, by decide, by unfold State.sourceOk; decide, rfl⟩

/-- LookupGivesTheRank: a color of the table and one that is not in it. -/
theorem witness_lookup : built.accepts ∧ built.status.lutValid = true ∧ built.lutOk ∧
    built.lut[2]? = some 0xFF0000#24 ∧ 0xFFFFFF#24 ∉ built.lut :=
  ⟨⟨rfl, rfl⟩, rfl, built_inv.lut, rfl, by decide⟩

/-- PixatReadsThePixel at the last pixel, PixatOutsideTheImage at the first row and column beyond it. -/
theorem witness_pixat : picture.accepts ∧ picture.sourceOk ∧ (1#32).toNat < picture.srcHeight.toNat ∧
    (1#32).toNat < picture.srcWidth.toNat ∧ picture.srcHeight.toNat ≤ (2#32).toNat ∧
    picture.srcWidth.toNat ≤ (2#32).toNat := ⟨picture_accepts, picture_sourceOk, by decide⟩

/-- PixatThenLookupHits, PackNeverMisses. -/
theorem witness_pixat_lookup : built.Inv ∧ built.accepts ∧ built.sourceOk ∧ built.status.lutValid = true ∧
    built.row.toNat < built.srcHeight.toNat ∧ built.col.toNat < built.srcWidth.toNat :=
  ⟨built_inv, ⟨rfl, rfl⟩, picture_sourceOk, rfl, by decide, by decide⟩

/-- PackWritesTheImage at its two greater depths; depth 1 needs two colors, which `ramp 2` has. -/
theorem witness_pack : built.accepts ∧ built.sourceOk ∧ built.status.lutValid = true ∧
    (∀ b ∈ [4, 8], built.ncolors.toNat ≤ 2 ^ b ∧
      built.srcHeight.toNat * slw built.cfg.align built.srcWidth.toNat b ≤ built.cfg.dstCap) ∧
    (sourceColors (ramp 2)).length ≤ 2 ^ 1 := by
  rw [sourceColors_ramp (by decide)]
  exact ⟨⟨rfl, rfl⟩, picture_sourceOk, rfl, by decide, by decide⟩

/-- PackChecksInOrder: a depth that is none, a depth too small, an output too large. -/
theorem witness_pack_checks : built.accepts ∧ built.sourceOk ∧ built.status.lutValid = true ∧
    ((2#32).toNat ≠ 1 ∧ (2#32).toNat ≠ 4 ∧ (2#32).toNat ≠ 8) ∧ 2 ^ (1#32).toNat < built.ncolors.toNat ∧
    built.ncolors.toNat ≤ 2 ^ (4#32).toNat ∧
    ({ built with cfg := ⟨.four, 64, 7⟩ } : State).cfg.dstCap <
      built.srcHeight.toNat * slw .four built.srcWidth.toNat (4#32).toNat :=
  ⟨⟨rfl, rfl⟩, picture_sourceOk, rfl, by decide⟩

/-- PackedImageShowsThePicture, ExtractionGivesThePaletteId, PackedLaneByLane, with the ids of T30 and a bit of no field. -/
theorem witness_packed : (built.withDepth 4).Inv ∧ (built.withDepth 4).accepts ∧
    (∃ t, exec .pack (built.withDepth 4) = .next t ∧ t.status.done = true) ∧
    rank built.lut (pixelAt built 1 0).key = some 1 ∧
    (∀ col, col < built.srcWidth.toNat → col * 4 / 8 ≠ 1) ∧ 1 < slw built.cfg.align built.srcWidth.toNat 4 :=
  ⟨built_inv.withDepth 4, ⟨rfl, rfl⟩, ⟨_, exec_eq_run _ _, by decide⟩, by decide, by decide, by decide⟩

/-- A 2×1 image, black and white. -/
def twoColors : State := loaded small 2#32 1#32 (Memory.write [] 0 [0#8, 0#8, 0#8, 0xFF#8, 0xFF#8, 0xFF#8])

theorem twoColors_inv : twoColors.Inv where
  lut := by unfold State.lutOk; decide
  lutInvalid := by unfold State.lutInvalidOk; decide
  lutValid := by unfold State.lutValidOk; decide
  dstValid := by unfold State.dstValidOk; decide
  dstInvalid := by unfold State.dstInvalidOk; decide
  flags := by unfold State.flagsOk; decide
  memory := by unfold State.memoryOk; decide

/-- PackedLaneByLane at depth 8, and at depth 1 with the ids 0 and 1 of the two colors: byte 0x40 (R129). -/
theorem witness_packed_depths : (built.withDepth 8).Inv ∧ (built.withDepth 8).accepts ∧
    (∃ t, exec .pack (built.withDepth 8) = .next t ∧ t.status.done = true) ∧
    (∃ s : State, s.Inv ∧ s.accepts ∧ s.bpp.toNat = 1 ∧ rank s.lut (pixelAt s 0 0).key = some 0 ∧
      rank s.lut (pixelAt s 0 1).key = some 1 ∧
      ∃ t, exec .pack s = .next t ∧ t.status.done = true ∧ t.dst.read 0 = some 0x40#8) := by
  have hi := twoColors_inv.builtWith (by unfold State.sourceOk; decide) (by decide)
  have hc : sourceColors twoColors = [0x000000#24, 0xFFFFFF#24] := by decide
  rw [hc] at hi
  exact ⟨built_inv.withDepth 8, ⟨rfl, rfl⟩, ⟨_, exec_eq_run _ _, by decide⟩,
    (twoColors.builtWith [0x000000#24, 0xFFFFFF#24]).withDepth 1, hi.withDepth 1, ⟨rfl, rfl⟩, rfl, by decide,
    by decide, _, exec_eq_run _ _, by decide, by decide⟩

/-- ChooseBppThresholds, ChooseBppIsLeast at the thresholds. -/
theorem witness_choose_bpp : [0, 2, 3, 16, 17, 256, 257].map chooseBpp =
    [some 1, some 1, some 4, some 4, some 8, some 8, none] := by decide

/-- SeldepthChoosesTheDepth. -/
theorem witness_seldepth : built.accepts ∧ built.status.lutValid = true ∧ built.ncolors.toNat ≤ 256 :=
  ⟨⟨rfl, rfl⟩, rfl, by decide⟩

/-- CompressConverts, CompressEqualsTheStages, CompressRefinesTheDocument, CompressErrors' second clause. -/
theorem witness_compress : picture.accepts ∧ picture.sourceOk ∧
    chooseBpp (sourceColors picture).length = some 4 ∧
    picture.srcHeight.toNat * slw picture.cfg.align picture.srcWidth.toNat 4 ≤ picture.cfg.dstCap ∧
    ({ picture with cfg := ⟨.four, 64, 7⟩ } : State).cfg.dstCap <
      picture.srcHeight.toNat * slw .four picture.srcWidth.toNat 4 :=
  ⟨picture_accepts, picture_sourceOk, by decide, by decide, by decide⟩

/-- The engine's output Image of T50 is the document's compress of the source Image (R144). -/
theorem test_document : ((sourceImage picture).compress .four).toOption = outputImage (run .compress picture) := by
  decide

/-- CompressRefinesTheDocument at the document's own errors and at an output that fits exactly. -/
theorem witness_document : ((sourceImage picture).compress .four).toOption.map (·.pixelBuffer.length) = some 8 ∧
    (sourceImage { picture with srcBpp := 8#32 }).compress .four = .error .alreadyIndexed ∧
    picture.srcHeight.toNat * slw picture.cfg.align picture.srcWidth.toNat 24 ≤ picture.cfg.srcCap := by decide

/-- The picture of T10 with its padding written, other registers set, and a table built. -/
def repadded : State :=
  { (built.withDepth 8) with row := 5#32, src := Memory.write picture.src 6 [0xAA#8, 0xBB#8] }

/-- CompressDependsOnThePictureAlone: the same picture with other padding and registers, and a table built. -/
theorem witness_picture_alone : repadded.accepts ∧ repadded.sourceOk ∧ picture.cfg = repadded.cfg ∧
    (∀ row < 2, ∀ col < 2, pixelAt picture row col = pixelAt repadded row col) :=
  ⟨⟨rfl, rfl⟩, picture_sourceOk, rfl, by decide⟩

/-- CommandFrames, StepKeepsTheInvariants, StepKeepsTheParameters, OutputImageIsImmutable. -/
theorem witness_step : (about (scriptCmd .compress) picture).Inv ∧
    (∃ t, step (about (scriptCmd .compress) picture) = .next t) ∧ (∃ t, exec .compress picture = .next t) :=
  ⟨picture_inv.of_hostFields _ _ _ _,
    ⟨_, (step_of_stmt (st := scriptCmd .compress) rfl).trans
      (exec_eq_run .compress (advance (about (scriptCmd .compress) picture)))⟩,
    _, exec_eq_run _ _⟩

/-- OutputImageIsAnImage, OutputImageEncodes. -/
theorem witness_output : packed.Inv ∧ packed.status.dstValid = true ∧ ∃ img, outputImage packed = some img :=
  ⟨packed_inv, rfl, Option.isSome_iff_exists.mp (by decide)⟩

/-- EndOfARun: success, failure, neither. -/
theorem witness_end : packed.runEnded = true ∧ packed.status.err = false ∧ packed.status.dstValid = true ∧
    failed.runEnded = true ∧ failed.status.err = true ∧
    built.runEnded = true ∧ built.status.dstValid = false := by decide

/-- ResetLeaves, from a state with everything set. -/
theorem witness_reset : currentStmt (about .hardwareReset packed) = some .hardwareReset ∧
    ∃ t, step (about .hardwareReset packed) = .next t := ⟨rfl, _, rfl⟩

/-- ErrorClear's last clause. -/
theorem witness_error_clear : packed.Inv ∧ packed.status.busy = false ∧ packed.status.err = false ∧
    failed.status.busy = false := ⟨packed_inv, rfl, rfl, rfl⟩

/-- SoftReset, ErrorClear, SourceWritesInvalidate, PlainRegisterWrites, RegisterReadsAndTheBusyWindow. -/
theorem witness_register_writes : packed.status.busy = false ∧ (beginCommand packed).status.busy = true ∧
    (1#32).getLsbD 0 = true ∧ (2#32).getLsbD 0 = false ∧ (4#32).getLsbD 2 = true ∧ (3#32).getLsbD 2 = false ∧
    63 < packed.cfg.srcCap := by decide

/-- SrcWriteReadsBack at the last byte of SRC, and at its last four. -/
theorem witness_src_write : packed.status.busy = false ∧ (∃ t, hostByteWrite .src 63 0x5A#8 packed = .next t) ∧
    60 + 4 ≤ packed.cfg.srcCap := ⟨rfl, ⟨_, rfl⟩, by decide⟩

/-- BufferReadsGiveTheBytes: a specified and an unspecified byte of each space, and bytes of a wider read. -/
theorem witness_buffer_reads : packed.src.read 2 = some 0xFF#8 ∧ packed.dst.read 7 = some 0x00#8 ∧
    packed.pal.read 9 = some 0x00#8 ∧ packed.src.read 6 = none ∧ packed.src.read 15 = none ∧ packed.dst.read 8 = none ∧ picture.pal.read 0 = none ∧
    8 < packed.cfg.dstCap := by decide

/-- BufferReadsGiveTheBytes' last clause, in each space. -/
theorem witness_wide_reads : (∀ i b, [0xFF#8, 0x00#8][i]? = some b → packed.pal.read (0 + i) = some b) ∧
    (∀ i b, [0x00#8, 0x10#8][i]? = some b → packed.dst.read (3 + i) = some b) ∧
    (∀ i b, [srcByte packed 5, srcByte packed 6][i]? = some b → srcByte packed (5 + i) = b) := by
  refine ⟨fun i b h => ?_, fun i b h => ?_, fun i b h => ?_⟩ <;>
    rcases i with _ | _ | i <;> simp only [List.getElem?_cons_zero, List.getElem?_cons_succ, List.getElem?_nil,
      Option.some.injEq, reduceCtorEq] at h <;> subst h <;> rfl

/-- IgnoredAccesses at both ends of the reserved offsets and of the spaces. -/
theorem witness_ignored : (∀ off ∈ [0x4C, 0xFC], 0x4C ≤ off ∧ off < 0x100 ∧ off % 4 = 0) ∧ 63 < small.dstCap ∧
    regAt 0x4C = none ∧ regAt 0x48 = some .palSize := by decide

/-- ReadsChangeNothing: a register, a byte, a wider read and a sized read. -/
theorem witness_reads : (∃ t, step (about (.access (.regRead 0x08)) packed) = .next t) ∧
    (∃ t, step (about (.access (.byteRead .dst 63)) packed) = .next t) ∧
    (∃ t, step (about (.access (.wideRead .dst 62 2)) packed) = .next t) ∧
    (∃ t, step sizedReading = .next t) := ⟨⟨_, rfl⟩, ⟨_, rfl⟩, ⟨_, rfl⟩, _, rfl⟩

/-- The idle state in which a script is about to branch on the STATUS word it has read. -/
def aboutToBranch : State :=
  { about (.branch .status 2 2 1 0) packed with observed := [.reg 0x08 0x1A#32] }

/-- WellFormedStatementsAreServed: one state that meets all its hypotheses with a branch, and one with a wide read. -/
theorem witness_served :
    (currentStmt aboutToBranch = some (.branch .status 2 2 1 0) ∧
      Stmt.wellFormed aboutToBranch.cfg aboutToBranch.script.length (.branch .status 2 2 1 0) = true ∧
      aboutToBranch.status.busy = false ∧
      lastRead (RegName.offset .status) aboutToBranch.observed = some 0x1A#32) ∧
    currentStmt (about (.access (.wideRead .dst 60 4)) packed) = some (.access (.wideRead .dst 60 4)) ∧
      Stmt.wellFormed small 1 (.access (.wideRead .dst 60 4)) = true ∧ packed.cfg = small ∧
      packed.status.busy = false := by decide

/-- WellFormedStatementsAreServed: one state that meets all its hypotheses with a sized read. -/
theorem witness_served_sized : currentStmt sizedReading = some (.sizedRead .dst 0 .dstSize) ∧
    Stmt.wellFormed sizedReading.cfg sizedReading.script.length (.sizedRead .dst 0 .dstSize) = true ∧
    sizedReading.status.busy = false ∧ lastRead (RegName.offset .dstSize) sizedReading.observed = some 8#32 ∧
    0 + (8#32).toNat ≤ BufferSpace.size sizedReading.cfg .dst :=
  ⟨rfl, by decide, rfl, rfl, by decide⟩

/-- OnlyForeignAccessesStop: each way a step stops. -/
theorem witness_stops : step (about (.access (.byteRead .pal 768)) packed) = .fault .offsetOutsideSpace ∧
    step (about (.access (.wideRead .pal 767 2)) picture) = .fault .offsetOutsideSpace ∧
    step (about (.access (.wideWrite .src 0 2 0)) (beginCommand packed)) = .refused .sourceWriteWhileBusy ∧
    step (about (.access (.regRead 0x09)) packed) = .refused .unalignedRegister ∧
    step (about (.access (.byteWrite .src 0 0)) (beginCommand packed)) = .refused .sourceWriteWhileBusy ∧
    step (about (.branch .status 0 0 1 0) packed) = .refused .branchOnUnreadRegister ∧
    step (about (.sizedRead .pal 0 .palSize) packed) = .refused .sizeOfUnreadRegister ∧
    step { about (.sizedRead .dst 63 .dstSize) packed with observed := [.reg 0x44 2#32] } =
      .fault .offsetOutsideSpace := ⟨rfl, rfl, rfl, rfl, rfl, rfl, rfl, rfl⟩

/-- ScanlineWidthIsLeast, SizesAndOffsetsFit at the greatest dimensions (T1, T2). -/
theorem witness_sizes : slw .four 65535 24 = 196608 ∧ slw .four 65535 8 = 65536 ∧
    65535 * slw .four 65535 24 = 12884705280 ∧ packBitOffset 1 7 = 0 ∧ packBitOffset 1 8 = 7 ∧
    196608 % 4 = 0 ∧ 65535 * 24 ≤ 8 * 196608 := by decide

/-- FileRoundTrip: an image without pixels, and one of each kind of table. -/
theorem witness_file :
    (∀ img ∈ ([⟨0, 5, 1, [], List.replicate 6 0#8⟩, ⟨1, 1, 24, List.replicate 4 0#8, []⟩] : List Image),
    img.wellFormed .four = true ∧ (encodeFile .four img).toOption.isSome = true) := by decide

/-- FileDecodeErrors. -/
theorem witness_file_errors : (List.replicate 12 0#8 : List Byte).length = 12 ∧
    decodeFile .four [0x42#8, 0x4E#8] = .error .invalidSignature ∧
    decodeFile .four ([0x42#8, 0x4D#8] ++ List.replicate 12 0#8 ++ [0x0D#8, 0#8, 0#8, 0#8]) =
      .error .unsupportedHeaderSize := ⟨rfl, rfl, rfl⟩

end Sys2Proof.Tests
end

