-- ==== Sys2Proof/Proofs/Encoding.lean ====
section
/-! PROOFS. The opcode map decided by the whole word (R81), and the illegal words and their effect (R84). -/

namespace Sys2Proof

/-- R81: a word selects a command exactly when it is the command's word. -/
theorem decodeWord_eq_ok_iff (w : Word) (i : Instr) : decodeWord w = .ok i ↔ w = encode i := by
  constructor
  · intro h
    rcases decodeWord_cases w with ⟨j, hw, hj⟩ | ⟨he, -⟩
    · rw [hw, Except.ok.inj (hj.symm.trans h)]
    · rw [he] at h
      cases h
  · rintro rfl
    exact decodeWord_encode i

/-- A word is illegal exactly when it is no command's word (R84). -/
theorem decodeWord_eq_illegal_iff (w : Word) :
    decodeWord w = .error (.illegal w) ↔ ¬ ∃ i, w = encode i := by
  rcases decodeWord_cases w with ⟨i, hw, hi⟩ | ⟨he, hne⟩
  · rw [hi]
    exact ⟨nofun, fun h => absurd ⟨i, hw⟩ h⟩
  · exact ⟨fun _ ⟨i, hi⟩ => hne i hi, fun _ => he⟩

/-- The opcodes are the numbers 1 to 6 (R81), and the reserved field of a command's word is 0. -/
theorem encode_toNat_bounds (i : Instr) : 1 ≤ (encode i).toNat ∧ (encode i).toNat ≤ 6 := by
  cases i <;> decide

/-- The command words are the numbers 1 to 6, and no other (R81). -/
theorem exists_eq_encode_iff (w : Word) : (∃ i, w = encode i) ↔ 1 ≤ w.toNat ∧ w.toNat ≤ 6 := by
  constructor
  · rintro ⟨i, rfl⟩
    exact encode_toNat_bounds i
  · intro hw
    have hk : w.toNat = 1 ∨ w.toNat = 2 ∨ w.toNat = 3 ∨ w.toNat = 4 ∨ w.toNat = 5 ∨ w.toNat = 6 := by omega
    rcases hk with h | h | h | h | h | h
    · exact ⟨.build, BitVec.eq_of_toNat_eq h⟩
    · exact ⟨.lookup, BitVec.eq_of_toNat_eq h⟩
    · exact ⟨.pixat, BitVec.eq_of_toNat_eq h⟩
    · exact ⟨.pack, BitVec.eq_of_toNat_eq h⟩
    · exact ⟨.seldepth, BitVec.eq_of_toNat_eq h⟩
    · exact ⟨.compress, BitVec.eq_of_toNat_eq h⟩

/-- The opcode byte as the low byte of the word's number (R80). -/
theorem extractLsb'_low_byte (w : Word) : w.extractLsb' 0 8 = BitVec.ofNat 8 (w.toNat % 256) := by
  apply BitVec.eq_of_toNat_eq
  simp [BitVec.extractLsb'_toNat]

namespace Machine

theorem issueWord_of_error {w : Word} {e : DecodeError} (h : decodeWord w = .error e) (s : State) :
    issueWord w s = execIllegal w s := by
  rw [issueWord, h]

/-- An illegal word accepted at CMD records IllegalCommand with its low byte and changes nothing else (R84, R190). -/
theorem execIllegal_of_accepts (w : Word) {s : State} (h : s.accepts) :
    execIllegal w s = .next (s.recordError (w.extractLsb' 0 8) ErrorKind.illegalCommand.code) := by
  rw [execIllegal, issue_of_accepts _ _ h, finish, endCommand_raise_beginCommand]

end Machine

open Machine

/-- Settles O2: the words by evaluation, the selection by the decoder's inversion. -/
theorem wordSelectsCommandIffEqual : Obligations.WordSelectsCommandIffEqual :=
  ⟨by decide, decodeWord_eq_ok_iff⟩

/-- Settles O4: the illegal words are those whose number is not 1 to 6, and an accepted one only records its error. -/
theorem illegalWordRaisesIllegalCommand : Obligations.IllegalWordRaisesIllegalCommand := by
  intro w
  refine ⟨?_, ?_, fun s ha hw => ?_⟩
  · rw [decodeWord_eq_illegal_iff, exists_eq_encode_iff]
    omega
  · rcases decodeWord_cases w with ⟨i, -, hi⟩ | ⟨he, -⟩
    · exact .inr ⟨i, hi⟩
    · exact .inl he
  · rw [issueWord_of_error hw, execIllegal_of_accepts w ha, extractLsb'_low_byte]
    rfl

end Sys2Proof
end

