-- ==== Sys2Proof/Proofs/ColorTable.lean ====
section
/-! PROOFS. The table of the source image: its members, its order and the ranks in it (R101, R102). -/

namespace Sys2Proof

namespace Machine

/-- The keys in row-major order are those of the pixels inside the image (R101). -/
theorem mem_pixelKeys (s : State) (k : Key) :
    k ∈ pixelKeys s ↔
      ∃ row col, row < s.srcHeight.toNat ∧ col < s.srcWidth.toNat ∧ (pixelAt s row col).key = k := by
  simp only [pixelKeys, List.mem_map, mem_pixelCoords, Prod.exists, and_assoc]

/-- The table holds exactly the keys of the pixels: sorting adds and loses none (R102). -/
theorem mem_sourceColors (s : State) (k : Key) :
    k ∈ sourceColors s ↔
      ∃ row col, row < s.srcHeight.toNat ∧ col < s.srcWidth.toNat ∧ (pixelAt s row col).key = k := by
  rw [sourceColors, mem_sortedKeys, mem_pixelKeys]

/-- The table is strictly ascending, so it has no duplicates (R102). -/
theorem pairwise_sourceColors (s : State) : (sourceColors s).Pairwise (· < ·) :=
  pairwise_sortedKeys (pixelKeys s)

end Machine

open Machine

/-- Settles O12: the table is the sorted list of the pixels' keys, and in a strictly ascending list the rank of a
key is its place. -/
theorem tableRanksTheDistinctColors : Obligations.TableRanksTheDistinctColors := by
  intro s
  have hasc := pairwise_sourceColors s
  exact ⟨hasc.imp BitVec.lt_def.mp, mem_sourceColors s, rank_eq_some_iff hasc⟩

end Sys2Proof
end

