-- ==== Sys2Proof/Proofs/Extraction.lean ====
section
/-! PROOFS. The document's packing property: what `extract` finds in the packed buffer (R124, R125, R131). -/

namespace Sys2Proof

namespace Machine

/-- Consecutive cells hold exactly their bytes, in order. -/
@[simp] theorem Memory.map_snd_cellsFrom (off : Nat) (bs : List Byte) :
    (Memory.cellsFrom off bs).map Prod.snd = bs := by
  induction bs generalizing off with
  | nil => rfl
  | cons b bs ih => rw [Memory.cellsFrom, List.map_cons, ih]

/-- PACK ends with DONE only by packing, at a legal depth that holds the colors of a valid table (R126). -/
theorem exec_pack_of_done {s t : State} (ha : s.accepts) (h : exec .pack s = .next t) (hd : t.status.done = true) :
    s.status.lutValid = true ∧ (s.bpp.toNat = 1 ∨ s.bpp.toNat = 4 ∨ s.bpp.toNat = 8) ∧
      s.ncolors.toNat ≤ 2 ^ s.bpp.toNat ∧ t = (s.packedAt s.bpp.toNat).recordSuccess := by
  cases exec_effect h with
  | ignored hn => exact absurd ha hn
  | failed _ kind => exact absurd hd Bool.false_ne_true
  | tooMany hi => rcases hi with hi | hi <;> cases hi
  | packed _ _ hl hb hn _ => exact ⟨hl, hb, hn, rfl⟩

/-- Under the invariants a valid table holds every pixel's color, at a place below NCOLORS (R33 iii, R125 c). -/
theorem exists_rank_of_pixel {s : State} (hi : s.Inv) (hl : s.status.lutValid = true) {row col : Nat}
    (hr : row < s.srcHeight.toNat) (hc : col < s.srcWidth.toNat) :
    ∃ id, rank s.lut (pixelAt s row col).key = some id ∧ id < s.ncolors.toNat := by
  obtain ⟨-, -, -, hlut, -⟩ := hi.lutValid hl
  obtain ⟨-, hn, -⟩ := hi.lut
  have hmem : (pixelAt s row col).key ∈ s.lut := by
    rw [hlut, mem_sourceColors]
    exact ⟨row, col, hr, hc, rfl⟩
  obtain ⟨id, hid⟩ := Option.ne_none_iff_exists'.mp (mt (rank_eq_none_iff s.lut _).mp (not_not_intro hmem))
  exact ⟨id, hid, hn ▸ rank_lt hid⟩

/-- Where the table has the key, the packer packs its rank (R124). -/
theorem packedId_of_rank {lut : List Key} {k : Key} {id : Nat} (h : rank lut k = some id) : packedId lut k = id := by
  rw [packedId, h, Option.getD_some]

/-- A packed index lies within one byte (R55, R64). -/
theorem packBitOffset_add_le {b : Nat} (hb : b = 1 ∨ b = 4 ∨ b = 8) (col : Nat) : packBitOffset b col + b ≤ 8 := by
  rcases hb with rfl | rfl | rfl <;> simp only [packBitOffset] <;> omega

/-- A field of `b` bits is the number whose bits it shows. -/
theorem shiftRight_and_mask_eq {x v o b : Nat} (hv : v < 2 ^ b) (h : ∀ i, i < b → x.testBit (o + i) = v.testBit i) :
    (x >>> o) &&& (2 ^ b - 1) = v := by
  rw [Nat.and_two_pow_sub_one_eq_mod]
  apply Nat.eq_of_testBit_eq
  intro i
  rw [Nat.testBit_mod_two_pow, Nat.testBit_shiftRight]
  by_cases hi : i < b
  · simp [hi, h i hi]
  · have hvi : v < 2 ^ i := Nat.lt_of_lt_of_le hv (Nat.pow_le_pow_right (by decide) (Nat.not_lt.mp hi))
    simp [hi, Nat.testBit_lt_two_pow hvi]

/-- Extraction inverts packing (R131): where all ids fit the depth, the field of a pixel shows the id packed for it. -/
theorem extractIndex_packedBuffer (s : State) {b : Nat} (hb : b = 1 ∨ b = 4 ∨ b = 8)
    (hfit : ∀ row col, row < s.srcHeight.toNat → col < s.srcWidth.toNat →
      packedId s.lut (pixelAt s row col).key < 2 ^ b)
    {row col : Nat} (hr : row < s.srcHeight.toNat) (hc : col < s.srcWidth.toNat) :
    extractIndex s.cfg.align s.srcWidth.toNat b (packedBuffer s b) row col =
      some (packedId s.lut (pixelAt s row col).key) := by
  have hk := packByte_lt_slw s.cfg.align (b := b) (by omega) hc
  obtain ⟨x, hx, hbits⟩ := getLsbD_packedBuffer s hb (fun r c => packedId s.lut (pixelAt s r c).key)
    (fun r c h1 h2 => ⟨rfl, hfit r c h1 h2⟩) hr hk
  rw [extractIndex, packByteOffset, hx, Option.map_some,
    shiftRight_and_mask_eq (v := packedId s.lut (pixelAt s row col).key) (hfit row col hr hc)]
  intro i hi
  have hj : packBitOffset b col + i < 8 := by
    have := packBitOffset_add_le hb col
    omega
  have howner := (owner_iff hb (col := col) hj).mp ⟨rfl, by omega, by omega⟩
  rw [← BitVec.getLsbD, hbits _ hj, ← howner, Nat.add_sub_cancel_left, decide_eq_true hc, Bool.true_and]

end Machine

open Machine

/-- Settles O24: the table gives every pixel an id that fits the depth, and extraction inverts packing. -/
theorem extractionGivesThePaletteId : Obligations.ExtractionGivesThePaletteId := by
  intro s t hi ha h hd row col hr hc
  obtain ⟨hl, hb, hn, rfl⟩ := exec_pack_of_done ha h hd
  have hfit : ∀ r c, r < s.srcHeight.toNat → c < s.srcWidth.toNat →
      packedId s.lut (pixelAt s r c).key < 2 ^ s.bpp.toNat := fun r c h1 h2 => by
    obtain ⟨id, hid, hlt⟩ := exists_rank_of_pixel hi hl h1 h2
    rw [packedId_of_rank hid]
    exact hlt.trans_le hn
  obtain ⟨id, hid, -⟩ := exists_rank_of_pixel hi hl hr hc
  refine ⟨id, hid, ?_⟩
  rw [State.recordSuccess_dst, State.packedAt_dst, Memory.map_snd_cellsFrom,
    extractIndex_packedBuffer s hb hfit hr hc, packedId_of_rank hid]

end Sys2Proof
end

