-- ==== Sys2Proof/Proofs/DepthChoice.lean ====
section
/-! PROOFS. The depth choice: the value of `choose_bpp` on each of the four ranges of the count (R140). -/

namespace Sys2Proof

namespace Machine

theorem chooseBpp_of_le_two {n : Nat} (h : n ≤ 2) : chooseBpp n = some 1 := if_pos h

theorem chooseBpp_of_le_sixteen {n : Nat} (h2 : 2 < n) (h : n ≤ 16) : chooseBpp n = some 4 := by
  rw [chooseBpp, if_neg h2.not_ge, if_pos h]

theorem chooseBpp_of_le_256 {n : Nat} (h16 : 16 < n) (h : n ≤ 256) : chooseBpp n = some 8 := by
  have h2 : ¬ n ≤ 2 := by omega
  rw [chooseBpp, if_neg h2, if_neg h16.not_ge, if_pos h]

/-- Above 256 colors no depth serves: a depth that `choose_bpp` answers holds the count in at most 8 bits. -/
theorem chooseBpp_eq_none {n : Nat} (h : 256 < n) : chooseBpp n = none := by
  refine Option.eq_none_iff_forall_ne_some.mpr fun b hb => ?_
  obtain ⟨hdepth, hn⟩ := chooseBpp_eq_some hb
  rcases hdepth with rfl | rfl | rfl <;> omega

end Machine

open Machine

/-- Settles O27: `choose_bpp` range by range. -/
theorem chooseBppThresholds : Obligations.ChooseBppThresholds := fun _ =>
  ⟨chooseBpp_of_le_two, chooseBpp_of_le_sixteen, chooseBpp_of_le_256, chooseBpp_eq_none⟩

end Sys2Proof
end

