-- ==== Sys2Proof/Proofs/Exceptions.lean ====
section
/-! PROOFS. The order of the source pre-check (R185), and the error clear (R192). -/

namespace Sys2Proof

namespace Machine

/-- A dimension beyond 65535 is found before anything else (R185). -/
theorem sourceError_of_dimension {s : State} (h : 65535 < s.srcWidth.toNat ∨ 65535 < s.srcHeight.toNat) :
    sourceError s = some .dimensionOutOfRange := if_pos h

/-- With the dimensions in range, an illegal depth is found next (R185). -/
theorem sourceError_of_depth {s : State} (hw : s.srcWidth.toNat ≤ 65535) (hh : s.srcHeight.toNat ≤ 65535)
    (h : s.srcBpp.toNat ∉ [1, 4, 8, 24]) : sourceError s = some .unsupportedBitDepth := by
  rw [sourceError, if_neg (by omega), if_pos h]

/-- With the dimensions in range, a legal depth other than 24 is found next (R185). -/
theorem sourceError_of_indexed {s : State} (hw : s.srcWidth.toNat ≤ 65535) (hh : s.srcHeight.toNat ≤ 65535)
    (h : s.srcBpp.toNat ∈ [1, 4, 8]) : sourceError s = some .alreadyIndexed := by
  have hlegal : s.srcBpp.toNat ∈ [1, 4, 8, 24] := List.mem_append_left [24] h
  have hne : s.srcBpp.toNat ≠ 24 := fun h24 => by simp [h24] at h
  rw [sourceError, if_neg (by omega), if_neg (not_not_intro hlegal), if_pos hne]

/-- A 24-bit image with its dimensions in range fails only by its size (R185). -/
theorem sourceError_of_capacity {s : State} (hw : s.srcWidth.toNat ≤ 65535) (hh : s.srcHeight.toNat ≤ 65535)
    (hb : s.srcBpp.toNat = 24) (h : s.cfg.srcCap < sourceSize s) : sourceError s = some .capacityExceeded := by
  rw [sourceError, if_neg (by omega), if_neg (by simp [hb]), if_neg (not_not_intro hb), if_pos h]

/-- While not BUSY, a write to a register other than CMD has the register's effect (R11). -/
theorem hostRegWrite_of_not_busy {r : RegName} (hr : r ≠ .cmd) (w : Word) {s : State} (hb : s.status.busy = false) :
    hostRegWrite r.offset w s = .next (writeReg s r w) := by
  have hoff : r.offset < 0x100 ∧ r.offset % 4 = 0 := by cases r <;> decide
  have hcmd : r.offset ≠ RegName.cmd.offset := fun h =>
    hr (Option.some.inj (by rw [← regAt_offset r, h, regAt_offset]))
  rw [hostRegWrite, if_neg (Nat.not_le.mpr hoff.1), if_neg (not_not_intro hoff.2), if_neg hcmd,
    if_neg (by simp [hb]), regAt_offset]

theorem clearError_of_bit {w : Word} (h : w.getLsbD 2 = true) (s : State) :
    clearError w s = { s with status := { s.status with err := false }, error := ⟨0, 0⟩ } := if_pos h

theorem clearError_of_not_bit {w : Word} (h : w.getLsbD 2 = false) (s : State) : clearError w s = s :=
  if_neg (Bool.eq_false_iff.mp h)

/-- Without an error the invariants keep ERROR at 0, so that clearing does nothing (R15, R192). -/
theorem clearError_of_no_error (w : Word) {s : State} (hi : s.Inv) (he : s.status.err = false) :
    clearError w s = s := by
  obtain ⟨-, -, hzero, -⟩ := hi.flags
  cases hw : w.getLsbD 2 with
  | true => rw [clearError_of_bit hw, ← he, ← hzero he]
  | false => exact clearError_of_not_bit hw s

end Machine

open Machine

/-- Settles O8: the check's four outcomes in its order, each error being the command's only change. -/
theorem sourceChecksInOrder : Obligations.SourceChecksInOrder := by
  intro s i hi ha
  refine ⟨fun h => exec_of_sourceError hi ha (sourceError_of_dimension h), fun hw hh => ⟨?_, ?_, ?_, ?_⟩⟩
  · exact fun h => exec_of_sourceError hi ha (sourceError_of_depth hw hh (by simpa using h))
  · exact fun h => exec_of_sourceError hi ha (sourceError_of_indexed hw hh (by simpa using h))
  · exact fun hb h => exec_of_sourceError hi ha (sourceError_of_capacity hw hh hb h)
  · exact fun hb h => checkSrc24_of_ok ⟨hw, hh, hb, h⟩

/-- Settles O45: the write is the error clear, which needs bit 2 and changes nothing where no error stands. -/
theorem errorClear : Obligations.ErrorClear := by
  intro s w hb
  have hwrite : hostRegWrite 0x08 w s = .next (clearError w s) :=
    hostRegWrite_of_not_busy (r := .status) nofun w hb
  rw [hwrite]
  refine ⟨fun h => ⟨_, rfl, ?_, clearError_of_bit h s⟩, fun h => ?_, fun hi he => ?_⟩
  · rw [clearError_of_bit h]
    exact ⟨hb, rfl⟩
  · rw [clearError_of_not_bit h]
  · rw [clearError_of_no_error w hi he]

end Sys2Proof
end


-- ==== Sys2Proof/Proofs/Invariants.lean ====
section
/-! PROOFS. The invariants of R33: they hold at reset and every step keeps them, whatever statement it performs. -/

namespace Sys2Proof

namespace Machine

/-- A command keeps the invariants, in whichever way it ends (R189, R193). -/
theorem CommandEffect.inv {i : Instr} {s t : State} (h : CommandEffect i s t) (hi : s.Inv) : t.Inv := by
  cases h with
  | ignored => exact hi
  | failed _ kind => exact hi.recordError _ kind.code_ne_zero
  | tooMany => exact hi.destroyedByBuild.recordError _ (ErrorKind.code_ne_zero _)
  | built ha ho hn => exact (hi.builtWith ho hn).recordSuccess ha.2
  | looked ha hl => exact (hi.recordSuccess ha.2).index hl _
  | unpacked ha => exact (hi.recordSuccess ha.2).color _
  | packed ha _ hl hb _ hc => exact (hi.packedAt hl hb hc).recordSuccess ha.2
  | selected ha => exact (hi.withDepth _).recordSuccess ha.2
  | compressed ha ho hn hb hc =>
    have hbuilt := (hi.builtWith ho hn).withDepth
    exact ((hbuilt _).packedAt rfl (chooseBpp_eq_some hb).1 hc).recordSuccess ha.2
  | tooLarge _ ho hn => exact ((hi.builtWith ho hn).withDepth _).recordError _ (ErrorKind.code_ne_zero _)

theorem State.Inv.resetEngine {s : State} : (resetEngine s).Inv := State.Inv.resetOf ..

/-- Setting registers that no invariant speaks of keeps the invariants (R20, R21, R22, R25). -/
theorem State.Inv.plainRegisters {s : State} (hi : s.Inv) (row col bpp : Word) (color : Key) :
    { s with row := row, col := col, bpp := bpp, color := color }.Inv :=
  ⟨hi.lut, hi.lutInvalid, hi.lutValid, hi.dstValid, hi.dstInvalid, hi.flags, hi.memory⟩

/-- A register write keeps the invariants: it resets, clears the error, invalidates the LUT or stores (R11). -/
theorem State.Inv.writeReg {s : State} (hi : s.Inv) (r : RegName) (w : Word) : (writeReg s r w).Inv := by
  cases r with
  | ctrl =>
    dsimp only [Sys2Proof.Machine.writeReg]
    split
    · exact .resetEngine
    · exact hi
  | status => exact hi.clearError w
  | srcWidth => exact hi.invalidateLut w s.srcHeight s.srcBpp hi.memory.1
  | srcHeight => exact hi.invalidateLut s.srcWidth w s.srcBpp hi.memory.1
  | srcBpp => exact hi.invalidateLut s.srcWidth s.srcHeight w hi.memory.1
  | row => exact hi.plainRegisters w s.col s.bpp s.color
  | col => exact hi.plainRegisters s.row w s.bpp s.color
  | color => exact hi.plainRegisters s.row s.col s.bpp _
  | bpp => exact hi.plainRegisters s.row s.col w s.color
  | cap | error | cmd | index | ncolors | dstWidth | dstHeight | dstBpp | dstSize | palSize => exact hi

/-- Storing bytes inside SRC keeps the invariants, because the LUT is invalidated with it (R34). -/
theorem State.Inv.storeSrc {s : State} (hi : s.Inv) {off : Nat} {bs : List Byte} (ho : off + bs.length ≤ s.cfg.srcCap) :
    (Sys2Proof.Machine.invalidateLut { s with src := Memory.write s.src off bs }).Inv := by
  obtain ⟨⟨hwf, hbound⟩, -⟩ := hi.memory
  exact hi.invalidateLut s.srcWidth s.srcHeight s.srcBpp ⟨Memory.wf_write hwf off bs, Memory.bound_write hbound ho⟩

/-- A performed statement keeps the invariants. -/
theorem StmtEffect.inv {st : Stmt} {s t : State} (h : StmtEffect st s t) (hi : s.Inv) : t.Inv := by
  cases h with
  | nothing => exact hi
  | observedReg | observedByte | observedWide | observedSized | jumped => exact hi.of_hostFields ..
  | command _ he => exact he.inv hi
  | illegal => exact hi.recordError _ (ErrorKind.code_ne_zero _)
  | wrote => exact hi.writeReg ..
  | stored _ ho => exact hi.storeSrc (bs := [_]) ho
  | storedWide _ _ ho => exact hi.storeSrc (by rwa [length_leBytes])
  | reset => exact .resetEngine

theorem State.Inv.advance {s : State} (hi : s.Inv) : (advance s).Inv := hi.of_hostFields ..

end Machine

open Machine

/-- Settles O37: the reset state of every configuration, the hardware's among them. -/
theorem resetMeetsTheInvariants : Obligations.ResetMeetsTheInvariants := by
  have hreset : ∀ cfg : Config, (State.resetOf cfg).Inv := fun cfg => .resetOf cfg 0 0 [] 0 []
  exact ⟨hreset, hreset Config.hardware⟩

/-- Settles O38: a step is a statement performed in a state whose position has moved, or nothing. -/
theorem stepKeepsTheInvariants : Obligations.StepKeepsTheInvariants := by
  intro s t hi h
  rcases step_effect h with ⟨-, rfl⟩ | ⟨st, -, he⟩
  · exact hi
  · exact he.inv hi.advance

end Sys2Proof
end


-- ==== Sys2Proof/Proofs/Container.lean ====
section
/-! PROOFS. The host's codec: reading back the parts of a file, and the round trip of an Image (R162, R166, R176). -/

namespace Sys2Proof

namespace Machine

/-- The number of the little-endian bytes of a number that fits them is the number (R52). -/
theorem ofLeBytes_leBytes {n v : Nat} (h : v < 256 ^ n) : ofLeBytes (leBytes n v) = v := by
  induction n generalizing v with
  | zero => simp at h; simp [leBytes, ofLeBytes, h]
  | succ n ih =>
    have hv : v / 256 < 256 ^ n := Nat.div_lt_of_lt_mul (by rwa [pow_succ'] at h)
    rw [leBytes, ofLeBytes, ih hv, BitVec.toNat_ofNat]
    omega

/-- A part of a file is read at the offset where it stands. -/
theorem readAt_part {file pre part post : List Byte} (hf : file = pre ++ (part ++ post)) {off n : Nat}
    (ho : pre.length = off) (hn : part.length = n) : readAt file off n = some part := by
  subst hf ho hn
  rw [readAt_of_le (by simp only [List.length_append]; omega), List.drop_left, List.take_left]

/-- The core info header of an image, as `encode` writes it (R158, R166). -/
def coreHeader (width height depth : Nat) : List Byte :=
  leBytes 4 12 ++ leBytes 2 width ++ leBytes 2 height ++ leBytes 2 1 ++ leBytes 2 depth



/-- A core header whose fields fit their two bytes is parsed to them (R158). -/
theorem parseInfo_coreHeader {w h b : Nat} (hw : w < 65536) (hh : h < 65536) (hb : b < 65536) :
    parseInfo .core (coreHeader w h b) = ⟨w, h, b, none⟩ := by
  change InfoHeader.mk (ofLeBytes (leBytes 2 w) : Nat) (ofLeBytes (leBytes 2 h) : Nat) (ofLeBytes (leBytes 2 b))
    none = _
  rw [ofLeBytes_leBytes hw, ofLeBytes_leBytes hh, ofLeBytes_leBytes hb]

/-- A core header with a legal depth has no error (R162 steps 4 to 6). -/
theorem infoError_core {w h b : Nat} (hw : w ≤ 65535) (hh : h ≤ 65535) (hb : b ∈ [1, 4, 8, 24]) :
    infoError ⟨w, h, b, none⟩ = none := by
  rw [infoError, if_neg (by simp), if_neg (by dsimp only; omega), if_neg (not_not_intro hb)]

/-- A file with the signature and a whole file header is decoded from its info header on (R162 steps 1 and 2). -/
theorem decodeFile_of_signature (a : Align) {hdr : List Byte} (hl : hdr.length = 12) (rest : List Byte) :
    decodeFile a ([0x42#8, 0x4D#8] ++ hdr ++ rest) =
      decodeInfo a ([0x42#8, 0x4D#8] ++ hdr ++ rest) (ofLeBytes (fieldBytes ([0x42#8, 0x4D#8] ++ hdr) 10 4)) := by
  have hsig : readAt ([0x42#8, 0x4D#8] ++ hdr ++ rest) 0 2 = some [0x42#8, 0x4D#8] :=
    readAt_part (pre := []) (post := hdr ++ rest) (by simp) rfl rfl
  have hhdr : readAt ([0x42#8, 0x4D#8] ++ hdr ++ rest) 0 14 = some ([0x42#8, 0x4D#8] ++ hdr) :=
    readAt_part (pre := []) (post := rest) (by simp) rfl (by simp [hl])
  simp only [decodeFile, hsig, hhdr, ne_eq, not_true_eq_false, if_false]

/-- The header size is the first field of the info header, at file offset 14 (R157). -/
theorem readAt_headerSize {fileHdr : List Byte} (hl : fileHdr.length = 14) (n : Nat) (rest : List Byte) :
    readAt (fileHdr ++ (leBytes 4 n ++ rest)) 14 4 = some (leBytes 4 n) :=
  readAt_part rfl hl (length_leBytes 4 n)

/-- A core header in a file is decoded to its fields, and the Image is read from the offsets after it (R162). -/
theorem decodeInfo_core (a : Align) {fileHdr : List Byte} (hl : fileHdr.length = 14) {w h b : Nat} (hw : w ≤ 65535)
    (hh : h ≤ 65535) (hb : b ∈ [1, 4, 8, 24]) (rest : List Byte) (dataOff : Nat) :
    decodeInfo a (fileHdr ++ (coreHeader w h b ++ rest)) dataOff =
      readImage a (fileHdr ++ (coreHeader w h b ++ rest)) 26 dataOff ⟨w, h, b, none⟩ := by
  have hsize : readAt (fileHdr ++ (coreHeader w h b ++ rest)) 14 4 = some (leBytes 4 12) := by
    simp only [coreHeader, List.append_assoc]
    exact readAt_headerSize hl 12 _
  have hhdr : readAt (fileHdr ++ (coreHeader w h b ++ rest)) 14 HeaderSchema.core.size = some (coreHeader w h b) :=
    readAt_part rfl hl rfl
  have hb' : b < 65536 := by
    simp only [List.mem_cons, List.not_mem_nil, or_false] at hb
    omega
  have hschema : schemaOfSize (ofLeBytes (leBytes 4 12)) = some .core := rfl
  simp only [decodeInfo, hsize, hschema, hhdr,
    parseInfo_coreHeader (Nat.lt_succ_of_le hw) (Nat.lt_succ_of_le hh) hb', infoError_core hw hh hb]
  rfl

/-- A header size of no schema fails before anything else of the info header is looked at (R157, R162 step 3). -/
theorem decodeInfo_of_no_schema (a : Align) {fileHdr : List Byte} (hl : fileHdr.length = 14) {n : Nat} (hn : n < 2 ^ 32)
    (hs : schemaOfSize n = none) (rest : List Byte) (dataOff : Nat) :
    decodeInfo a (fileHdr ++ (leBytes 4 n ++ rest)) dataOff = .error .unsupportedHeaderSize := by
  simp only [decodeInfo, readAt_headerSize hl, ofLeBytes_leBytes (n := 4) hn, hs]

/-- Without the signature in its first two bytes a file fails at once (R162 step 1). -/
theorem decodeFile_of_bad_signature (a : Align) {x y : Byte} (h : x ≠ 0x42#8 ∨ y ≠ 0x4D#8) (rest : List Byte) :
    decodeFile a (x :: y :: rest) = .error .invalidSignature := by
  have hsig : readAt (x :: y :: rest) 0 2 = some [x, y] :=
    readAt_part (pre := []) (part := [x, y]) (post := rest) rfl rfl rfl
  have hne : [x, y] ≠ [0x42#8, 0x4D#8] := by
    intro he
    obtain ⟨hx, hy⟩ := List.cons.inj he
    rcases h with h | h
    · exact h hx
    · exact h (List.cons.inj hy).1
  simp only [decodeFile, hsig, if_pos hne]

/-- Reading an Image whose color table and pixel data stand at the offsets gives them (R162 steps 7 to 9). -/
theorem readImage_of_parts (a : Align) {file table buf : List Byte} {tableOff dataOff : Nat} {h : InfoHeader}
    (ht : readAt file tableOff (colorTableSize h.bitCount) = some table)
    (hb : readAt file dataOff (h.height.toNat * slw a h.width.toNat h.bitCount) = some buf) :
    readImage a file tableOff dataOff h = .ok ⟨h.width.toNat, h.height.toNat, h.bitCount, buf, table⟩ := by
  simp only [readImage, ht, hb]

/-- The fourteen bytes of the file header of an encoded Image (R156). -/
def bitmapFileHeader (a : Align) (img : Image) : List Byte :=
  [0x42#8, 0x4D#8] ++ (leBytes 4 (fileSize a img) ++ leBytes 4 0 ++
    leBytes 4 (14 + 12 + colorTableSize img.bitsPerPixel))

theorem fileHeaders_eq (a : Align) (img : Image) :
    fileHeaders a img = bitmapFileHeader a img ++ coreHeader img.width img.height img.bitsPerPixel := by
  simp only [fileHeaders, bitmapFileHeader, coreHeader, List.append_assoc]

theorem Image.wellFormed_iff (a : Align) (img : Image) : img.wellFormed a = true ↔
    img.bitsPerPixel ∈ [1, 4, 8, 24] ∧ img.colorTable.length = colorTableSize img.bitsPerPixel ∧
      img.pixelBuffer.length = img.height * slw a img.width img.bitsPerPixel := by
  simp only [Image.wellFormed, Bool.and_eq_true, decide_eq_true_eq, and_assoc]

/-- The color table begins at offset 26 and is at most 768 bytes, so the pixel data's offset fits its field. -/
theorem colorTableSize_le {b : Nat} (hb : b ∈ [1, 4, 8, 24]) : colorTableSize b ≤ 768 := by
  simp only [List.mem_cons, List.not_mem_nil, or_false] at hb
  rcases hb with rfl | rfl | rfl | rfl <;> decide

/-- What `encode` answers: the headers, the color table and the pixel data, for dimensions that fit (R166). -/
theorem encodeFile_eq_ok_iff (a : Align) (img : Image) (file : List Byte) : encodeFile a img = .ok file ↔
    (img.width ≤ 65535 ∧ img.height ≤ 65535) ∧ fileSize a img ≤ 2 ^ 32 - 1 ∧
      file = fileHeaders a img ++ img.colorTable ++ img.pixelBuffer := by
  unfold encodeFile
  split
  · next h => simp only [reduceCtorEq, false_iff]; omega
  split
  · next h => simp only [reduceCtorEq, false_iff]; omega
  · next h h' =>
    rw [Except.ok.injEq]
    exact ⟨fun e => ⟨by omega, by omega, e.symm⟩, fun ⟨_, _, e⟩ => e.symm⟩

/-- The file of a well-formed Image decodes to the Image (R176). -/
theorem decodeFile_of_encoded {a : Align} {img : Image} (hwf : img.wellFormed a = true) (hw : img.width ≤ 65535)
    (hh : img.height ≤ 65535) : decodeFile a (fileHeaders a img ++ img.colorTable ++ img.pixelBuffer) = .ok img := by
  obtain ⟨hb, ht, hp⟩ := (img.wellFormed_iff a).mp hwf
  have hfield : fieldBytes (bitmapFileHeader a img) 10 4 = leBytes 4 (26 + colorTableSize img.bitsPerPixel) := rfl
  have hoff := ofLeBytes_leBytes (n := 4) (v := 26 + colorTableSize img.bitsPerPixel)
    (by have := colorTableSize_le hb; omega)
  have hfile : fileHeaders a img ++ img.colorTable ++ img.pixelBuffer =
      bitmapFileHeader a img ++ (coreHeader img.width img.height img.bitsPerPixel ++
        (img.colorTable ++ img.pixelBuffer)) := by
    simp only [fileHeaders_eq, List.append_assoc]
  rw [hfile]
  refine (decodeFile_of_signature a rfl _).trans ?_
  refine (decodeInfo_core a rfl hw hh hb _ _).trans ?_
  refine readImage_of_parts a ?_ ?_
  · exact readAt_part (pre := bitmapFileHeader a img ++ coreHeader img.width img.height img.bitsPerPixel)
      (post := img.pixelBuffer) (by simp only [List.append_assoc]; rfl) rfl ht
  · refine readAt_part
      (pre := bitmapFileHeader a img ++ coreHeader img.width img.height img.bitsPerPixel ++ img.colorTable)
      (post := []) (by simp only [List.append_assoc, List.append_nil]; rfl) ?_ hp
    change _ = ofLeBytes (fieldBytes (bitmapFileHeader a img) 10 4)
    rw [hfield, hoff, List.length_append, ht]
    rfl

end Machine

open Machine

/-- Settles O58: `encode` writes the parts one after the other, and `decode` reads each where it stands. -/
theorem fileRoundTrip : Obligations.FileRoundTrip := by
  intro a img file hwf h
  obtain ⟨⟨hw, hh⟩, -, rfl⟩ := (encodeFile_eq_ok_iff a img file).mp h
  exact decodeFile_of_encoded hwf hw hh

/-- Settles O60: the signature is looked at first, then the header size; an image of height 0 asks for no bytes. -/
theorem fileDecodeErrors : Obligations.FileDecodeErrors := by
  intro a x y rest
  refine ⟨fun h => decodeFile_of_bad_signature a h rest, fun hdr more n hl hn h12 h40 h108 h124 => ?_,
    fun hdr more w hl hw => ?_⟩
  · have hs : schemaOfSize n = none := by simp [schemaOfSize, h12, h40, h108, h124]
    rw [List.append_assoc, decodeFile_of_signature a hl]
    exact decodeInfo_of_no_schema a (by simp [hl]) hn hs more _
  · have hfile : [0x42#8, 0x4D#8] ++ hdr ++ leBytes 4 12 ++ leBytes 2 w ++ leBytes 2 0 ++ leBytes 2 1 ++
        leBytes 2 24 ++ more = [0x42#8, 0x4D#8] ++ hdr ++ (coreHeader w 0 24 ++ more) := by
      simp only [coreHeader, List.append_assoc]
    rw [hfile, decodeFile_of_signature a hl, decodeInfo_core a (by simp [hl]) (by omega) (by omega) (by simp)]
    refine readImage_of_parts a (readAt_zero _ _) ?_
    rw [Int.toNat_natCast, Nat.zero_mul]
    exact readAt_zero _ _

end Sys2Proof
end


-- ==== Sys2Proof/Proofs/Fetch.lean ====
section
/-! PROOFS. The command words as bytes and as statements of the host's script (R52, R80, R81, R16). -/

namespace Sys2Proof

namespace Machine

theorem issueWord_of_ok {w : Word} {i : Instr} (h : decodeWord w = .ok i) (s : State) : issueWord w s = exec i s := by
  rw [issueWord, h]

/-- A step that performs a CMD write issues the written word, the position past the statement (R16). -/
theorem step_of_cmdWrite {s : State} {w : Word} (h : currentStmt s = some (cmdWrite w)) :
    step s = issueWord w { s with pos := s.pos + 1 } := by
  rw [step_of_stmt h]
  rfl

/-- A statement placed in the script is the one performed next (log 5). -/
theorem currentStmt_placeStmt (st : Stmt) (s : State) : currentStmt (placeStmt st s) = some st := by
  rw [currentStmt, placeStmt, List.getElem?_append_right (Nat.le_refl _), Nat.sub_self, List.getElem?_cons_zero]

theorem ofNat_toNat_mod (w : Word) : BitVec.ofNat 32 (w.toNat % 2 ^ 32) = w := by
  rw [Nat.mod_eq_of_lt w.isLt, BitVec.ofNat_toNat, BitVec.setWidth_eq]

end Machine

open Machine

/-- Settles O1: the decoder inverts the encoder, whose words are those of the map. -/
theorem tableWordsDecode : Obligations.TableWordsDecode :=
  ⟨⟨decodeWord_encode .build, rfl⟩, ⟨decodeWord_encode .lookup, rfl⟩, ⟨decodeWord_encode .pixat, rfl⟩,
    ⟨decodeWord_encode .pack, rfl⟩, ⟨decodeWord_encode .seldepth, rfl⟩, ⟨decodeWord_encode .compress, rfl⟩⟩

/-- Settles O3, command by command. -/
theorem encodedBytesDecodeBack : Obligations.EncodedBytesDecodeBack := by
  intro i rest
  have hround : Laws.RoundTrip.Statement i := by
    cases i with
    | build => exact Laws.RoundTrip.build
    | lookup => exact Laws.RoundTrip.lookup
    | pixat => exact Laws.RoundTrip.pixat
    | pack => exact Laws.RoundTrip.pack
    | seldepth => exact Laws.RoundTrip.seldepth
    | compress => exact Laws.RoundTrip.compress
  obtain ⟨-, -, -, hbytes⟩ := hround
  exact hbytes rest

/-- Settles O5: the step issues the word, and issuing goes by what the word decodes to. -/
theorem stepRunsTheWrittenCommand : Obligations.StepRunsTheWrittenCommand := by
  intro s w h
  rw [step_of_cmdWrite h]
  exact ⟨fun i hi => issueWord_of_ok hi _, fun e he => issueWord_of_error he _⟩

/-- Settles O6: the placed statement is the current one, and it is the CMD write of the command's word. -/
theorem fetchedWordRunsNext : Obligations.FetchedWordRunsNext := by
  intro s i
  have hplaced : s.withFetchWord 32 (encode i).toNat = placeStmt (cmdWrite (encode i)) s := by
    rw [State.withFetchWord, ofNat_toNat_mod]
  have hcur := currentStmt_placeStmt (cmdWrite (encode i)) s
  refine ⟨_, _, hcur, ?_⟩
  rw [hplaced, step_of_cmdWrite hcur, issueWord_of_ok (decodeWord_encode i)]
  rfl

end Sys2Proof
end

