-- ==== Sys2Proof/Proofs/Acceptance.lean ====
section
/-! PROOFS. Command acceptance and how a command ends (R193, R8), and that an error is sticky (R190). -/

namespace Sys2Proof

namespace Machine

/-- A CMD write issues its word (R16). -/
theorem hostRegWrite_cmd (w : Word) (s : State) : hostRegWrite 0x10 w s = issueWord w s := rfl

/-- A CMD write of any word is an issue under some opcode (R84, R193). -/
theorem issueWord_eq_issue (w : Word) : ∃ op body, ∀ s, issueWord w s = issue op body s := by
  cases hw : decodeWord w with
  | ok i => exact ⟨i.opcode, commandBody i, fun s => by rw [issueWord_of_ok hw, exec_eq_issue]⟩
  | error e => exact ⟨_, _, fun s => by rw [issueWord_of_error hw, execIllegal]⟩

/-- An accepted command whose body raises an error before any change only records it (R189, R190). -/
theorem exec_of_raised {i : Instr} {s : State} (ha : s.accepts) {kind : ErrorKind}
    (h : commandBody i (beginCommand s) = .raised kind (beginCommand s)) :
    exec i s = .next (s.recordError i.opcode kind.code) := by
  rw [exec_eq_issue, issue_of_accepts _ _ ha, h, finish_raised, endCommand_raise_beginCommand]

/-- An accepted command whose body succeeds ends with DONE and without BUSY (R8, R193). -/
theorem exec_of_ok {i : Instr} {s t : State} (ha : s.accepts) (h : commandBody i (beginCommand s) = .ok t) :
    exec i s = .next (endCommand (complete t)) := by
  rw [exec_eq_issue, issue_of_accepts _ _ ha, h, finish_ok]

/-- A finished command left BUSY 0 and exactly one of DONE and ERR set (R8, R193). -/
def State.finished (s : State) : Prop :=
  s.status.busy = false ∧
    ((s.status.done = true ∧ s.status.err = false) ∨ (s.status.done = false ∧ s.status.err = true))

theorem State.finished_recordError (s : State) (op code : Byte) : (s.recordError op code).finished :=
  ⟨rfl, .inr ⟨rfl, rfl⟩⟩

theorem State.finished_of_success {s : State} (hb : s.status.busy = false) (hd : s.status.done = true)
    (he : s.status.err = false) : s.finished := ⟨hb, .inl ⟨hd, he⟩⟩

/-- An accepted command finishes, in whichever way it ends. -/
theorem CommandEffect.finished {i : Instr} {s t : State} (h : CommandEffect i s t) (ha : s.accepts) : t.finished := by
  cases h with
  | ignored hn => exact absurd ha hn
  | failed | tooMany | tooLarge => exact State.finished_recordError ..
  | built | looked | unpacked | packed | selected | compressed => exact State.finished_of_success rfl rfl ha.2

/-- An accepted CMD write of any word answers a state that is finished. -/
theorem issueWord_finishes (w : Word) {s : State} (ha : s.accepts) : ∃ t, issueWord w s = .next t ∧ t.finished := by
  cases hw : decodeWord w with
  | ok i =>
    obtain ⟨t, ht⟩ := issue_answers i.opcode (commandBody i) s
    rw [← exec_eq_issue] at ht
    exact ⟨t, (issueWord_of_ok hw s).trans ht, (exec_effect ht).finished ha⟩
  | error e =>
    exact ⟨_, (issueWord_of_error hw s).trans (execIllegal_of_accepts w ha), State.finished_recordError ..⟩

/-- Only writes to CTRL and STATUS act on ERR and ERROR (R13, R192). -/
theorem writeReg_error {r : RegName} (hc : r ≠ .ctrl) (hs : r ≠ .status) (s : State) (w : Word) :
    (writeReg s r w).status.err = s.status.err ∧ (writeReg s r w).error = s.error := by
  cases r with
  | ctrl => exact absurd rfl hc
  | status => exact absurd rfl hs
  | cap | error | cmd | srcWidth | srcHeight | srcBpp | row | col | color | index | ncolors | bpp | dstWidth
  | dstHeight | dstBpp | dstSize | palSize => exact ⟨rfl, rfl⟩

theorem writeReg_ctrl_of_not_bit {w : Word} (h : w.getLsbD 0 = false) (s : State) : writeReg s .ctrl w = s :=
  if_neg (Bool.eq_false_iff.mp h)

/-- The statements that may end an error: the error clear, the soft reset and the reset input (R190). -/
def Stmt.mayClearError (st : Stmt) : Prop :=
  (∃ w, st = .access (.regWrite 0x08 w) ∧ w.getLsbD 2 = true) ∨
    (∃ w, st = .access (.regWrite 0x04 w) ∧ w.getLsbD 0 = true) ∨ st = .hardwareReset

/-- A performed statement leaves a standing error and its record, unless it is one that may end it. -/
theorem StmtEffect.error_sticky {st : Stmt} {s t : State} (h : StmtEffect st s t) (he : s.status.err = true) :
    (t.status.err = true ∧ t.error = s.error) ∨ st.mayClearError := by
  have hna : ¬ s.accepts := fun ha => by simp [ha.2] at he
  cases h with
  | nothing | observedReg | observedByte | observedWide | observedSized | jumped | stored | storedWide =>
    exact .inl ⟨he, rfl⟩
  | command _ hcmd => obtain rfl := hcmd.same hna; exact .inl ⟨he, rfl⟩
  | illegal _ ha => exact absurd ha hna
  | reset => exact .inr (.inr (.inr rfl))
  | @wrote off w _ r hr =>
    obtain rfl := offset_of_regAt hr
    by_cases hc : r = .ctrl
    · subst hc
      cases hbit : w.getLsbD 0 with
      | true => exact .inr (.inr (.inl ⟨w, rfl, hbit⟩))
      | false => rw [writeReg_ctrl_of_not_bit hbit]; exact .inl ⟨he, rfl⟩
    by_cases hs : r = .status
    · subst hs
      cases hbit : w.getLsbD 2 with
      | true => exact .inr (.inl ⟨w, rfl, hbit⟩)
      | false => exact .inl (by rw [writeReg, clearError_of_not_bit hbit]; exact ⟨he, rfl⟩)
    · obtain ⟨h1, h2⟩ := writeReg_error hc hs s w
      exact .inl ⟨h1.trans he, h2⟩

end Machine

open Machine

/-- Settles O36: every command is an issue of its body, and an issue always answers. -/
theorem everyCommandAnswers : Obligations.EveryCommandAnswers := by
  intro i s
  rw [exec_eq_issue]
  exact issue_answers ..

/-- Settles O7: an issue is ignored while BUSY or ERR is set, and every accepted command finishes. -/
theorem commandAcceptance : Obligations.CommandAcceptance := by
  intro s w
  rw [hostRegWrite_cmd]
  refine ⟨fun h => ?_, issueWord_finishes w⟩
  obtain ⟨op, body, hissue⟩ := issueWord_eq_issue w
  rw [hissue]
  rcases h with hb | he
  · exact issue_of_busy op body hb
  · exact issue_of_err op body he

/-- Settles O9: the three bodies raise SequenceError before any change. -/
theorem commandsNeedValidTable : Obligations.CommandsNeedValidTable := by
  intro s ha hl
  refine ⟨exec_of_raised (i := .lookup) (kind := .sequenceError) ha (lookupBody_of_invalid (s := beginCommand s) hl),
    exec_of_raised (i := .seldepth) (kind := .sequenceError) ha (seldepthBody_of_invalid (s := beginCommand s) hl),
    fun ho => exec_of_raised (i := .pack) (kind := .sequenceError) ha ?_⟩
  rw [commandBody, checkSrc24_beginCommand_of_ok ho, andThen_ok]
  exact packBody_of_invalid hl

/-- Settles O10: by what the step's statement can do. -/
theorem errorIsSticky : Obligations.ErrorIsSticky := by
  intro s t h he
  rcases step_effect h with ⟨-, rfl⟩ | ⟨st, hst, heff⟩
  · exact .inl ⟨he, rfl⟩
  · simp only [hst, Option.some.injEq]
    exact heff.error_sticky he

end Sys2Proof
end


-- ==== Sys2Proof/Proofs/Build.lean ====
section
/-! PROOFS. The order of Colors (R100), and BUILD: its two ends, its palette, and what it depends on (R103 to R107). -/

namespace Sys2Proof

namespace Machine

/-- The document's order on Colors, component by component (R100). -/
theorem Color.lt_iff (x y : Color) : x.lt y = true ↔
    x.r.toNat < y.r.toNat ∨ x.r = y.r ∧ (x.g.toNat < y.g.toNat ∨ x.g = y.g ∧ x.b.toNat < y.b.toNat) := by
  simp only [Color.lt, Bool.or_eq_true, Bool.and_eq_true, decide_eq_true_eq, beq_iff_eq, BitVec.lt_def]

/-- The numeric order of keys, component by component: each component is a digit of base 256 (R100). -/
theorem Color.key_lt_iff (x y : Color) : x.key.toNat < y.key.toNat ↔
    x.r.toNat < y.r.toNat ∨ x.r = y.r ∧ (x.g.toNat < y.g.toNat ∨ x.g = y.g ∧ x.b.toNat < y.b.toNat) := by
  rw [Color.key_toNat, Color.key_toNat, ← BitVec.toNat_inj, ← BitVec.toNat_inj]
  have hxg := x.g.isLt
  have hxb := x.b.isLt
  have hyg := y.g.isLt
  have hyb := y.b.isLt
  omega

/-- BUILD of an image with at most 256 colors completes with its table (R106). -/
theorem exec_build_of_le {s : State} (ha : s.accepts) (ho : s.sourceOk) (hn : (sourceColors s).length ≤ 256) :
    exec .build s = .next (s.builtWith (sourceColors s)).recordSuccess := by
  refine exec_of_ok (t := (beginCommand s).builtWith (sourceColors s)) ha ?_
  rw [commandBody, checkSrc24_beginCommand_of_ok ho, andThen_ok]
  exact buildStage_of_le (s := beginCommand s) hn

/-- BUILD of an image with more colors records TooManyColors over what the failing build leaves (R106, R191). -/
theorem exec_build_of_lt {s : State} (ha : s.accepts) (ho : s.sourceOk) (hn : 256 < (sourceColors s).length) :
    exec .build s = .next (s.destroyedByBuild.recordError 0x01#8 0x09#8) := by
  rw [exec_eq_issue, issue_of_accepts _ _ ha, commandBody, checkSrc24_beginCommand_of_ok ho, andThen_ok,
    buildStage_of_lt (s := beginCommand s) hn]
  rfl

/-- BUILD ends with DONE only by installing a table of at most 256 colors (R106). -/
theorem exec_build_of_done {s t : State} (ha : s.accepts) (h : exec .build s = .next t) (hd : t.status.done = true) :
    (sourceColors s).length ≤ 256 ∧ t = (s.builtWith (sourceColors s)).recordSuccess := by
  cases exec_effect h with
  | ignored hn => exact absurd ha hn
  | failed | tooMany => exact absurd hd Bool.false_ne_true
  | built _ _ hn => exact ⟨hn, rfl⟩

/-- After a build every byte of PAL is the palette's (R104). -/
theorem read_pal_builtWith (s : State) {table : List Key} (hn : table.length ≤ 256) {off : Nat} (ho : off < 768) :
    (s.builtWith table).pal.read off = (paletteBytes table)[off]? := by
  rw [State.builtWith_pal, Memory.read_write, length_paletteBytes hn, if_pos ⟨Nat.zero_le _, by omega⟩, Nat.sub_zero]

/-- The table depends on the set of pixel colors alone (R103). -/
theorem sourceColors_eq_of_same_colors {s s' : State}
    (h : ∀ k : Key,
      (∃ row col, row < s.srcHeight.toNat ∧ col < s.srcWidth.toNat ∧ (pixelAt s row col).key = k) ↔
      (∃ row col, row < s'.srcHeight.toNat ∧ col < s'.srcWidth.toNat ∧ (pixelAt s' row col).key = k)) :
    sourceColors s = sourceColors s' :=
  ascending_ext (pairwise_sourceColors s) (pairwise_sourceColors s') fun k => by
    rw [mem_sourceColors, mem_sourceColors, h k]

end Machine

open Machine

/-- Settles O11: both orders are the same order of the three components. -/
theorem colorOrderIsKeyOrder : Obligations.ColorOrderIsKeyOrder := fun x y =>
  ⟨(Color.lt_iff x y).trans (Color.key_lt_iff x y).symm, Color.lt_iff x y, Color.key_toNat x, unkey_key x⟩

/-- Settles O13: the state of the build with its flags; ERR is 0 because the command was accepted. -/
theorem buildInstallsTheTable : Obligations.BuildInstallsTheTable := by
  intro s ha ho hn
  rw [exec_build_of_le ha ho hn]
  simp only [State.recordSuccess, State.builtWith, State.destroyedByBuild, ha.2]

/-- Settles O14: the pre-check passes and the build stage raises. -/
theorem buildTooManyColors : Obligations.BuildTooManyColors := fun _ => exec_build_of_lt

/-- Settles O15: PAL holds the palette bytes of the table, entry by entry and then the fill. -/
theorem paletteAfterBuild : Obligations.PaletteAfterBuild := by
  intro s t ha h hd
  obtain ⟨hn, rfl⟩ := exec_build_of_done ha h hd
  refine ⟨ncolors_toNat hn, fun i k hk => ?_, fun off h1 h2 => ?_⟩ <;>
    simp only [State.recordSuccess_lut, State.builtWith_lut, State.recordSuccess_pal] at *
  · have hi := (List.getElem?_eq_some_iff.mp hk).1
    have hentry : ∀ j, j < 3 →
        (s.builtWith (sourceColors s)).pal.read (3 * i + j) = (entryBytes k)[j]? := fun j hj => by
      rw [read_pal_builtWith s hn (by omega), getElem?_paletteBytes_entry hk hj]
    exact ⟨hentry 0 (by omega), hentry 1 (by omega), hentry 2 (by omega)⟩
  · rw [read_pal_builtWith s hn h2, getElem?_paletteBytes_fill h1 h2]

/-- Settles O16: equal color sets have one ascending table, and both ends of BUILD are determined by the table. -/
theorem buildIgnoresOrderAndFrequency : Obligations.BuildIgnoresOrderAndFrequency := by
  intro s s' t t' ha ha' ho ho' hset h h'
  have htable := sourceColors_eq_of_same_colors hset
  by_cases hn : 256 < (sourceColors s).length
  · obtain rfl := Host.Outcome.next.inj ((exec_build_of_lt ha ho hn).symm.trans h)
    obtain rfl := Host.Outcome.next.inj ((exec_build_of_lt ha' ho' (htable ▸ hn)).symm.trans h')
    simp [ha.1, ha.2, ha'.1, ha'.2]
  · obtain rfl := Host.Outcome.next.inj ((exec_build_of_le ha ho (Nat.not_lt.mp hn)).symm.trans h)
    have hn' : (sourceColors s').length ≤ 256 := htable ▸ Nat.not_lt.mp hn
    obtain rfl := Host.Outcome.next.inj ((exec_build_of_le ha' ho' hn').symm.trans h')
    refine ⟨htable, congrArg (fun table : List Key => BitVec.ofNat 9 table.length) htable, ?_, fun off hoff => ?_⟩
    · simp [ha.2, ha'.2]
    · simp only [State.recordSuccess_pal]
      rw [read_pal_builtWith s (Nat.not_lt.mp hn) hoff, read_pal_builtWith s' hn' hoff, htable]

end Sys2Proof
end

