-- ==== Sys2Proof/Proofs/LookupAndPixat.lean ====
section
/-! PROOFS. LOOKUP and PIXAT, and the one after the other (R108, R120, R122). -/

namespace Sys2Proof

namespace Machine

theorem IndexReg.toWord_toNat (x : IndexReg) : x.toWord.toNat = x.hit.toNat * 256 + x.id.toNat := by
  have hid := x.id.isLt
  have hhit := x.hit.toNat_lt
  rw [IndexReg.toWord, BitVec.toNat_ofNat]
  omega

/-- A hit, as INDEX holds it (R23, R108). -/
theorem lookupResult_of_rank {lut : List Key} {k : Key} {i : Nat} (h : rank lut k = some i) :
    lookupResult lut k = ⟨true, BitVec.ofNat 8 i⟩ := by
  rw [lookupResult, h]

/-- A miss, as INDEX holds it (R108). -/
theorem lookupResult_of_not_mem {lut : List Key} {k : Key} (h : k ∉ lut) : lookupResult lut k = ⟨false, 0⟩ := by
  rw [lookupResult, (rank_eq_none_iff lut k).mpr h]

/-- LOOKUP with a valid LUT completes with its result in INDEX (R108). -/
theorem exec_lookup_of_valid {s : State} (ha : s.accepts) (hl : s.status.lutValid = true) :
    exec .lookup s = .next { s.recordSuccess with index := lookupResult s.lut s.color } :=
  exec_of_ok (i := .lookup) ha (lookupBody_of_valid (s := beginCommand s) hl)

/-- PIXAT inside the image completes with the pixel's key in COLOR (R122). -/
theorem exec_pixat_inside {s : State} (ha : s.accepts) (ho : s.sourceOk) (hr : s.row.toNat < s.srcHeight.toNat)
    (hc : s.col.toNat < s.srcWidth.toNat) :
    exec .pixat s = .next { s.recordSuccess with color := (pixelAt s s.row.toNat s.col.toNat).key } := by
  refine exec_of_ok
    (t := { beginCommand s with color := (pixelAt s s.row.toNat s.col.toNat).key }) ha ?_
  rw [commandBody, checkSrc24_beginCommand_of_ok ho, andThen_ok]
  exact pixatBody_inside (s := beginCommand s) hr hc

end Machine

open Machine

/-- Settles O17: INDEX holds the rank, which in an ascending table is the color's place. -/
theorem lookupGivesTheRank : Obligations.LookupGivesTheRank := by
  rintro s ha hl ⟨hasc, -, hlen⟩
  refine ⟨_, exec_lookup_of_valid ha hl, fun i hi => ?_, fun hmiss => ?_⟩
  · have hrank := (rank_eq_some_iff hasc s.color i).mpr hi
    have hlt : i < 256 := (rank_lt hrank).trans_le hlen
    rw [lookupResult_of_rank hrank, IndexReg.toWord_toNat, BitVec.toNat_ofNat, Nat.mod_eq_of_lt hlt, Bool.toNat_true,
      Nat.one_mul]
  · rw [lookupResult_of_not_mem hmiss]
    rfl

/-- Settles O18: the color PIXAT leaves is the key of the three bytes that make the pixel. -/
theorem pixatReadsThePixel : Obligations.PixatReadsThePixel := by
  intro s ha ho hr hc
  refine ⟨_, exec_pixat_inside ha ho hr hc, ?_⟩
  rintro b g r o rfl rfl rfl rfl
  exact Color.key_toNat _

/-- Settles O19: the coordinate check raises before any change. -/
theorem pixatOutsideTheImage : Obligations.PixatOutsideTheImage := by
  intro s ha ho h
  refine exec_of_raised (i := .pixat) (kind := .operandRange) ha ?_
  rw [commandBody, checkSrc24_beginCommand_of_ok ho, andThen_ok]
  exact pixatBody_outside (s := beginCommand s) h

/-- Settles O20: the invariants put every pixel's color in a valid table. -/
theorem pixatThenLookupHits : Obligations.PixatThenLookupHits := by
  intro s hi ha ho hl hr hc
  obtain ⟨hasc, hn, hlen⟩ := hi.lut
  obtain ⟨id, hid, hlt⟩ := exists_rank_of_pixel hi hl hr hc
  refine ⟨_, _, exec_pixat_inside ha ho hr hc, exec_lookup_of_valid ⟨rfl, ha.2⟩ hl, ?_⟩
  dsimp only [State.recordSuccess_lut]
  rw [lookupResult_of_rank hid]
  refine ⟨rfl, ?_⟩
  rw [BitVec.toNat_ofNat, Nat.mod_eq_of_lt (hlt.trans_le (hn ▸ hlen))]
  exact (rank_eq_some_iff hasc _ id).mp hid

end Sys2Proof
end


-- ==== Sys2Proof/Proofs/Pack.lean ====
section
/-! PROOFS. PACK: its checks, its state, and what the packed bytes show (R124 to R129). -/

namespace Sys2Proof

namespace Machine

/-- PACK's checks after the source check raise before any change (R126, R189). -/
theorem exec_pack_of_raised {s : State} (ha : s.accepts) (ho : s.sourceOk) {kind : ErrorKind}
    (h : packBody (beginCommand s) = .raised kind (beginCommand s)) :
    exec .pack s = .next (s.recordError 0x04#8 kind.code) := by
  refine exec_of_raised (i := .pack) ha ?_
  rw [commandBody, checkSrc24_beginCommand_of_ok ho, andThen_ok, h]

/-- PACK on a state that meets every check completes with the image packed (R126). -/
theorem exec_pack_of_fits {s : State} (ha : s.accepts) (ho : s.sourceOk) (hl : s.status.lutValid = true)
    (hb : s.bpp.toNat = 1 ∨ s.bpp.toNat = 4 ∨ s.bpp.toNat = 8) (hn : s.ncolors.toNat ≤ 2 ^ s.bpp.toNat)
    (hc : outputSize s s.bpp.toNat ≤ s.cfg.dstCap) :
    exec .pack s = .next (s.packedAt s.bpp.toNat).recordSuccess := by
  refine exec_of_ok (t := (beginCommand s).packedAt s.bpp.toNat) ha ?_
  rw [commandBody, checkSrc24_beginCommand_of_ok ho, andThen_ok]
  exact packBody_of_ok (s := beginCommand s) hl hb hn hc

/-- DST_SIZE holds the size of an output whose dimensions passed the source check (R27, R62). -/
theorem dstSize_toNat {s : State} (hw : s.srcWidth.toNat ≤ 65535) (hh : s.srcHeight.toNat ≤ 65535) {b : Nat}
    (hb : b = 1 ∨ b = 4 ∨ b = 8) : (BitVec.ofNat 32 (outputSize s b)).toNat = outputSize s b := by
  rw [BitVec.toNat_ofNat, Nat.mod_eq_of_lt (outputSize_lt hw hh hb)]

/-- PAL_SIZE holds the size of a color table (R27). -/
theorem palSize_toNat {b : Nat} (hb : b = 1 ∨ b = 4 ∨ b = 8) : (BitVec.ofNat 32 (3 * 2 ^ b)).toNat = 3 * 2 ^ b := by
  rcases hb with rfl | rfl | rfl <;> rfl

/-- After packing every byte of DST is the packed buffer's (R126). -/
theorem read_dst_packedAt (s : State) (b off : Nat) : (s.packedAt b).dst.read off = (packedBuffer s b)[off]? := by
  rw [State.packedAt_dst, Memory.read_cellsFrom, if_pos (Nat.zero_le off), Nat.sub_zero]

/-- Under the invariants the ids PACK packs are the ranks, and they fit the depth (R125 c, R128 b). -/
theorem packedId_lt {s : State} (hi : s.Inv) (hl : s.status.lutValid = true) {b : Nat} (hn : s.ncolors.toNat ≤ 2 ^ b)
    {row col : Nat} (hr : row < s.srcHeight.toNat) (hc : col < s.srcWidth.toNat) :
    packedId s.lut (pixelAt s row col).key < 2 ^ b := by
  obtain ⟨id, hid, hlt⟩ := exists_rank_of_pixel hi hl hr hc
  rw [packedId_of_rank hid]
  exact hlt.trans_le hn

/-- The palette entry of a color of a valid table is the color, blue, green, red (R104, R128 c). -/
theorem read_pal_of_rank {s : State} (hi : s.Inv) (hl : s.status.lutValid = true) {c : Color} {id : Nat}
    (h : rank s.lut c.key = some id) :
    s.pal.read (3 * id) = some c.b ∧ s.pal.read (3 * id + 1) = some c.g ∧ s.pal.read (3 * id + 2) = some c.r := by
  obtain ⟨-, -, -, -, hpal⟩ := hi.lutValid hl
  have hentry : ∀ j, j < 3 → s.pal.read (3 * id + j) = [c.b, c.g, c.r][j]? := fun j hj => by
    rw [hpal, Memory.read_cellsFrom, if_pos (Nat.zero_le _), Nat.sub_zero,
      getElem?_paletteBytes_entry ((rank_eq_some_iff hi.lut.1 c.key id).mp h) hj, entryBytes, unkey_key]
  exact ⟨hentry 0 (by omega), hentry 1 (by omega), hentry 2 (by omega)⟩

/-- Every field of a byte of the packed buffer shows the id of its column, and 0 beyond the width (R128, R129). -/
theorem fields_of_packedBuffer (s : State) {b : Nat} (hb : b = 1 ∨ b = 4 ∨ b = 8) (ids : Nat → Nat → Nat)
    (hids : ∀ row col, row < s.srcHeight.toNat → col < s.srcWidth.toNat →
      packedId s.lut (pixelAt s row col).key = ids row col ∧ ids row col < 2 ^ b)
    {row k : Nat} (hr : row < s.srcHeight.toNat) (hk : k < slw s.cfg.align s.srcWidth.toNat b) :
    ∃ x : Byte, (packedBuffer s b)[row * slw s.cfg.align s.srcWidth.toNat b + k]? = some x ∧
      ∀ col, col * b / 8 = k →
        (x.toNat >>> packBitOffset b col) &&& (2 ^ b - 1) = if col < s.srcWidth.toNat then ids row col else 0 := by
  obtain ⟨x, hx, hbits⟩ := getLsbD_packedBuffer s hb ids hids hr hk
  refine ⟨x, hx, fun col hcol => shiftRight_and_mask_eq ?_ fun i hi => ?_⟩
  · split
    · next hc => exact (hids row col hr hc).2
    · exact Nat.two_pow_pos b
  · have hj : packBitOffset b col + i < 8 := by
      have := packBitOffset_add_le hb col
      omega
    have howner := (owner_iff hb (col := col) hj).mp ⟨hcol, by omega, by omega⟩
    rw [← BitVec.getLsbD, hbits _ hj, ← howner, Nat.add_sub_cancel_left]
    split
    · next hc => rw [decide_eq_true hc, Bool.true_and]
    · next hc => rw [decide_eq_false hc, Bool.false_and, Nat.zero_testBit]

/-- The columns of byte `k` are the `8 div b` from `k * (8 div b)` on, from the high bits down (R55). -/
theorem lane_position {b : Nat} (hb : b = 1 ∨ b = 4 ∨ b = 8) (k : Nat) {j : Nat} (hj : j < 8 / b) :
    (k * (8 / b) + j) * b / 8 = k ∧ packBitOffset b (k * (8 / b) + j) = 8 - b * (j + 1) := by
  rcases hb with rfl | rfl | rfl <;> simp only [packBitOffset] <;> omega

/-- A number below `2^(b*n)` is the sum of its `n` digits of base `2^b`, the highest first. -/
theorem eq_sum_of_digits (b : Nat) {n y : Nat} (hy : y < 2 ^ (b * n)) :
    y = ((List.range n).map fun j => y / 2 ^ (b * (n - 1 - j)) % 2 ^ b * 2 ^ (b * (n - 1 - j))).sum := by
  induction n generalizing y with
  | zero => simpa using hy
  | succ n ih =>
    have hhigh : y / 2 ^ b < 2 ^ (b * n) := Nat.div_lt_of_lt_mul (by rwa [← pow_add, Nat.add_comm, ← Nat.mul_succ])
    have hterm : ∀ j ∈ List.range n, y / 2 ^ (b * (n + 1 - 1 - j)) % 2 ^ b * 2 ^ (b * (n + 1 - 1 - j)) =
        y / 2 ^ b / 2 ^ (b * (n - 1 - j)) % 2 ^ b * 2 ^ (b * (n - 1 - j)) * 2 ^ b := fun j hj => by
      have he : n + 1 - 1 - j = n - 1 - j + 1 := by have := List.mem_range.mp hj; omega
      rw [he, Nat.mul_succ, Nat.div_div_eq_div_mul, ← pow_add, Nat.mul_assoc, ← pow_add, Nat.add_comm b]
    rw [List.range_succ, List.map_append, List.sum_append, List.map_congr_left hterm, List.sum_map_mul_right,
      ← ih hhigh]
    simp [Nat.div_add_mod']

/-- A byte is the sum of its fields at their places: they are its digits of base `2^b`. -/
theorem toNat_eq_sum_of_fields {b : Nat} (hb : b = 1 ∨ b = 4 ∨ b = 8) (x : Byte) (v : Nat → Nat)
    (h : ∀ j, j < 8 / b → (x.toNat >>> (8 - b * (j + 1))) &&& (2 ^ b - 1) = v j) :
    x.toNat = ((List.range (8 / b)).map fun j => v j * 2 ^ (8 - b * (j + 1))).sum := by
  have hbits : b * (8 / b) = 8 := by rcases hb with rfl | rfl | rfl <;> rfl
  rw [eq_sum_of_digits b (y := x.toNat) (n := 8 / b) (by rw [hbits]; exact x.isLt)]
  congr 1
  refine List.map_congr_left fun j hj => ?_
  have hplace : b * (8 / b - 1 - j) = 8 - b * (j + 1) := by
    rw [Nat.sub_sub, Nat.mul_sub, hbits, Nat.add_comm 1]
  rw [hplace, ← h j (List.mem_range.mp hj), Nat.and_two_pow_sub_one_eq_mod, Nat.shiftRight_eq_div_pow]
/-- A byte of the packed buffer is the sum of its lanes (R129). -/
theorem packedBuffer_eq_lanes (s : State) {b : Nat} (hb : b = 1 ∨ b = 4 ∨ b = 8) (ids : Nat → Nat → Nat)
    (hids : ∀ row col, row < s.srcHeight.toNat → col < s.srcWidth.toNat →
      packedId s.lut (pixelAt s row col).key = ids row col ∧ ids row col < 2 ^ b)
    {row k : Nat} (hr : row < s.srcHeight.toNat) (hk : k < slw s.cfg.align s.srcWidth.toNat b) :
    ∃ x : Byte, (packedBuffer s b)[row * slw s.cfg.align s.srcWidth.toNat b + k]? = some x ∧
      x.toNat = ((List.range (8 / b)).map fun j => lane s.srcWidth.toNat b (ids row) (k * (8 / b) + j)).sum := by
  obtain ⟨x, hx, hfields⟩ := fields_of_packedBuffer s hb ids hids hr hk
  refine ⟨x, hx, ?_⟩
  rw [toNat_eq_sum_of_fields hb x
    (fun j => if k * (8 / b) + j < s.srcWidth.toNat then ids row (k * (8 / b) + j) else 0) fun j hj => ?_]
  · congr 1
    refine List.map_congr_left fun j hj => ?_
    rw [lane, (lane_position hb k (List.mem_range.mp hj)).2, ite_mul, Nat.zero_mul]
  · obtain ⟨hbyte, hbit⟩ := lane_position hb k hj
    rw [← hbit, hfields _ hbyte]

/-- With ids that are 0 beyond the width a lane is the column's id at its place, whatever the column (R129). -/
theorem lane_of_zero_outside {w b : Nat} {ids : Nat → Nat} (h : ∀ col, w ≤ col → ids col = 0) (col : Nat) :
    lane w b ids col = ids col * 2 ^ packBitOffset b col := by
  rw [lane]
  split
  · rfl
  · next hc => rw [h col (Nat.not_lt.mp hc), Nat.zero_mul]

end Machine

open Machine

/-- Settles O21: the packed state with its flags; the sizes fit the 32 bits of their registers. -/
theorem packWritesTheImage : Obligations.PackWritesTheImage := by
  intro s ha ho hl hb hn hc
  obtain ⟨hw, hh, -, -⟩ := id ho
  refine ⟨packedBuffer s s.bpp.toNat, _, _, ?_, dstSize_toNat hw hh hb, palSize_toNat hb, ?_⟩
  · rw [exec_pack_of_fits ha ho hl hb hn hc]
    simp only [State.recordSuccess, State.packedAt, ha.2, hl, BitVec.ofNat_toNat, BitVec.setWidth_eq]
  · rw [length_packedBuffer, dstSize_toNat hw hh hb]

/-- Settles O22: the three checks of PACK's body in their order. -/
theorem packChecksInOrder : Obligations.PackChecksInOrder := by
  intro s ha ho hl
  refine ⟨fun h => exec_pack_of_raised ha ho (packBody_of_depth (s := beginCommand s) hl ?_), fun hb =>
    ⟨fun hn => exec_pack_of_raised ha ho (packBody_of_colors (s := beginCommand s) hl hb hn), fun hn hc =>
      exec_pack_of_raised ha ho (packBody_of_capacity (s := beginCommand s) hl hb hn hc)⟩⟩
  simpa using h

/-- Settles O26: the table of the invariants has a rank below its length, at most 256, for every pixel. -/
theorem packNeverMisses : Obligations.PackNeverMisses := by
  intro s hi hl row col hr hc
  obtain ⟨-, hn, hlen⟩ := hi.lut
  obtain ⟨id, hid, hlt⟩ := exists_rank_of_pixel hi hl hr hc
  exact ⟨id, hid, hlt.trans_le (hn ▸ hlen)⟩

/-- Settles O23: the extent by the invariants of the packed state, each pixel by its field and its palette entry, and
the padding by the bits no column owns. -/
theorem packedImageShowsThePicture : Obligations.PackedImageShowsThePicture := by
  intro s t hi ha h hd
  obtain ⟨hl, hb, hn, rfl⟩ := exec_pack_of_done ha h hd
  obtain ⟨hw, hh, -⟩ := hi.lutValid hl
  have hids : ∀ r c, r < s.srcHeight.toNat → c < s.srcWidth.toNat →
      packedId s.lut (pixelAt s r c).key = packedId s.lut (pixelAt s r c).key ∧
        packedId s.lut (pixelAt s r c).key < 2 ^ s.bpp.toNat := fun r c hr hc => ⟨rfl, packedId_lt hi hl hn hr hc⟩
  simp only [State.recordSuccess_dst, State.recordSuccess_dstSize, State.recordSuccess_pal, State.packedAt_pal,
    State.packedAt_dstSize, read_dst_packedAt]
  refine ⟨dstSize_toNat hw hh hb, ?_, fun row col hr hc => ?_, fun row k j hr hk hj hfree => ?_⟩
  · rw [dstSize_toNat hw hh hb, State.packedAt_dst, Memory.map_fst_cellsFrom, length_packedBuffer,
      List.range_eq_range']
  · have hk := packByte_lt_slw s.cfg.align (b := s.bpp.toNat) (by omega) hc
    obtain ⟨x, hx, hfields⟩ := fields_of_packedBuffer s hb _ hids hr hk
    obtain ⟨id, hid, hlt⟩ := exists_rank_of_pixel hi hl hr hc
    have hfield := hfields col rfl
    rw [if_pos hc, packedId_of_rank hid] at hfield
    exact ⟨x, id, hx, hfield, hid, hlt, hn, read_pal_of_rank hi hl hid⟩
  · obtain ⟨x, hx, hbits⟩ := getLsbD_packedBuffer s hb _ hids hr hk
    refine ⟨x, hx, ?_⟩
    obtain ⟨hbyte, hlo, hhi⟩ := (owner_iff hb (col := ownerCol s.bpp.toNat k j) hj).mpr rfl
    have houtside : ¬ ownerCol s.bpp.toNat k j < s.srcWidth.toNat := fun hlt => by
      have := hfree _ hlt hbyte
      simp only [packBitOffset] at hlo hhi
      omega
    rw [hbits j hj, decide_eq_false houtside, Bool.false_and]

/-- Settles O25: the byte is the sum of its lanes, each at the place the depth gives it. -/
theorem packedLaneByLane : Obligations.PackedLaneByLane := by
  intro s t hi ha h hd ids hranks hzero row k hr hk
  obtain ⟨hl, hb, hn, rfl⟩ := exec_pack_of_done ha h hd
  have hids : ∀ r c, r < s.srcHeight.toNat → c < s.srcWidth.toNat →
      packedId s.lut (pixelAt s r c).key = ids r c ∧ ids r c < 2 ^ s.bpp.toNat := fun r c h1 h2 => by
    have hid := packedId_of_rank (hranks r c h1 h2)
    exact ⟨hid, hid ▸ packedId_lt hi hl hn h1 h2⟩
  obtain ⟨x, hx, hsum⟩ := packedBuffer_eq_lanes s hb ids hids hr hk
  have hsum' : x.toNat = ((List.range (8 / s.bpp.toNat)).map fun j =>
      ids row (k * (8 / s.bpp.toNat) + j) * 2 ^ (8 - s.bpp.toNat * (j + 1))).sum := by
    rw [hsum]
    congr 1
    refine List.map_congr_left fun j hj => ?_
    rw [lane_of_zero_outside (hzero row), (lane_position hb k (List.mem_range.mp hj)).2]
  refine ⟨x, (read_dst_packedAt s _ _).trans hx, fun h8 => ?_, fun h4 => ?_, fun h1 => ?_⟩
  · simpa [h8] using hsum'
  · rw [hsum', h4, Nat.mul_comm k]
    simp [List.range_succ]
    omega
  · rw [hsum', h1, Nat.mul_comm k]
    simp [List.range_succ]
    omega

end Sys2Proof
end


-- ==== Sys2Proof/Proofs/Compress.lean ====
section
/-! PROOFS. SELDEPTH, and COMPRESS: its ends and its agreement with the staged commands (R140 to R147). -/

namespace Sys2Proof

namespace Machine

/-- SELDEPTH with a valid LUT completes with the chosen depth in BPP (R142). -/
theorem exec_seldepth_of_valid {s : State} {b : Nat} (ha : s.accepts) (hl : s.status.lutValid = true)
    (hb : chooseBpp s.ncolors.toNat = some b) : exec .seldepth s = .next (s.withDepth b).recordSuccess := by
  refine exec_of_ok (t := (beginCommand s).withDepth b) ha ?_
  exact (seldepthBody_of_valid (s := beginCommand s) hl).trans (depthStage_of_some (s := beginCommand s) hb)

/-- A depth is chosen only for at most 256 colors (R140). -/
theorem le_256_of_chooseBpp {n b : Nat} (h : chooseBpp n = some b) : n ≤ 256 := by
  obtain ⟨hb, hn⟩ := chooseBpp_eq_some h
  rcases hb with rfl | rfl | rfl <;> omega

/-- COMPRESS of an image with too many colors records TooManyColors over what the failing build leaves (R146, R191). -/
theorem exec_compress_of_many {s : State} (ha : s.accepts) (ho : s.sourceOk) (hn : 256 < (sourceColors s).length) :
    exec .compress s = .next (s.destroyedByBuild.recordError 0x06#8 0x09#8) := by
  rw [exec_eq_issue, issue_of_accepts _ _ ha, commandBody, compressBody_of_many (s := beginCommand s) ho hn]
  rfl

/-- COMPRESS of an image whose output fits completes in a build, the chosen depth and a packing (R146). -/
theorem exec_compress_of_fits {s : State} {b : Nat} (ha : s.accepts) (ho : s.sourceOk)
    (hb : chooseBpp (sourceColors s).length = some b) (hc : outputSize s b ≤ s.cfg.dstCap) :
    exec .compress s = .next (((s.builtWith (sourceColors s)).withDepth b).packedAt b).recordSuccess := by
  refine exec_of_ok (t := (((beginCommand s).builtWith (sourceColors s)).withDepth b).packedAt b) ha ?_
  exact (compressBody_of_some (s := beginCommand s) ho (le_256_of_chooseBpp hb) hb).trans
    (compressPackStage_of_fits (depth_toNat (chooseBpp_eq_some hb).1) hc)

/-- COMPRESS of an image whose output is too large records CapacityExceeded over the build and the depth (R146). -/
theorem exec_compress_of_large {s : State} {b : Nat} (ha : s.accepts) (ho : s.sourceOk)
    (hb : chooseBpp (sourceColors s).length = some b) (hc : s.cfg.dstCap < outputSize s b) :
    exec .compress s = .next (((s.builtWith (sourceColors s)).withDepth b).recordError 0x06#8 0x13#8) := by
  have hlarge := compressPackStage_of_large (s := ((beginCommand s).builtWith (sourceColors s)).withDepth b)
    (depth_toNat (chooseBpp_eq_some hb).1) hc
  rw [exec_eq_issue, issue_of_accepts _ _ ha, commandBody,
    compressBody_of_some (s := beginCommand s) ho (le_256_of_chooseBpp hb) hb, sourceColors_beginCommand, hlarge]
  rfl

theorem thenUnlessError_of_err {t : State} (h : t.status.err = true) (f : State → Host.Outcome State Fault Refusal) :
    thenUnlessError (.next t) f = .next t := if_pos h

theorem thenUnlessError_of_no_err {t : State} (h : t.status.err = false)
    (f : State → Host.Outcome State Fault Refusal) : thenUnlessError (.next t) f = f t :=
  if_neg (Bool.eq_false_iff.mp h)

/-- A build that fails ends the staged commands (R147). -/
theorem stagedCompress_of_build_err {s t : State} (h : exec .build s = .next t) (he : t.status.err = true) :
    stagedCompress s = .next t := by
  rw [stagedCompress, h, thenUnlessError_of_err he, thenUnlessError_of_err he]

/-- After a build that succeeds the depth is chosen, and PACK runs in the state both leave (R147). -/
theorem stagedCompress_of_built {s : State} {b : Nat} (ha : s.accepts) (ho : s.sourceOk)
    (hb : chooseBpp (sourceColors s).length = some b) :
    stagedCompress s = exec .pack (((s.builtWith (sourceColors s)).withDepth b).recordSuccess) := by
  have hn := le_256_of_chooseBpp hb
  have hdepth : chooseBpp (s.builtWith (sourceColors s)).recordSuccess.ncolors.toNat = some b := by
    rw [State.recordSuccess_ncolors, State.builtWith_ncolors, ncolors_toNat hn, hb]
  rw [stagedCompress, exec_build_of_le ha ho hn, thenUnlessError_of_no_err (by simp [ha.2]),
    exec_seldepth_of_valid (s := (s.builtWith (sourceColors s)).recordSuccess) ⟨rfl, ha.2⟩ rfl hdepth,
    thenUnlessError_of_no_err (by simp [ha.2])]
  rfl

/-- The state both stages leave meets PACK's checks up to the output capacity. -/
theorem builtWith_withDepth_ncolors_le {s : State} {b : Nat} (hb : chooseBpp (sourceColors s).length = some b) :
    ((s.builtWith (sourceColors s)).withDepth b).ncolors.toNat ≤ 2 ^ b := by
  rw [State.withDepth_ncolors, State.builtWith_ncolors, ncolors_toNat (le_256_of_chooseBpp hb)]
  exact (chooseBpp_eq_some hb).2

/-- The staged commands on an image whose output fits leave the packed state (R147). -/
theorem stagedCompress_of_fits {s : State} {b : Nat} (ha : s.accepts) (ho : s.sourceOk)
    (hb : chooseBpp (sourceColors s).length = some b) (hc : outputSize s b ≤ s.cfg.dstCap) :
    stagedCompress s = .next (((s.builtWith (sourceColors s)).withDepth b).packedAt b).recordSuccess := by
  have hdepth := (chooseBpp_eq_some hb).1
  have hbpp : ((s.builtWith (sourceColors s)).withDepth b).recordSuccess.bpp.toNat = b := depth_toNat hdepth
  rw [stagedCompress_of_built ha ho hb, exec_pack_of_fits
    (s := ((s.builtWith (sourceColors s)).withDepth b).recordSuccess) ⟨rfl, ha.2⟩ ho rfl] <;> rw [hbpp]
  · rfl
  · exact hdepth
  · exact builtWith_withDepth_ncolors_le hb
  · exact hc

/-- The staged commands on an image whose output is too large end in PACK's CapacityExceeded (R147). -/
theorem stagedCompress_of_large {s : State} {b : Nat} (ha : s.accepts) (ho : s.sourceOk)
    (hb : chooseBpp (sourceColors s).length = some b) (hc : s.cfg.dstCap < outputSize s b) :
    stagedCompress s = .next (((s.builtWith (sourceColors s)).withDepth b).recordError 0x04#8 0x13#8) := by
  have hdepth := (chooseBpp_eq_some hb).1
  have hbpp : ((s.builtWith (sourceColors s)).withDepth b).recordSuccess.bpp.toNat = b := depth_toNat hdepth
  rw [stagedCompress_of_built ha ho hb]
  refine exec_pack_of_raised (s := ((s.builtWith (sourceColors s)).withDepth b).recordSuccess)
    (kind := .capacityExceeded) ⟨rfl, ha.2⟩ ho (packBody_of_capacity rfl ?_ ?_ ?_) <;>
    rw [beginCommand_bpp, hbpp]
  · exact hdepth
  · exact builtWith_withDepth_ncolors_le hb
  · exact hc

end Machine

open Machine

/-- Settles O28: a smaller depth that held the count would have been chosen. -/
theorem chooseBppIsLeast : Obligations.ChooseBppIsLeast := by
  intro n b h
  obtain ⟨hb, hn⟩ := chooseBpp_eq_some h
  refine ⟨hn, hb, fun b' hb' hn' => ?_⟩
  rcases hb' with rfl | rfl | rfl
  · exact (Option.some.inj (h.symm.trans (chooseBpp_of_le_two hn'))).le
  · by_cases h2 : n ≤ 2
    · have := Option.some.inj (h.symm.trans (chooseBpp_of_le_two h2))
      omega
    · exact (Option.some.inj (h.symm.trans (chooseBpp_of_le_sixteen (Nat.not_le.mp h2) hn'))).le
  · omega

/-- Settles O29: the depth is `choose_bpp` of NCOLORS, range by range. -/
theorem seldepthChoosesTheDepth : Obligations.SeldepthChoosesTheDepth := by
  intro s ha hl hn
  by_cases h2 : s.ncolors.toNat ≤ 2
  · rw [exec_seldepth_of_valid ha hl (chooseBpp_of_le_two h2), if_pos h2]
    rfl
  · by_cases h16 : s.ncolors.toNat ≤ 16
    · rw [exec_seldepth_of_valid ha hl (chooseBpp_of_le_sixteen (Nat.not_le.mp h2) h16), if_neg h2, if_pos h16]
      rfl
    · rw [exec_seldepth_of_valid ha hl (chooseBpp_of_le_256 (Nat.not_le.mp h16) hn), if_neg h2, if_neg h16]
      rfl

/-- Settles O30: the fields of the state of a build, the chosen depth and a packing. -/
theorem compressConverts : Obligations.CompressConverts := by
  intro s b ha ho hb hc
  have hdepth := (chooseBpp_eq_some hb).1
  obtain ⟨hw, hh, -, -⟩ := id ho
  have hsize := dstSize_toNat hw hh hdepth
  refine ⟨_, exec_compress_of_fits ha ho hb hc, by simp [ha.2], rfl, ncolors_toNat (le_256_of_chooseBpp hb), rfl,
    depth_toNat hdepth, rfl, rfl, rfl, depth_toNat hdepth, hsize, palSize_toNat hdepth, ?_, rfl⟩
  rw [State.recordSuccess_dst, State.packedAt_dst, Memory.map_fst_cellsFrom, length_packedBuffer,
    ← List.range_eq_range']
  exact congrArg List.range hsize.symm

/-- Settles O31: the two late ends of COMPRESS. -/
theorem compressErrors : Obligations.CompressErrors := fun _ ha ho =>
  ⟨exec_compress_of_many ha ho, fun _ => exec_compress_of_large ha ho⟩

/-- Settles O32: by where the first stage fails, if any does. -/
theorem compressEqualsTheStages : Obligations.CompressEqualsTheStages := by
  intro s ha
  cases hsrc : sourceError s with
  | some kind =>
    have hbuild := exec_of_sourceError (i := .build) (by decide) ha hsrc
    exact ⟨_, _, exec_of_sourceError (i := .compress) (by decide) ha hsrc, stagedCompress_of_build_err hbuild rfl,
      nofun, fun _ => rfl⟩
  | none =>
    have ho := (sourceError_eq_none_iff s).mp hsrc
    by_cases hn : 256 < (sourceColors s).length
    · exact ⟨_, _, exec_compress_of_many ha ho hn, stagedCompress_of_build_err (exec_build_of_lt ha ho hn) rfl,
        nofun, fun _ => rfl⟩
    obtain ⟨b, hb⟩ := chooseBpp_isSome (Nat.not_lt.mp hn)
    by_cases hc : outputSize s b ≤ s.cfg.dstCap
    · refine ⟨_, _, exec_compress_of_fits ha ho hb hc, stagedCompress_of_fits ha ho hb hc, fun _ => rfl, fun he => ?_⟩
      exact absurd (he.symm.trans ha.2) (by decide)
    · have hc' := Nat.not_le.mp hc
      exact ⟨_, _, exec_compress_of_large ha ho hb hc', stagedCompress_of_large ha ho hb hc', nofun, fun _ => rfl⟩

end Sys2Proof
end


-- ==== Sys2Proof/Proofs/Arithmetic.lean ====
section
/-! PROOFS. Scanline widths and the sizes and offsets they give (R56, R62). -/

namespace Sys2Proof

namespace Machine

theorem slw_mod (a : Align) (w b : Nat) : slw a w b % a.bytes = 0 := Nat.mul_mod_left ..

/-- No multiple of the alignment unit that holds the bits is smaller than the scanline width (R56). -/
theorem slw_le_of_holds {a : Align} {w b n : Nat} (hn : n % a.bytes = 0) (h : w * b ≤ 8 * n) : slw a w b ≤ n := by
  cases a <;> simp only [slw, Align.bytes] at * <;> omega

theorem slw_zero (a : Align) (b : Nat) : slw a 0 b = 0 :=
  Nat.le_zero.mp (slw_le_of_holds (Nat.zero_mod _) (by omega))

theorem slw_mono {a : Align} {w w' : Nat} (b : Nat) (h : w ≤ w') : slw a w b ≤ slw a w' b :=
  slw_le_of_holds (slw_mod ..) ((Nat.mul_le_mul_right b h).trans (mul_le_slw ..))

/-- The widest 24-bit scanline is 196608 bytes (R62). -/
theorem slw_24_le {a : Align} {w : Nat} (h : w ≤ 65535) : slw a w 24 ≤ 196608 :=
  slw_le_of_holds (by cases a <;> rfl) (by omega)

/-- The widest packed scanline is 65536 bytes (R62). -/
theorem slw_packed_le {a : Align} {w b : Nat} (h : w ≤ 65535) (hb : b = 1 ∨ b = 4 ∨ b = 8) : slw a w b ≤ 65536 :=
  slw_le_of_holds (by cases a <;> rfl) (by rcases hb with rfl | rfl | rfl <;> omega)

/-- A packed buffer within the checked ranges has at most 4294901760 bytes (R62). -/
theorem packedSize_le {a : Align} {w h b : Nat} (hh : h ≤ 65535) (hw : w ≤ 65535) (hb : b = 1 ∨ b = 4 ∨ b = 8) :
    h * slw a w b ≤ 4294901760 :=
  Nat.mul_le_mul hh (slw_packed_le hw hb)

/-- An id that fits the depth fits its byte when shifted to its field (R55). -/
theorem shifted_id_le {b id o : Nat} (hid : id < 2 ^ b) (ho : o + b ≤ 8) : id * 2 ^ o ≤ 255 := by
  have hlt : id * 2 ^ o < 2 ^ b * 2 ^ o := Nat.mul_lt_mul_of_pos_right hid (Nat.two_pow_pos o)
  have hle : 2 ^ b * 2 ^ o ≤ 2 ^ 8 := by
    rw [← pow_add]
    exact Nat.pow_le_pow_right (by decide) (by omega)
  omega

end Machine

open Machine

/-- Settles O56: the width is a multiple that holds the bits, and least among those; the rest follows from that. -/
theorem scanlineWidthIsLeast : Obligations.ScanlineWidthIsLeast := fun a w b =>
  ⟨slw_mod a w b, mul_le_slw a w b, slw_zero a b, fun _ => slw_le_of_holds, fun _ => slw_mono b⟩

/-- Settles O57: the sizes by the widest scanlines, the offsets by the pixel lying in its scanline and byte. -/
theorem sizesAndOffsetsFit : Obligations.SizesAndOffsetsFit := by
  intro a h w b row col hh hw hb
  refine ⟨Nat.mul_le_mul hh (slw_24_le hw), packedSize_le hh hw hb, fun hr hc => ?_⟩
  have hfield := packBitOffset_add_le hb col
  refine ⟨pixelOffset_lt_size a hr hc, packByteOffset_lt a (by omega) hr hc, by omega, ?_,
    fun id hid => shifted_id_le hid hfield⟩
  rcases hb with rfl | rfl | rfl <;> omega

end Sys2Proof
end

