-- ==== Sys2Proof/Proofs/OutputImage.lean ====
section
/-! PROOFS. The output Image: what it is under the invariants, what changes it, and its file (R32, R176, R223). -/

namespace Sys2Proof

namespace Machine

/-- Where every element of a list has an answer, mapping over the list gives the answers. -/
theorem mapM_eq_some_map {α β : Type} {f : α → Option β} {g : α → β} {l : List α} (h : ∀ a ∈ l, f a = some (g a)) :
    l.mapM f = some (l.map g) := by
  induction l with
  | nil => rfl
  | cons a l ih =>
    rw [List.mapM_cons, h a (List.mem_cons_self ..), ih fun x hx => h x (List.mem_cons_of_mem a hx)]
    rfl

/-- The first bytes of a space that reads as a list of bytes are the first of the list. -/
theorem Memory.firstBytes_of_read {m : Memory} {bs : List Byte} {n : Nat} (hn : n ≤ bs.length)
    (h : ∀ i, i < n → m.read i = bs[i]?) : m.firstBytes n = some (bs.take n) := by
  have hread : ∀ i ∈ List.range n, m.read i = some (bs.getD i 0) := fun i hi => by
    have hlt := List.mem_range.mp hi
    rw [h i hlt, List.getElem?_eq_getElem (by omega), List.getD_eq_getElem _ _ (by omega)]
  rw [Memory.firstBytes, mapM_eq_some_map hread]
  congr 1
  refine List.ext_getElem (by simp [hn]) fun i h1 h2 => ?_
  have hlt : i < bs.length := by simp at h2; omega
  simp [List.getElem?_eq_getElem hlt]

/-- A space whose offsets are consecutive holds consecutive cells. -/
theorem Memory.eq_cellsFrom {m : Memory} {off n : Nat} (h : m.map Prod.fst = List.range' off n) :
    m = Memory.cellsFrom off (m.map Prod.snd) := by
  induction m generalizing off n with
  | nil => rfl
  | cons c m ih =>
    cases n with
    | zero => cases h
    | succ n =>
      rw [List.range'_succ, List.map_cons] at h
      obtain ⟨hc, hm⟩ := List.cons.inj h
      rw [List.map_cons, Memory.cellsFrom, ← ih hm, ← hc]

/-- The first bytes of a space that lists all offsets below a bound. -/
theorem Memory.firstBytes_of_offsets {m : Memory} {n k : Nat} (h : m.map Prod.fst = List.range n) (hk : k ≤ n) :
    m.firstBytes k = some ((m.map Prod.snd).take k) ∧ (m.map Prod.snd).length = n := by
  have hlen : (m.map Prod.snd).length = n := by
    rw [List.length_map, ← List.length_map Prod.fst, h, List.length_range]
  refine ⟨Memory.firstBytes_of_read (by omega) fun i _ => ?_, hlen⟩
  rw [List.range_eq_range'] at h
  conv_lhs => rw [Memory.eq_cellsFrom h]
  rw [Memory.read_cellsFrom, if_pos (Nat.zero_le i), Nat.sub_zero]

theorem outputImage_of_bytes {s : State} (hv : s.status.dstValid = true) {buf table : List Byte}
    (hb : s.dst.firstBytes s.dstSize.toNat = some buf) (ht : s.pal.firstBytes s.palSize.toNat = some table) :
    outputImage s = some ⟨s.dstWidth.toNat, s.dstHeight.toNat, s.dstBpp.toNat, buf, table⟩ := by
  rw [outputImage, if_pos hv, hb, ht]

/-- The sizes the invariants give a valid output hold of its Image, which so is well formed (R30, R32). -/
theorem exists_outputImage {s : State} (hi : s.Inv) (hv : s.status.dstValid = true) :
    ∃ img, outputImage s = some img ∧ img.wellFormed s.cfg.align = true ∧
      (img.width ≤ 65535 ∧ img.height ≤ 65535) ∧
      (img.bitsPerPixel = 1 ∨ img.bitsPerPixel = 4 ∨ img.bitsPerPixel = 8) ∧
      img.pixelBuffer.length = s.dstSize.toNat ∧ img.colorTable.length = s.palSize.toNat := by
  obtain ⟨hw, hh, hmem, hsize, hpsize, hdst, hpal⟩ := hi.dstValid hv
  have hb : s.dstBpp.toNat = 1 ∨ s.dstBpp.toNat = 4 ∨ s.dstBpp.toNat = 8 := by simpa using hmem
  have hple : s.palSize.toNat ≤ 768 := by rcases hb with h | h | h <;> rw [hpsize, h] <;> decide
  have hct : colorTableSize s.dstBpp.toNat = 3 * 2 ^ s.dstBpp.toNat := if_neg (by omega)
  obtain ⟨hbuf, hblen⟩ := Memory.firstBytes_of_offsets hdst (Nat.le_refl _)
  obtain ⟨htable, htlen⟩ := Memory.firstBytes_of_offsets hpal hple
  have hl : ((s.dst.map Prod.snd).take s.dstSize.toNat).length = s.dstSize.toNat := by
    rw [List.length_take, hblen, Nat.min_self]
  have htl : ((s.pal.map Prod.snd).take s.palSize.toNat).length = s.palSize.toNat := by
    rw [List.length_take, htlen, Nat.min_eq_left hple]
  refine ⟨_, outputImage_of_bytes hv hbuf htable, ?_, ⟨hw, hh⟩, hb, hl, htl⟩
  rw [Image.wellFormed_iff]
  exact ⟨List.mem_append_left [24] hmem, by rw [htl, hpsize, hct], by rw [hl, hsize]⟩

/-- Commands other than BUILD, PACK and COMPRESS leave the output Image (R32). -/
theorem CommandEffect.outputImage {i : Instr} {s t : State} (h : CommandEffect i s t) :
    outputImage t = outputImage s ∨ i = .build ∨ i = .pack ∨ i = .compress := by
  cases h with
  | ignored | failed | looked | unpacked | selected => exact .inl rfl
  | tooMany hi => exact .inr (hi.imp_right .inr)
  | built => exact .inr (.inl rfl)
  | packed => exact .inr (.inr (.inl rfl))
  | compressed | tooLarge => exact .inr (.inr (.inr rfl))

/-- Register writes other than the soft reset leave the output Image (R32). -/
theorem outputImage_writeReg {r : RegName} (hr : r ≠ .ctrl) (s : State) (w : Word) :
    outputImage (writeReg s r w) = outputImage s := by
  cases r with
  | ctrl => exact absurd rfl hr
  | status =>
    rw [writeReg, clearError]
    split <;> rfl
  | cap | error | cmd | srcWidth | srcHeight | srcBpp | row | col | color | index | ncolors | bpp | dstWidth
  | dstHeight | dstBpp | dstSize | palSize => rfl

/-- The statements that may change the output Image: the CMD writes of BUILD, PACK and COMPRESS, and resets (R32). -/
def Stmt.mayChangeOutput (st : Stmt) : Prop :=
  (∃ w, st = .access (.regWrite 0x10 w) ∧ (w = 1 ∨ w = 4 ∨ w = 6)) ∨
    (∃ w, st = .access (.regWrite 0x04 w) ∧ w.getLsbD 0 = true) ∨ st = .hardwareReset

theorem StmtEffect.outputImage {st : Stmt} {s t : State} (h : StmtEffect st s t) :
    outputImage t = outputImage s ∨ st.mayChangeOutput := by
  cases h with
  | nothing | observedReg | observedByte | observedWide | observedSized | jumped | stored | storedWide | illegal =>
    exact .inl rfl
  | reset => exact .inr (.inr (.inr rfl))
  | @command w i _ _ hw he =>
    refine he.outputImage.imp_right fun hi => .inl ⟨w, rfl, ?_⟩
    rw [(decodeWord_eq_ok_iff w i).mp hw]
    rcases hi with rfl | rfl | rfl
    · exact .inl rfl
    · exact .inr (.inl rfl)
    · exact .inr (.inr rfl)
  | @wrote off w _ r hr =>
    obtain rfl := offset_of_regAt hr
    by_cases hc : r = .ctrl
    · subst hc
      cases hbit : w.getLsbD 0 with
      | true => exact .inr (.inr (.inl ⟨w, rfl, hbit⟩))
      | false => exact .inl (by rw [writeReg_ctrl_of_not_bit hbit])
    · exact .inl (outputImage_writeReg hc s w)

theorem runEnded_iff (s : State) : s.runEnded = true ↔ currentStmt s = none ∧ s.status.busy = false := by
  simp [State.runEnded]

end Machine

open Machine

/-- Settles O40: by what the step's statement can do; moving the position leaves the output Image. -/
theorem outputImageIsImmutable : Obligations.OutputImageIsImmutable := by
  intro s t h
  rcases step_effect h with ⟨-, rfl⟩ | ⟨st, hst, heff⟩
  · exact .inl rfl
  · simp only [hst, Option.some.injEq]
    exact heff.outputImage

/-- Settles O41: the descriptors and extents of the invariants are those of an Image. -/
theorem outputImageIsAnImage : Obligations.OutputImageIsAnImage := by
  intro s hi hv
  obtain ⟨img, himg, hwf, ⟨hw, hh⟩, hb, -, -⟩ := exists_outputImage hi hv
  exact ⟨img, himg, hwf, hw, hh, hb⟩

/-- Settles O42: the script has run out, and the verdict goes by ERR and then DST_VALID. -/
theorem endOfARun : Obligations.EndOfARun := by
  intro s h
  obtain ⟨hnone, -⟩ := (runEnded_iff s).mp h
  refine ⟨step_of_none hnone, fun he => ?_, fun he hv => ?_, fun he hv => ⟨?_, fun hi => ?_⟩⟩
  · simp [State.verdict, he]
  · simp [State.verdict, he, hv]
  · simp [State.verdict, he, hv]
  · obtain ⟨img, himg, -⟩ := exists_outputImage hi hv
    exact ⟨img, himg⟩

/-- Settles O59: the output's size leaves room for the headers in 32 bits, and the file decodes as any does. -/
theorem outputImageEncodes : Obligations.OutputImageEncodes := by
  intro s img hi himg
  have hv : s.status.dstValid = true := by
    by_contra hv
    rw [outputImage, if_neg hv] at himg
    cases himg
  obtain ⟨img', himg', hwf, ⟨hw, hh⟩, hb, hlen, htlen⟩ := exists_outputImage hi hv
  obtain rfl := Option.some.inj (himg.symm.trans himg')
  obtain ⟨hmem, ht, hp⟩ := (img.wellFormed_iff s.cfg.align).mp hwf
  have hsize : fileSize s.cfg.align img ≤ 2 ^ 32 - 1 := by
    have hbuf := packedSize_le (a := s.cfg.align) hh hw hb
    have htable := colorTableSize_le hmem
    simp only [fileSize]
    omega
  refine ⟨_, (encodeFile_eq_ok_iff ..).mpr ⟨⟨hw, hh⟩, hsize, rfl⟩, ?_, decodeFile_of_encoded hwf hw hh⟩
  rw [List.length_append, List.length_append, hlen, htlen]
  rfl

end Sys2Proof
end


-- ==== Sys2Proof/Proofs/Document.lean ====
section
/-! PROOFS. COMPRESS is the document's `compress`, a function of the picture alone (R144, R145, R148 e). -/

namespace Sys2Proof

namespace Machine

/-- The pixel buffer of the document's output, scanline by scanline (R129, R145). -/
def pictureBuffer (a : Align) (w h b : Nat) (table : List Key) (px : Nat → Nat → Color) : List Byte :=
  (List.range h).flatMap fun row => packedRow a w b fun col => pictureId table (px row col)

theorem compressPicture_of_some {a : Align} {w h b : Nat} {px : Nat → Nat → Color}
    (hb : chooseBpp (pictureColors h w px).length = some b) :
    compressPicture a w h px = .ok
      { width := w
        height := h
        bitsPerPixel := b
        pixelBuffer := pictureBuffer a w h b (pictureColors h w px) px
        colorTable := (paletteBytes (pictureColors h w px)).take (3 * 2 ^ b) } := by
  rw [compressPicture, hb]
  rfl

theorem compressPicture_of_none {a : Align} {w h : Nat} {px : Nat → Nat → Color}
    (hn : 256 < (pictureColors h w px).length) : compressPicture a w h px = .error .tooManyColors := by
  rw [compressPicture, chooseBpp_eq_none hn]

theorem compressPicture_ne_alreadyIndexed (a : Align) (w h : Nat) (px : Nat → Nat → Color) :
    compressPicture a w h px ≠ .error .alreadyIndexed := by
  rw [compressPicture]
  split <;> nofun

/-- A packed scanline depends on the ids of its pixels alone (R129). -/
theorem packedRow_congr {a : Align} {w b : Nat} {ids ids' : Nat → Nat} (h : ∀ col, col < w → ids col = ids' col) :
    packedRow a w b ids = packedRow a w b ids' := by
  have hlane : lane w b ids = lane w b ids' := funext fun col => by
    rw [lane, lane]
    split
    · next hc => rw [h col hc]
    · rfl
  have hbyte : packedByte w b ids = packedByte w b ids' := funext fun k => by rw [packedByte, packedByte, hlane]
  rw [packedRow, packedRow, hbyte]

/-- What `compress` makes depends on the colors of the pixels inside the picture alone (R148 e). -/
theorem compressPicture_congr {a : Align} {w h : Nat} {px px' : Nat → Nat → Color}
    (hpx : ∀ row col, row < h → col < w → px row col = px' row col) :
    compressPicture a w h px = compressPicture a w h px' := by
  have hcolors : pictureColors h w px = pictureColors h w px' := by
    refine congrArg sortedKeys (List.map_congr_left fun p hp => ?_)
    obtain ⟨hr, hc⟩ := (mem_pixelCoords h w p).mp hp
    rw [hpx p.1 p.2 hr hc]
  have hrows : ∀ b table, pictureBuffer a w h b table px = pictureBuffer a w h b table px' := fun b table => by
    refine List.flatMap_congr fun row hrow => packedRow_congr fun col hc => ?_
    rw [hpx row col (List.mem_range.mp hrow) hc]
  by_cases hn : 256 < (pictureColors h w px).length
  · rw [compressPicture_of_none hn, compressPicture_of_none (hcolors ▸ hn)]
  · obtain ⟨b, hb⟩ := chooseBpp_isSome (Nat.not_lt.mp hn)
    rw [compressPicture_of_some hb, compressPicture_of_some (hcolors ▸ hb), hrows, hcolors]

/-- Scanlines of one length, one after the other: their number of bytes and each byte. -/
theorem flatMap_range_rows {α : Type} {f : Nat → List α} {n : Nat} (hf : ∀ row, (f row).length = n) (h : Nat) :
    ((List.range h).flatMap f).length = h * n ∧
      ∀ row k, row < h → k < n → ((List.range h).flatMap f)[row * n + k]? = (f row)[k]? := by
  induction h with
  | zero => exact ⟨by simp, nofun⟩
  | succ h ih =>
    obtain ⟨hlen, hget⟩ := ih
    rw [List.range_succ, List.flatMap_append, List.flatMap_singleton]
    refine ⟨by rw [List.length_append, hlen, hf, Nat.succ_mul], fun row k hr hk => ?_⟩
    rcases Nat.lt_succ_iff_lt_or_eq.mp hr with hr | rfl
    · have hlt : row * n + k < h * n := by
        have := Nat.mul_le_mul_right n (Nat.succ_le_of_lt hr)
        rw [Nat.succ_mul] at this
        omega
      rw [List.getElem?_append_left (hlen ▸ hlt), hget row k hr hk]
    · rw [List.getElem?_append_right (by omega), hlen, Nat.add_sub_cancel_left]

theorem length_packedRow (a : Align) (w b : Nat) (ids : Nat → Nat) : (packedRow a w b ids).length = slw a w b := by
  rw [packedRow, List.length_map, List.length_range]

theorem length_pictureBuffer (a : Align) (w h b : Nat) (table : List Key) (px : Nat → Nat → Color) :
    (pictureBuffer a w h b table px).length = h * slw a w b :=
  (flatMap_range_rows (fun _ => length_packedRow ..) h).1

/-- The engine's packing, pixel by pixel, is the document's, byte by byte, where the ids fit the depth (R124, R129). -/
theorem packedBuffer_eq_pictureBuffer (s : State) {b : Nat} (hb : b = 1 ∨ b = 4 ∨ b = 8)
    (hfit : ∀ row col, row < s.srcHeight.toNat → col < s.srcWidth.toNat →
      packedId s.lut (pixelAt s row col).key < 2 ^ b) :
    packedBuffer s b =
      pictureBuffer s.cfg.align s.srcWidth.toNat s.srcHeight.toNat b s.lut (pixelAt s) := by
  have hlen : (packedBuffer s b).length =
      (pictureBuffer s.cfg.align s.srcWidth.toNat s.srcHeight.toNat b s.lut (pixelAt s)).length := by
    rw [length_packedBuffer, length_pictureBuffer, outputSize]
  refine List.ext_getElem? fun i => ?_
  by_cases hi : i < s.srcHeight.toNat * slw s.cfg.align s.srcWidth.toNat b
  · have hpos : 0 < slw s.cfg.align s.srcWidth.toNat b := Nat.pos_of_mul_pos_left (Nat.zero_lt_of_lt hi)
    have hr : i / slw s.cfg.align s.srcWidth.toNat b < s.srcHeight.toNat := Nat.div_lt_of_lt_mul (Nat.mul_comm _ _ ▸ hi)
    have hk := Nat.mod_lt i hpos
    obtain ⟨x, hx, hsum⟩ := packedBuffer_eq_lanes s hb (fun r c => packedId s.lut (pixelAt s r c).key)
      (fun r c h1 h2 => ⟨rfl, hfit r c h1 h2⟩) hr hk
    rw [← Nat.div_add_mod' i (slw s.cfg.align s.srcWidth.toNat b), hx, pictureBuffer,
      (flatMap_range_rows (fun _ => length_packedRow ..) _).2 _ _ hr hk, packedRow, List.getElem?_map,
      List.getElem?_range hk, Option.map_some, packedByte]
    refine congrArg some (BitVec.eq_of_toNat_eq ?_)
    rw [BitVec.toNat_ofNat]
    exact hsum.trans (Nat.mod_eq_of_lt (hsum ▸ x.isLt)).symm
  · rw [List.getElem?_eq_none (by rw [length_packedBuffer]; exact Nat.not_lt.mp hi),
      List.getElem?_eq_none (by rw [← hlen, length_packedBuffer]; exact Nat.not_lt.mp hi)]

/-- The id of a key of a table is below the table's length (R102). -/
theorem packedId_lt_length {table : List Key} {k : Key} (h : k ∈ table) : packedId table k < table.length := by
  obtain ⟨id, hid⟩ := Option.ne_none_iff_exists'.mp (mt (rank_eq_none_iff table k).mp (not_not_intro h))
  rw [packedId_of_rank hid]
  exact rank_lt hid

/-- The colors of the picture a state shows are the source colors (R101). -/
theorem pictureColors_pixelAt (s : State) :
    pictureColors s.srcHeight.toNat s.srcWidth.toNat (pixelAt s) = sourceColors s := rfl

/-- The output Image packing leaves: the source's dimensions, the packed buffer and the first bytes of PAL (R32). -/
theorem outputImage_of_packedAt {s : State} {b : Nat} (hw : s.srcWidth.toNat ≤ 65535) (hh : s.srcHeight.toNat ≤ 65535)
    (hb : b = 1 ∨ b = 4 ∨ b = 8) {table : List Byte} (hlen : 3 * 2 ^ b ≤ table.length)
    (hpal : ∀ i, i < 3 * 2 ^ b → s.pal.read i = table[i]?) :
    outputImage (s.packedAt b).recordSuccess =
      some ⟨s.srcWidth.toNat, s.srcHeight.toNat, b, packedBuffer s b, table.take (3 * 2 ^ b)⟩ := by
  have hdst := Memory.firstBytes_of_read (Nat.le_refl _) fun i _ => read_dst_packedAt s b i
  rw [List.take_length, length_packedBuffer, ← dstSize_toNat hw hh hb] at hdst
  have htable := Memory.firstBytes_of_read hlen hpal
  rw [← palSize_toNat hb] at htable
  rw [outputImage_of_bytes (s := (s.packedAt b).recordSuccess) rfl hdst htable, palSize_toNat hb,
    State.recordSuccess_dstBpp, State.packedAt_dstBpp, depth_toNat hb]
  rfl

/-- The state COMPRESS leaves when it succeeds shows the document's output as its output Image (R32, R145). -/
theorem outputImage_of_compressed {s : State} {b : Nat} (ho : s.sourceOk)
    (hb : chooseBpp (sourceColors s).length = some b) {img : Image}
    (himg : compressPicture s.cfg.align s.srcWidth.toNat s.srcHeight.toNat (pixelAt s) = .ok img) :
    outputImage (((s.builtWith (sourceColors s)).withDepth b).packedAt b).recordSuccess = some img := by
  obtain ⟨hw, hh, -, -⟩ := id ho
  obtain ⟨hdepth, hcount⟩ := chooseBpp_eq_some hb
  have hn := le_256_of_chooseBpp hb
  rw [compressPicture_of_some hb] at himg
  obtain rfl := Except.ok.inj himg
  have hbuf : packedBuffer ((s.builtWith (sourceColors s)).withDepth b) b =
      pictureBuffer s.cfg.align s.srcWidth.toNat s.srcHeight.toNat b (sourceColors s) (pixelAt s) :=
    packedBuffer_eq_pictureBuffer ((s.builtWith (sourceColors s)).withDepth b) hdepth fun r c hr hc =>
      (packedId_lt_length ((mem_sourceColors s _).mpr ⟨r, c, hr, hc, rfl⟩)).trans_le hcount
  have hple : 3 * 2 ^ b ≤ 768 := by rcases hdepth with rfl | rfl | rfl <;> decide
  rw [outputImage_of_packedAt (s := (s.builtWith (sourceColors s)).withDepth b) hw hh hdepth
    (table := paletteBytes (sourceColors s)) (by rw [length_paletteBytes hn]; exact hple)
    fun i hi => read_pal_builtWith s hn (hi.trans_le hple), hbuf]
  rfl

/-- The document refuses a source Image that is not 24-bit (R144, R148 d). -/
theorem compress_of_indexed {img : Image} (h : img.bitsPerPixel ≠ 24) (a : Align) :
    img.compress a = .error .alreadyIndexed := if_pos h

/-- On a 24-bit source Image the document compresses the picture the engine sees (R31, R120). -/
theorem compress_sourceImage {s : State} (hb : s.srcBpp.toNat = 24) : (sourceImage s).compress s.cfg.align =
    compressPicture s.cfg.align s.srcWidth.toNat s.srcHeight.toNat (pixelAt s) := by
  rw [Image.compress, if_neg (c := (sourceImage s).bitsPerPixel ≠ 24) (not_not_intro hb)]
  exact compressPicture_congr fun row col hr hc => pixelAt_sourceImage hb hr hc

/-- The three ends of an accepted COMPRESS on a source that passes its check, beside the document's (R146, R148 e). -/
theorem exec_compress_cases {s : State} (ha : s.accepts) (ho : s.sourceOk) :
    (256 < (sourceColors s).length ∧
      exec .compress s = .next (s.destroyedByBuild.recordError 0x06#8 ErrorKind.tooManyColors.code)) ∨
    ∃ b, chooseBpp (sourceColors s).length = some b ∧
      ((s.cfg.dstCap < outputSize s b ∧ exec .compress s =
        .next (((s.builtWith (sourceColors s)).withDepth b).recordError 0x06#8 ErrorKind.capacityExceeded.code)) ∨
      (outputSize s b ≤ s.cfg.dstCap ∧ exec .compress s =
        .next (((s.builtWith (sourceColors s)).withDepth b).packedAt b).recordSuccess)) := by
  by_cases hn : 256 < (sourceColors s).length
  · exact .inl ⟨hn, exec_compress_of_many ha ho hn⟩
  obtain ⟨b, hb⟩ := chooseBpp_isSome (Nat.not_lt.mp hn)
  refine .inr ⟨b, hb, ?_⟩
  by_cases hc : outputSize s b ≤ s.cfg.dstCap
  · exact .inr ⟨hc, exec_compress_of_fits ha ho hb hc⟩
  · exact .inl ⟨Nat.not_le.mp hc, exec_compress_of_large ha ho hb (Nat.not_le.mp hc)⟩

theorem outputImage_of_not_valid {s : State} (h : s.status.dstValid = false) : outputImage s = none :=
  if_neg (Bool.eq_false_iff.mp h)

/-- One error over two states without an output Image and with the same LUT_VALID shows the host no difference. -/
theorem recordError_alike {s s' : State} {lv : Bool} (hl : s.status.lutValid = lv) (hl' : s'.status.lutValid = lv)
    (hd : s.status.dstValid = false) (hd' : s'.status.dstValid = false) (op code : Byte) :
    (s.recordError op code).status = (s'.recordError op code).status ∧
      outputImage (s.recordError op code) = outputImage (s'.recordError op code) ∧
      ((s.recordError op code).status.err = true → (s.recordError op code).error = (s'.recordError op code).error) := by
  rw [outputImage_of_not_valid (s := s.recordError op code) hd,
    outputImage_of_not_valid (s := s'.recordError op code) hd']
  simp [hl, hl', hd, hd']

end Machine

open Machine

/-- Settles O33: an indexed source fails the source check as the document does; on a 24-bit one both go by the number
of colors, and the packed state shows the document's Image. -/
theorem compressRefinesTheDocument : Obligations.CompressRefinesTheDocument := by
  intro s ha hw hh hdepth
  by_cases h24 : s.srcBpp.toNat = 24
  · have ho : s.sourceOk := ⟨hw, hh, h24, by simp only [sourceSize]; omega⟩
    rw [compress_sourceImage h24]
    have hiff : s.srcBpp.toNat ≠ 24 ↔
        compressPicture s.cfg.align s.srcWidth.toNat s.srcHeight.toNat (pixelAt s) = .error .alreadyIndexed :=
      ⟨absurd h24, fun h => (compressPicture_ne_alreadyIndexed _ _ _ _ h).elim⟩
    rcases exec_compress_cases ha ho with ⟨hn, he⟩ | ⟨b, hb, hend⟩
    · refine ⟨_, he, hiff, ?_⟩
      rw [compressPicture_of_none (by rwa [pictureColors_pixelAt])]
      exact ⟨rfl, rfl, .inr ⟨rfl, outputImage_of_not_valid rfl⟩⟩
    · have himg := compressPicture_of_some (a := s.cfg.align) (px := pixelAt s) (w := s.srcWidth.toNat)
        (h := s.srcHeight.toNat) hb
      rcases hend with ⟨hc, he⟩ | ⟨hc, he⟩ <;> refine ⟨_, he, hiff, ?_⟩ <;> rw [himg] <;> intro hfits
      · rw [length_pictureBuffer] at hfits
        exact absurd hfits (Nat.not_le.mpr hc)
      · exact ⟨ha.2, rfl, outputImage_of_compressed ho hb himg⟩
  · have hidx : s.srcBpp.toNat ∈ [1, 4, 8] := by simp; omega
    have hcomp := compress_of_indexed (img := sourceImage s) h24 s.cfg.align
    refine ⟨_, exec_of_sourceError (i := .compress) (by decide) ha (sourceError_of_indexed hw hh hidx),
      ⟨fun _ => hcomp, fun _ => h24⟩, ?_⟩
    rw [hcomp]
    exact ⟨rfl, rfl, .inl rfl⟩

/-- Settles O34: equal pictures have equal tables, so both commands end alike, and success shows the document's Image
of the one picture. -/
theorem compressDependsOnThePictureAlone : Obligations.CompressDependsOnThePictureAlone := by
  intro s s' t t' ha ha' ho ho' hcfg hw hh hpx h h'
  have hdoc : compressPicture s.cfg.align s.srcWidth.toNat s.srcHeight.toNat (pixelAt s) =
      compressPicture s'.cfg.align s'.srcWidth.toNat s'.srcHeight.toNat (pixelAt s') := by
    rw [compressPicture_congr hpx, hcfg, hw, hh]
  have htable : sourceColors s = sourceColors s' := by
    refine sourceColors_eq_of_same_colors fun k => ?_
    rw [← hw, ← hh]
    refine exists₂_congr fun row col => and_congr_right fun hr => and_congr_right fun hc => ?_
    rw [hpx row col hr hc]
  have hsize : ∀ b, outputSize s b = outputSize s' b := fun b => by rw [outputSize, outputSize, hcfg, hw, hh]
  rcases exec_compress_cases ha ho with ⟨hn, he⟩ | ⟨b, hb, hend⟩
  · obtain rfl := Host.Outcome.next.inj (he.symm.trans h)
    obtain rfl := Host.Outcome.next.inj ((exec_compress_of_many ha' ho' (htable ▸ hn)).symm.trans h')
    exact recordError_alike (lv := false) rfl rfl rfl rfl ..
  · have hb' := htable ▸ hb
    rcases hend with ⟨hc, he⟩ | ⟨hc, he⟩ <;> rw [hcfg, hsize] at hc <;>
      obtain rfl := Host.Outcome.next.inj (he.symm.trans h)
    · obtain rfl := Host.Outcome.next.inj ((exec_compress_of_large ha' ho' hb' hc).symm.trans h')
      exact recordError_alike (lv := true) rfl rfl rfl rfl ..
    · obtain rfl := Host.Outcome.next.inj ((exec_compress_of_fits ha' ho' hb' hc).symm.trans h')
      have himg := compressPicture_of_some (a := s.cfg.align) (px := pixelAt s) (w := s.srcWidth.toNat)
        (h := s.srcHeight.toNat) hb
      refine ⟨by simp [ha.2, ha'.2], ?_, fun herr => absurd (herr.symm.trans ha.2) (by decide)⟩
      rw [outputImage_of_compressed ho hb himg, outputImage_of_compressed ho' hb' (hdoc ▸ himg)]

end Sys2Proof
end


-- ==== Sys2Proof/Proofs/Frames.lean ====
section
/-! PROOFS. What commands, steps and reads leave unchanged (R82, R189, R213, R61). -/

namespace Sys2Proof

namespace Machine

/-- No command writes the parameters, the source registers, ROW, COL, the script, the model's counters or SRC (R82). -/
theorem CommandEffect.keeps_host {i : Instr} {s t : State} (h : CommandEffect i s t) :
    t.cfg = s.cfg ∧ t.srcWidth = s.srcWidth ∧ t.srcHeight = s.srcHeight ∧ t.srcBpp = s.srcBpp ∧
      t.row = s.row ∧ t.col = s.col ∧ t.script = s.script ∧ t.pos = s.pos ∧ t.observed = s.observed ∧
      t.srcEpoch = s.srcEpoch ∧ t.draws = s.draws ∧ t.src = s.src := by
  cases h <;> exact ⟨rfl, rfl, rfl, rfl, rfl, rfl, rfl, rfl, rfl, rfl, rfl, rfl⟩

/-- COLOR is written by PIXAT alone. -/
theorem CommandEffect.keeps_color {i : Instr} {s t : State} (h : CommandEffect i s t) (hi : i ≠ .pixat) :
    t.color = s.color := by
  cases h with
  | unpacked => exact absurd rfl hi
  | ignored | failed | tooMany | built | looked | packed | selected | compressed | tooLarge => rfl

/-- BPP is written by SELDEPTH and COMPRESS alone. -/
theorem CommandEffect.keeps_bpp {i : Instr} {s t : State} (h : CommandEffect i s t) (hs : i ≠ .seldepth)
    (hc : i ≠ .compress) : t.bpp = s.bpp := by
  cases h with
  | selected => exact absurd rfl hs
  | compressed | tooLarge => exact absurd rfl hc
  | ignored | failed | tooMany | built | looked | unpacked | packed => rfl

/-- INDEX is written by LOOKUP, BUILD and COMPRESS alone. -/
theorem CommandEffect.keeps_index {i : Instr} {s t : State} (h : CommandEffect i s t) (hl : i ≠ .lookup)
    (hb : i ≠ .build) (hc : i ≠ .compress) : t.index = s.index := by
  cases h with
  | tooMany hi => exact absurd hi (not_or.mpr ⟨hb, hc⟩)
  | built => exact absurd rfl hb
  | looked => exact absurd rfl hl
  | compressed | tooLarge => exact absurd rfl hc
  | ignored | failed | unpacked | packed | selected => rfl

/-- The table and its palette are written by BUILD and COMPRESS alone. -/
theorem CommandEffect.keeps_table {i : Instr} {s t : State} (h : CommandEffect i s t) (hb : i ≠ .build)
    (hc : i ≠ .compress) :
    t.lut = s.lut ∧ t.ncolors = s.ncolors ∧ t.status.lutValid = s.status.lutValid ∧ t.pal = s.pal := by
  cases h with
  | tooMany hi => exact absurd hi (not_or.mpr ⟨hb, hc⟩)
  | built => exact absurd rfl hb
  | compressed | tooLarge => exact absurd rfl hc
  | ignored | failed | looked | unpacked | packed | selected => exact ⟨rfl, rfl, rfl, rfl⟩

/-- The output is written by BUILD, PACK and COMPRESS alone. -/
theorem CommandEffect.keeps_output {i : Instr} {s t : State} (h : CommandEffect i s t) (hb : i ≠ .build)
    (hp : i ≠ .pack) (hc : i ≠ .compress) :
    t.dstWidth = s.dstWidth ∧ t.dstHeight = s.dstHeight ∧ t.dstBpp = s.dstBpp ∧ t.dstSize = s.dstSize ∧
      t.palSize = s.palSize ∧ t.status.dstValid = s.status.dstValid ∧ t.dst = s.dst := by
  cases h with
  | tooMany hi => exact absurd hi (not_or.mpr ⟨hb, hc⟩)
  | built => exact absurd rfl hb
  | packed => exact absurd rfl hp
  | compressed | tooLarge => exact absurd rfl hc
  | ignored | failed | looked | unpacked | selected => exact ⟨rfl, rfl, rfl, rfl, rfl, rfl, rfl⟩

/-- A command that records an error began with ERR = 0, so ERROR is written only together with ERR (R190, R193). -/
theorem CommandEffect.keeps_error {i : Instr} {s t : State} (h : CommandEffect i s t)
    (he : t.status.err = s.status.err) : t.error = s.error := by
  cases h with
  | ignored | built | looked | unpacked | packed | selected | compressed => rfl
  | failed ha | tooMany _ ha | tooLarge ha => exact absurd (he.trans ha.2) Bool.true_eq_false.mp

theorem writeReg_cfg (s : State) (r : RegName) (w : Word) : (writeReg s r w).cfg = s.cfg := by
  cases r with
  | ctrl => rw [writeReg]; split <;> rfl
  | status => rw [writeReg, clearError]; split <;> rfl
  | cap | error | cmd | srcWidth | srcHeight | srcBpp | row | col | color | index | ncolors | bpp | dstWidth
  | dstHeight | dstBpp | dstSize | palSize => rfl

/-- No statement changes the parameters (R213). -/
theorem StmtEffect.cfg {st : Stmt} {s t : State} (h : StmtEffect st s t) : t.cfg = s.cfg := by
  cases h with
  | nothing | observedReg | observedByte | observedWide | observedSized | jumped | stored | storedWide | illegal
  | reset => rfl
  | command _ he => exact he.keeps_host.1
  | wrote => exact writeReg_cfg ..

theorem readReg_cap (s : State) : readReg s .cap = BitVec.ofNat 32 s.cfg.align.bytes := rfl

/-- The statements that only read (R61). -/
def Stmt.isRead (st : Stmt) : Prop :=
  (∃ off, st = .access (.regRead off)) ∨ (∃ sp off, st = .access (.byteRead sp off)) ∨
    (∃ sp off n, st = .access (.wideRead sp off n)) ∨ ∃ sp off size, st = .sizedRead sp off size

/-- A read moves only the host's record and the count of draws (R61). -/
theorem StmtEffect.of_isRead {st : Stmt} {s t : State} (h : StmtEffect st s t) (hst : st.isRead) :
    t = { s with observed := t.observed, draws := t.draws } := by
  rcases hst with ⟨off, rfl⟩ | ⟨sp, off, rfl⟩ | ⟨sp, off, n, rfl⟩ | ⟨sp, off, size, rfl⟩ <;> cases h <;> rfl

end Machine

open Machine

/-- Settles O35: register by register, by the ways the command can end. -/
theorem commandFrames : Obligations.CommandFrames := by
  intro i s t h
  have he := exec_effect h
  obtain ⟨hcfg, hw, hh, hd, hrow, hcol, hscript, hpos, hobs, hepoch, hdraws, hsrc⟩ := he.keeps_host
  refine ⟨⟨hcfg, hw, hh, hd, hrow, hcol, hscript, hpos, hobs, hepoch, hdraws, hsrc, fun a => by rw [hsrc]⟩,
    he.keeps_color, he.keeps_bpp, he.keeps_index, fun hb hc => ?_, fun hb hp hc => ?_, he.keeps_error⟩
  · obtain ⟨hlut, hn, hv, hpal⟩ := he.keeps_table hb hc
    exact ⟨hlut, hn, hv, fun a => by rw [hpal]⟩
  · obtain ⟨h1, h2, h3, h4, h5, hv, hdst⟩ := he.keeps_output hb hp hc
    exact ⟨h1, h2, h3, h4, h5, hv, fun a => by rw [hdst]⟩

/-- Settles O39: CAP reads the parameters, which no statement changes. -/
theorem stepKeepsTheParameters : Obligations.StepKeepsTheParameters := by
  intro s t h
  have hcfg : t.cfg = s.cfg := by
    rcases step_effect h with ⟨-, rfl⟩ | ⟨st, -, he⟩
    · rfl
    · exact he.cfg
  refine ⟨hcfg, by rw [readReg_cap, readReg_cap, hcfg], ?_⟩
  rw [readReg_cap]
  cases t.cfg.align with
  | one => exact .inr rfl
  | four => exact .inl rfl

/-- Settles O51: the step's statement is a read, performed in a state whose position has moved. -/
theorem readsChangeNothing : Obligations.ReadsChangeNothing := by
  intro s t off n sp size hcur h
  rcases step_effect h with ⟨hnone, -⟩ | ⟨st, hst, he⟩
  · simp [hnone] at hcur
  · simp only [hst, Option.some.injEq] at hcur
    have hread : st.isRead := by
      rcases hcur with h | h | h | h
      · exact .inl ⟨off, h⟩
      · exact .inr (.inl ⟨sp, off, h⟩)
      · exact .inr (.inr (.inl ⟨sp, off, n, h⟩))
      · exact .inr (.inr (.inr ⟨sp, off, size, h⟩))
    rw [he.of_isRead hread]
    rfl

end Sys2Proof
end


-- ==== Sys2Proof/Proofs/Registers.lean ====
section
/-! PROOFS. Register accesses: reset, reads, writes and what is ignored (R11 to R27, R45, R85, R212, R218). -/

namespace Sys2Proof

namespace Machine

theorem RegName.offset_bounds (r : RegName) : r.offset ≤ 0x48 ∧ r.offset % 4 = 0 := by cases r <;> decide

/-- The offsets above the register map hold no register (R11). -/
theorem regAt_reserved {off : Nat} (h : 0x4C ≤ off) : regAt off = none := by
  refine Option.eq_none_iff_forall_ne_some.mpr fun r hr => ?_
  have hle := r.offset_bounds.1
  rw [← offset_of_regAt hr] at hle
  omega

/-- A read of a register offset gives its word while not BUSY, and that of STATUS always (R11, R218). -/
theorem hostRegRead_eq {off : Nat} {s : State} (h : off < 0x100) (h4 : off % 4 = 0)
    (hb : s.status.busy = false ∨ off = 0x08) : hostRegRead off s = .next (observeReg off (readRegAt s off) s) := by
  rw [hostRegRead, if_neg (Nat.not_le.mpr h), if_neg (not_not_intro h4), if_neg]
  rintro ⟨hbusy, hoff⟩
  rcases hb with hb | hb
  · rw [hb] at hbusy
    cases hbusy
  · exact hoff hb

theorem hostRegRead_answers {off : Nat} {s : State} (h : off < 0x100) (h4 : off % 4 = 0) :
    ∃ t, hostRegRead off s = .next t := by
  rw [hostRegRead, if_neg (Nat.not_le.mpr h), if_neg (not_not_intro h4)]
  split <;> exact ⟨_, rfl⟩

/-- While BUSY a register write is ignored, CMD writes among them (R193, R218). -/
theorem hostRegWrite_of_busy {off : Nat} {s : State} (h : off < 0x100) (h4 : off % 4 = 0) (w : Word)
    (hb : s.status.busy = true) : hostRegWrite off w s = .next s := by
  rw [hostRegWrite, if_neg (Nat.not_le.mpr h), if_neg (not_not_intro h4)]
  by_cases hc : off = RegName.cmd.offset
  · obtain ⟨op, body, hissue⟩ := issueWord_eq_issue w
    rw [if_pos hc, hissue, issue_of_busy op body hb]
  · rw [if_neg hc, if_pos hb]

/-- A write to an offset above the register map is ignored (R11, R85). -/
theorem hostRegWrite_reserved {off : Nat} (s : State) (h : 0x4C ≤ off) (h' : off < 0x100) (h4 : off % 4 = 0)
    (w : Word) : hostRegWrite off w s = .next s := by
  have hcmd : off ≠ RegName.cmd.offset := by rw [RegName.offset]; omega
  rw [hostRegWrite, if_neg (Nat.not_le.mpr h'), if_neg (not_not_intro h4), if_neg hcmd, regAt_reserved h]
  exact ite_self _

/-- A write that has no effect on its register is ignored, BUSY or not (R11, R218). -/
theorem hostRegWrite_of_no_effect {r : RegName} (hr : r ≠ .cmd) {w : Word} {s : State} (h : writeReg s r w = s) :
    hostRegWrite r.offset w s = .next s := by
  obtain ⟨hle, h4⟩ := r.offset_bounds
  cases hb : s.status.busy with
  | true => exact hostRegWrite_of_busy (by omega) h4 w hb
  | false => rw [hostRegWrite_of_not_busy hr w hb, h]

/-- The read-only registers of the register map (R11). -/
def readOnlyRegs : List RegName := [.cap, .error, .index, .ncolors, .dstWidth, .dstHeight, .dstBpp, .dstSize, .palSize]

theorem writeReg_of_readOnly {r : RegName} (hr : r ∈ readOnlyRegs) (s : State) (w : Word) :
    r ≠ .cmd ∧ writeReg s r w = s := by
  cases r with
  | cap | error | index | ncolors | dstWidth | dstHeight | dstBpp | dstSize | palSize => exact ⟨nofun, rfl⟩
  | ctrl | status | cmd | srcWidth | srcHeight | srcBpp | row | col | color | bpp => exact absurd hr (by decide)

/-- Every register write at an aligned offset is served (R11, R193). -/
theorem hostRegWrite_answers {off : Nat} {s : State} (h : off < 0x100) (h4 : off % 4 = 0) (w : Word) :
    ∃ t, hostRegWrite off w s = .next t := by
  rw [hostRegWrite, if_neg (Nat.not_le.mpr h), if_neg (not_not_intro h4)]
  split
  · obtain ⟨op, body, hissue⟩ := issueWord_eq_issue w
    rw [hissue]
    exact issue_answers ..
  split
  · exact ⟨_, rfl⟩
  split <;> exact ⟨_, rfl⟩

/-- All registers of the register map, in the order of their offsets (10_state.md section 2). -/
def RegName.all : List RegName :=
  [.cap, .ctrl, .status, .error, .cmd, .srcWidth, .srcHeight, .srcBpp, .row, .col, .color, .index, .ncolors, .bpp,
    .dstWidth, .dstHeight, .dstBpp, .dstSize, .palSize]

/-- Every register but CAP reads 0 in the reset state (R45). -/
theorem readReg_resetEngine (s : State) {r : RegName} (hr : r ≠ .cap) : readReg (resetEngine s) r = 0 := by
  cases r with
  | cap => exact absurd rfl hr
  | status => exact (by decide : Status.toWord ⟨false, false, false, false, false⟩ = 0)
  | error => exact (by decide : ErrorReg.toWord ⟨0, 0⟩ = 0)
  | index => exact (by decide : IndexReg.toWord ⟨false, 0⟩ = 0)
  | color | ncolors => exact BitVec.setWidth_zero ..
  | ctrl | cmd | srcWidth | srcHeight | srcBpp | row | col | bpp | dstWidth | dstHeight | dstBpp | dstSize
  | palSize => rfl

/-- The bits of STATUS (R14). -/
theorem Status.toWord_bits (f : Status) :
    f.toWord.getLsbD 0 = f.busy ∧ f.toWord.getLsbD 1 = f.done ∧ f.toWord.getLsbD 2 = f.err ∧
      f.toWord.getLsbD 3 = f.lutValid ∧ f.toWord.getLsbD 4 = f.dstValid ∧ f.toWord.toNat < 2 ^ 5 := by
  obtain ⟨busy, done, err, lutValid, dstValid⟩ := f
  revert busy done err lutValid dstValid
  decide

theorem ErrorReg.toWord_toNat (e : ErrorReg) : e.toWord.toNat = e.op.toNat * 256 + e.code.toNat := by
  have hop := e.op.isLt
  have hcode := e.code.isLt
  rw [ErrorReg.toWord, BitVec.toNat_ofNat]
  omega

/-- A register narrower than a word reads as its number, which fits its bits (R22, R24). -/
theorem toNat_setWidth_narrow {n : Nat} (hn : n ≤ 32) (x : BitVec n) :
    (x.setWidth 32).toNat = x.toNat ∧ (x.setWidth 32).toNat < 2 ^ n := by
  rw [BitVec.toNat_setWidth_of_le hn]
  exact ⟨rfl, x.isLt⟩

end Machine

open Machine

/-- Settles O43: the step performs the reset in a state whose position has moved. -/
theorem resetLeaves : Obligations.ResetLeaves := by
  intro s t hcur h
  rw [step_of_stmt hcur] at h
  obtain rfl := Host.Outcome.next.inj h
  exact ⟨fun r hr => readReg_resetEngine _ hr, rfl, rfl, rfl, fun a => ⟨rfl, rfl, rfl⟩⟩

/-- Settles O44: the write has CTRL's effect while not BUSY, which is the reset or nothing, and none while BUSY. -/
theorem softReset : Obligations.SoftReset := by
  intro s w
  refine ⟨fun hb hw => ?_, fun hw => ?_, fun hb => hostRegWrite_of_busy (by decide) (by decide) w hb⟩
  · refine (hostRegWrite_of_not_busy (r := .ctrl) nofun w hb).trans ?_
    rw [writeReg, if_pos hw, perform]
  · exact hostRegWrite_of_no_effect (r := .ctrl) nofun (writeReg_ctrl_of_not_bit hw s)

/-- Settles O50: each write has its register's effect. -/
theorem plainRegisterWrites : Obligations.PlainRegisterWrites := by
  intro s w hb
  refine ⟨hostRegWrite_of_not_busy (r := .row) nofun w hb, hostRegWrite_of_not_busy (r := .col) nofun w hb,
    hostRegWrite_of_not_busy (r := .bpp) nofun w hb, _, ?_, hostRegWrite_of_not_busy (r := .color) nofun w hb⟩
  rw [BitVec.extractLsb'_toNat, Nat.shiftRight_zero]

/-- Settles O52: the fields of each word by its own arithmetic. -/
theorem registerWordBits : Obligations.RegisterWordBits := fun s =>
  ⟨s.status.toWord_bits, s.error.toWord_toNat, s.index.toWord_toNat, toNat_setWidth_narrow (by decide) s.color,
    toNat_setWidth_narrow (by decide) s.ncolors⟩

/-- Settles O53: the list is the register map with each register's word. -/
theorem registerReadsAndTheBusyWindow : Obligations.RegisterReadsAndTheBusyWindow := by
  intro s w
  refine ⟨fun hb off word hmem => ?_, hostRegRead_eq (off := 0x08) (by decide) (by decide) (.inr rfl),
    fun hb off hle h4 => hostRegWrite_of_busy (by omega) h4 w hb⟩
  obtain ⟨r, -, hr⟩ := List.mem_map.mp (show (off, word) ∈ RegName.all.map fun r => (r.offset, readReg s r) from hmem)
  obtain ⟨rfl, rfl⟩ := Prod.mk.inj hr
  exact perform_rd_of_idle r hb

end Sys2Proof
end

