-- ==== Sys2Proof/Proofs/Buffers.lean ====
section
/-! PROOFS. Host accesses of the buffer spaces, and which statements are served (R34, R35, R52, R89, R217). -/

namespace Sys2Proof

namespace Machine

/-- A write of a byte of SRC is stored while not BUSY (R34, R35). -/
theorem hostByteWrite_src {off : Nat} {s : State} (b : Byte) (hb : s.status.busy = false) (ho : off < s.cfg.srcCap) :
    hostByteWrite .src off b s = .next (storeSrcByte off b s) := by
  rw [hostByteWrite, if_neg (show ¬ BufferSpace.src.size s.cfg ≤ off from Nat.not_le.mpr ho)]
  exact if_neg (Bool.eq_false_iff.mp hb)

theorem hostByteWrite_src_of_busy {off : Nat} {s : State} (b : Byte) (hb : s.status.busy = true)
    (ho : off < s.cfg.srcCap) : hostByteWrite .src off b s = .refused .sourceWriteWhileBusy := by
  rw [hostByteWrite, if_neg (show ¬ BufferSpace.src.size s.cfg ≤ off from Nat.not_le.mpr ho)]
  exact if_pos hb

/-- A write of a byte of DST or PAL is ignored (R35). -/
theorem hostByteWrite_readOnly {sp : BufferSpace} (hsp : sp ≠ .src) {off : Nat} {s : State} (b : Byte)
    (ho : off < sp.size s.cfg) : hostByteWrite sp off b s = .next s := by
  have hone := hostByteWrites_readOnly hsp (bs := [b]) (s := s) (off := off) ho
  rw [hostByteWrites] at hone
  split at hone
  · next t ht => exact ht.trans hone
  · cases hone
  · cases hone

/-- A write of SRC that answers a next state stored the byte, inside the space (R35). -/
theorem hostByteWrite_src_next {off : Nat} {b : Byte} {s t : State} (h : hostByteWrite .src off b s = .next t) :
    off < s.cfg.srcCap ∧ t = storeSrcByte off b s := by
  have hwrites : hostByteWrites .src off [b] s = .next t := by rw [hostByteWrites, h]; rfl
  obtain ⟨hb, ho⟩ := hostByteWrites_src_next (List.cons_ne_nil b []) hwrites
  rw [hostByteWrite_src b hb ho] at h
  exact ⟨ho, (Host.Outcome.next.inj h).symm⟩

/-- A read of a byte that its space specifies gives the host the byte (R35, R217). -/
theorem hostByteRead_of_some {sp : BufferSpace} {off : Nat} {b : Byte} {s : State} (hb : s.status.busy = false)
    (ho : off < sp.size s.cfg) (h : bufferByte s sp off = some b) :
    hostByteRead sp off s = .next (observeByte sp off b s) := by
  rw [hostByteRead, if_neg (Nat.not_le.mpr ho), if_neg (Bool.eq_false_iff.mp hb), h]

/-- A read of a byte that its space does not specify gives the host a free value (R217, log 3). -/
theorem hostByteRead_of_none {sp : BufferSpace} {off : Nat} {s : State} (hb : s.status.busy = false)
    (ho : off < sp.size s.cfg) (h : bufferByte s sp off = none) :
    hostByteRead sp off s = .next (drawByte sp off s) := by
  rw [hostByteRead, if_neg (Nat.not_le.mpr ho), if_neg (Bool.eq_false_iff.mp hb), h]

theorem srcByte_of_read {s : State} {off : Nat} {b : Byte} (h : s.src.read off = some b) : srcByte s off = b := by
  rw [srcByte, h, Option.getD_some]

/-- The accesses that write SRC (R218). -/
def Access.writesSrc (a : Access) : Prop :=
  (∃ off b, a = .byteWrite .src off b) ∨ ∃ off n v, a = .wideWrite .src off n v

theorem leBytes_ne_nil {n : Nat} (hn : 0 < n) (v : Nat) : leBytes n v ≠ [] :=
  List.ne_nil_of_length_pos (by rwa [length_leBytes])

/-- A wider write of SRC is refused at its first byte while BUSY (R218). -/
theorem hostWideWrite_src_of_busy {off n : Nat} {s : State} (v : Nat) (hn : 0 < n) (hb : s.status.busy = true)
    (ho : off + n ≤ s.cfg.srcCap) : hostWideWrite .src off n v s = .refused .sourceWriteWhileBusy := by
  obtain ⟨m, rfl⟩ := Nat.exists_eq_add_of_lt hn
  rw [Nat.zero_add, hostWideWrite, leBytes, hostByteWrites, hostByteWrite_src_of_busy _ hb (by omega)]

/-- A well-formed access is served, unless it writes SRC while BUSY, which is refused (R89, R218). -/
theorem hostAccess_of_wellFormed {a : Access} {s : State} (hw : a.wellFormed s.cfg = true) :
    (∃ t, hostAccess a s = .next t) ∨
      (a.writesSrc ∧ s.status.busy = true ∧ hostAccess a s = .refused .sourceWriteWhileBusy) := by
  cases a with
  | regRead off =>
    obtain ⟨h4, ho⟩ : off % 4 = 0 ∧ off < 0x100 := by simpa [Access.wellFormed] using hw
    exact .inl (hostRegRead_answers ho h4)
  | regWrite off w =>
    obtain ⟨h4, ho⟩ : off % 4 = 0 ∧ off < 0x100 := by simpa [Access.wellFormed] using hw
    exact .inl (hostRegWrite_answers ho h4 w)
  | byteRead sp off =>
    obtain ⟨o, d, h⟩ := hostByteRead_answers (s := s) (of_decide_eq_true hw)
    exact .inl ⟨_, h⟩
  | byteWrite sp off b =>
    have ho : off < sp.size s.cfg := of_decide_eq_true hw
    by_cases hsp : sp = .src
    · subst hsp
      cases hb : s.status.busy with
      | false => exact .inl ⟨_, hostByteWrite_src b hb ho⟩
      | true => exact .inr ⟨.inl ⟨off, b, rfl⟩, rfl, hostByteWrite_src_of_busy b hb ho⟩
    · exact .inl ⟨s, hostByteWrite_readOnly hsp b ho⟩
  | wideRead sp off n =>
    obtain ⟨-, ho⟩ : 0 < n ∧ off + n ≤ sp.size s.cfg := by simpa [Access.wellFormed] using hw
    obtain ⟨t, ht⟩ := hostByteReads_answers (s := s) ho
    exact .inl ⟨observeNumber sp off n t, by rw [hostAccess, hostWideRead, ht]⟩
  | wideWrite sp off n v =>
    obtain ⟨⟨hn, ho⟩, -⟩ : (0 < n ∧ off + n ≤ sp.size s.cfg) ∧ v < 256 ^ n := by
      simpa [Access.wellFormed] using hw
    by_cases hsp : sp = .src
    · subst hsp
      cases hb : s.status.busy with
      | false => exact .inl ⟨_, hostByteWrites_src (leBytes_ne_nil hn v) hb (by rwa [length_leBytes])⟩
      | true => exact .inr ⟨.inr ⟨off, n, v, rfl⟩, rfl, hostWideWrite_src_of_busy v hn hb ho⟩
    · exact .inl ⟨s, hostByteWrites_readOnly hsp (by rwa [length_leBytes])⟩

theorem perform_branch_of_read {reg : RegName} {hi lo v target : Nat} {s : State} {w : Word}
    (h : lastRead reg.offset s.observed = some w) : ∃ t, perform (.branch reg hi lo v target) s = .next t := by
  rw [perform, h]
  dsimp only
  split <;> exact ⟨_, rfl⟩

theorem perform_sizedRead_of_read {sp : BufferSpace} {off : Nat} {size : RegName} {s : State} {w : Word}
    (h : lastRead size.offset s.observed = some w) :
    perform (.sizedRead sp off size) s = hostByteReads sp off w.toNat s := by
  rw [perform, h]

end Machine

open Machine

/-- Settles O46: each register write is its store with the invalidation, and so is the write of a byte. -/
theorem sourceWritesInvalidate : Obligations.SourceWritesInvalidate := fun _ w _ b hb =>
  ⟨hostRegWrite_of_not_busy (r := .srcWidth) nofun w hb, hostRegWrite_of_not_busy (r := .srcHeight) nofun w hb,
    hostRegWrite_of_not_busy (r := .srcBpp) nofun w hb, hostByteWrite_src b hb⟩

/-- Settles O47: reading after the write of one byte, and after the write of a number's bytes. -/
theorem srcWriteReadsBack : Obligations.SrcWriteReadsBack := by
  constructor
  · intro s t off b hb h
    obtain ⟨ho, rfl⟩ := hostByteWrite_src_next h
    have hread : (storeSrcByte off b s).src.read off = some b := by
      rw [storeSrcByte_src, Memory.read_write, if_pos (by simp), Nat.sub_self, List.getElem?_cons_zero]
    refine ⟨hread, fun a hne => ?_, fun hwf => Memory.wf_write hwf off [b], _,
      hostByteRead_of_some (b := b) hb ho ?_, rfl⟩
    · rw [storeSrcByte_src, Memory.read_write, if_neg (by simp; omega)]
    · rw [bufferByte, srcByte_of_read hread]
  · intro s off n v hb hn ho
    have hlen := length_leBytes n v
    refine ⟨Memory.write s.src off (leBytes n v), hostByteWrites_src (leBytes_ne_nil hn v) hb (by rwa [hlen]),
      fun i hi => ⟨_, ?_, BitVec.toNat_ofNat ..⟩, fun a ha => ?_, fun hwf => Memory.wf_write hwf off _⟩
    · rw [Memory.read_write, if_pos (by omega), Nat.add_sub_cancel_left, getElem?_leBytes v hi]
    · rw [Memory.read_write, if_neg (by omega)]

/-- Settles O48: reads of specified and of unspecified bytes, and the number of several specified ones. -/
theorem bufferReadsGiveTheBytes : Obligations.BufferReadsGiveTheBytes := by
  constructor
  · intro s off b hb
    refine ⟨fun ho h => ?_, fun ho h => hostByteRead_of_some hb ho h, fun ho h => hostByteRead_of_some hb ho h,
      fun ho _ => hostByteRead_of_some hb ho rfl, fun ho h => ⟨_, _, hostByteRead_of_none hb ho h⟩,
      fun ho h => ⟨_, _, hostByteRead_of_none hb ho h⟩⟩
    exact hostByteRead_of_some hb ho (by rw [bufferByte, srcByte_of_read h])
  · intro s sp off bs hb ho hbytes
    have hbuf : ∀ i b, bs[i]? = some b → bufferByte s sp (off + i) = some b := fun i b hi => by
      rcases hbytes i b hi with ⟨rfl, h⟩ | ⟨rfl, h⟩ | ⟨rfl, h⟩
      · rw [bufferByte, h]
      · exact h
      · exact h
    obtain ⟨o, h⟩ := hostWideRead_of_bytes hb ho hbuf
    exact ⟨ofLeBytes bs, o, h, ofLeBytes_lt bs, fun i b hi => ofLeBytes_digit hi⟩

/-- Settles O49: the read-only registers, the reserved offsets, DST and PAL; CTRL and CMD read as 0. -/
theorem ignoredAccesses : Obligations.IgnoredAccesses := by
  intro s w off n v b
  refine ⟨fun hmem => ?_, fun h h' h4 => hostRegWrite_reserved s h h' h4 w,
    fun ho => hostByteWrite_readOnly (sp := .dst) nofun b ho, fun ho => hostByteWrite_readOnly (sp := .pal) nofun b ho,
    fun ho => hostByteWrites_readOnly (sp := .dst) nofun (by rwa [length_leBytes]),
    fun ho => hostByteWrites_readOnly (sp := .pal) nofun (by rwa [length_leBytes]),
    fun hb => ⟨fun h h' h4 => ?_, hostRegRead_eq (by decide) (by decide) (.inl hb),
      hostRegRead_eq (by decide) (by decide) (.inl hb)⟩⟩
  · obtain ⟨r, hr, rfl⟩ := List.mem_map.mp (show off ∈ readOnlyRegs.map RegName.offset from hmem)
    obtain ⟨hcmd, hkept⟩ := writeReg_of_readOnly hr s w
    exact hostRegWrite_of_no_effect hcmd hkept
  · rw [hostRegRead_eq h' h4 (.inl hb), readRegAt, regAt_reserved h]
    rfl

/-- Settles O54: a well-formed access is served while not BUSY, and the two statements that use a value read have it. -/
theorem wellFormedStatementsAreServed : Obligations.WellFormedStatementsAreServed := by
  intro s st hcur hw hb hbranch hsized
  rw [step_of_stmt hcur]
  cases st with
  | access a =>
    rcases hostAccess_of_wellFormed (a := a) (s := advance s) hw with h | ⟨-, hbusy, -⟩
    · exact h
    · exact absurd (hb.symm.trans hbusy) (by decide)
  | branch reg hi lo v target =>
    obtain ⟨w, h⟩ := hbranch reg hi lo v target rfl
    exact perform_branch_of_read (s := advance s) h
  | sizedRead sp off size =>
    obtain ⟨w, h, ho⟩ := hsized sp off size rfl
    rw [perform_sizedRead_of_read (s := advance s) h]
    exact hostByteReads_answers (s := advance s) ho
  | hardwareReset => exact ⟨_, rfl⟩

/-- Settles O55: each statement that could be served is, so one that stops is one of those listed. -/
theorem onlyForeignAccessesStop : Obligations.OnlyForeignAccessesStop := by
  intro s
  cases hcur : currentStmt s with
  | none =>
    rw [step_of_none hcur]
    exact ⟨nofun, nofun⟩
  | some st =>
  rw [step_of_stmt hcur]
  simp only [Option.some.injEq]
  cases st with
  | access a =>
    cases hw : a.wellFormed s.cfg with
    | false => exact ⟨fun _ _ => .inl ⟨a, rfl, hw⟩, fun _ _ => .inl ⟨a, rfl, hw⟩⟩
    | true =>
      rcases hostAccess_of_wellFormed (a := a) (s := advance s) hw with ⟨t, h⟩ | ⟨hsrc, hb, h⟩ <;>
        rw [perform, h]
      · exact ⟨nofun, nofun⟩
      · refine ⟨nofun, fun _ _ => .inr ?_⟩
        rcases hsrc with ⟨off, b, rfl⟩ | ⟨off, n, v, rfl⟩
        · exact .inl ⟨off, b, rfl, hb⟩
        · exact .inr (.inl ⟨off, n, v, rfl, hb⟩)
  | branch reg hi lo v target =>
    cases hread : lastRead reg.offset s.observed with
    | none =>
      have hstop : perform (.branch reg hi lo v target) (advance s) = .refused .branchOnUnreadRegister := by
        rw [perform, advance_observed, hread]
      rw [hstop]
      exact ⟨nofun, fun _ _ => .inr (.inr (.inr (.inl ⟨reg, hi, lo, v, target, rfl, hread⟩)))⟩
    | some w =>
      obtain ⟨t, h⟩ := perform_branch_of_read (s := advance s) (hi := hi) (lo := lo) (v := v) (target := target) hread
      rw [h]
      exact ⟨nofun, nofun⟩
  | sizedRead sp off size =>
    cases hread : lastRead size.offset s.observed with
    | none =>
      have hstop : perform (.sizedRead sp off size) (advance s) = .refused .sizeOfUnreadRegister := by
        rw [perform, advance_observed, hread]
      rw [hstop]
      exact ⟨nofun, fun _ _ => .inr (.inr (.inr (.inr ⟨sp, off, size, rfl, hread⟩)))⟩
    | some w =>
      rw [perform_sizedRead_of_read (s := advance s) hread]
      refine ⟨fun f hf => .inr ⟨sp, off, size, w, rfl, hread, Nat.lt_of_not_le fun ho => ?_⟩,
        fun r hr => absurd hr hostByteReads_ne_refused⟩
      obtain ⟨t, h⟩ := hostByteReads_answers (s := advance s) ho
      rw [h] at hf
      cases hf
  | hardwareReset => exact ⟨nofun, nofun⟩

end Sys2Proof
end
